-- ==== Sys2Proof/Word.lean ====
section
/-! DEFINITION. The word types of the block (spec/00_scope.md R9): bytes and the 4-bit operation word. -/

namespace Sys2Proof

/-- A byte: 8 bits, bit 7 the most significant (R9). -/
abbrev Byte := BitVec 8

/-- A host operation word, format `HOST4` (30_encoding.md R73). -/
abbrev OpWord := BitVec 4

end Sys2Proof
end

