-- ==== Sys2Proof/Config.lean ====
section
/-! DEFINITION. The configuration record `cfg` (spec/00_scope.md R6), the spec's test profiles, and the
free values of the model. `cfg` is fixed for an installed block: no rule writes it (10_state.md R21). -/

namespace Sys2Proof

/-- The two orientations (R6, R13). -/
inductive Orient where
  | native
  | rotated
  deriving DecidableEq, Repr

/-- Select framing of the RAM data bytes (R6, 92_eei_decisions.md D11). -/
inductive Framing where
  | perByte
  | burst
  deriving DecidableEq, Repr

/-- Pin polarities and serial format (R6 last row, 30_encoding.md R82).
PRESUMED: the defaults are the spec's general-knowledge values (log 13). -/
structure PinCfg where
  /-- select is active low -/
  csActiveLow : Bool := true
  /-- the data/command pin is low for command -/
  dcLowIsCommand : Bool := true
  /-- the panel reset pin has the level of `rstl` -/
  resetHighIsHigh : Bool := true
  /-- the busy pin is high when busy -/
  busyHighIsBusy : Bool := true
  /-- bit 7 leaves first -/
  msbFirst : Bool := true
  /-- data is valid on the rising clock edge -/
  validOnRising : Bool := true
  /-- the clock idles low -/
  clockIdlesLow : Bool := true
  deriving DecidableEq, Repr

/-- The parameters of R6. The three fixed codes (0xF7, 0xFF, 0x01) are constants, not fields. -/
structure Cfg where
  /-- `PW`, physical width in pixels -/
  pw : Nat
  /-- `PH`, physical height in pixels -/
  ph : Nat
  /-- `ORIENT`; "defaults to rotated" -/
  orient : Orient := .rotated
  /-- `T_RST`, ms, at least 200 -/
  tRst : Nat := 200
  /-- `T_SETTLE`, ms, at least 50 -/
  tSettle : Nat := 50
  /-- `T_POLL`, ms, at least 100 -/
  tPoll : Nat := 100
  /-- `T_SLEEP`, ms; default `T_SETTLE` (D14) -/
  tSleep : Nat := tSettle
  argDriverOutput : List Byte
  argDataEntry : List Byte
  argRamXWindow : List Byte
  argRamYWindow : List Byte
  argBorder : List Byte
  argUpdateCtrl1 : List Byte
  argTempSensor : List Byte
  argRamXCounter : List Byte
  argRamYCounter : List Byte
  /-- `RAM_FRAMING`, default PerByte (D11) -/
  ramFraming : Framing := .perByte
  /-- `COUNTER_RESET_PER_REFRESH`, default false (D12) -/
  counterReset : Bool := false
  /-- `HAS_TX_ERR` (D17) -/
  hasTxErr : Bool := false
  /-- `CLK_HZ`, OPEN; no rule reads it (log 19) -/
  clkHz : Nat := 1000
  pins : PinCfg := {}
  deriving DecidableEq, Repr

/-- Profile TP-S (95_test_vectors.md section 0): 16 x 8, Rotated, N = 16.
PRESUMED: the argument bytes are general knowledge (93_implementation_defined.md G1). -/
def Cfg.tpS : Cfg where
  pw := 16
  ph := 8
  argDriverOutput := [0x07, 0x00, 0x00]
  argDataEntry := [0x03]
  argRamXWindow := [0x00, 0x01]
  argRamYWindow := [0x00, 0x00, 0x07, 0x00]
  argBorder := [0x05]
  argUpdateCtrl1 := [0x00, 0x80]
  argTempSensor := [0x80]
  argRamXCounter := [0x00]
  argRamYCounter := [0x00, 0x00]

/-- Profile TP-L: the source's 128 x 296 worked example, Rotated, N = 4736. -/
def Cfg.tpL : Cfg :=
  { Cfg.tpS with
    pw := 128, ph := 296
    argDriverOutput := [0x27, 0x01, 0x00]
    argRamXWindow := [0x00, 0x0F]
    argRamYWindow := [0x00, 0x00, 0x27, 0x01] }

/-- Profile TP-N: 16 x 4, Native, N = 8. -/
def Cfg.tpN : Cfg :=
  { Cfg.tpS with
    ph := 4, orient := .native
    argDriverOutput := [0x03, 0x00, 0x00]
    argRamYWindow := [0x00, 0x00, 0x03, 0x00] }

/-- FREE VALUE (log 9): the byte a framebuffer address reads as while nothing has written it
(10_state.md R46, 20_memory.md R52: "an arbitrary but fixed byte ... never as zero"). -/
opaque Config.fbUnwritten : Nat → Byte

/-- FREE VALUE (log 3): the answer of the n-th `readBusy()` that no scheduled answer covers
(10_state.md R20, 93 U7: "a draw: free input under no law"). -/
opaque Config.busyAnswer : Nat → Bool

/-- FREE VALUE (log 28): whether the n-th late write of the host is already seen by the block (70_reset_and_hazards.md R207:
"each byte sent is the old or the new value of its address, unspecified which"). -/
opaque Config.raceNew : Nat → Bool

/-- FREE VALUE (log 28): whether the fill's write of an address comes after the host's, where the host writes it during the
fill (R207: "the final content of a doubly-written address is unspecified"; 20_memory.md R57: byte accesses are atomic, and
R52: the last writer's byte stays). The first argument counts the late writes landed so far, the second is the address. -/
opaque Config.fillLast : Nat → Nat → Bool

end Sys2Proof
end

