-- ==== Sys2Proof/Syntax.lean ====
section
/-! DEFINITION. The instructions: one constructor per row of spec/opcode_table.json. -/

namespace Sys2Proof

/-- The 4 host operations and 4 reserved words of format `HOST4` (30_encoding.md R74, R76), each with the
word's `F` bit, and the 13 panel commands of format `WIRE8` (R78), whose argument bytes are no part of
the encoding (they come from `cfg`, `cur_full` and the framebuffer, R79). -/
inductive Instr where
  /-- INIT, OP 001; `f` ignored (R75) -/
  | init (f : Bool)
  /-- REFRESH, OP 010; `f` is `fullRefresh` (R73) -/
  | refresh (f : Bool)
  /-- SLEEP, OP 011; `f` ignored -/
  | sleep (f : Bool)
  /-- WAKE, OP 100; `f` ignored -/
  | wake (f : Bool)
  /-- reserved, OP 000 -/
  | reserved0 (f : Bool)
  /-- reserved, OP 101 -/
  | reserved5 (f : Bool)
  /-- reserved, OP 110 -/
  | reserved6 (f : Bool)
  /-- reserved, OP 111 -/
  | reserved7 (f : Bool)
  /-- 0x01 -/
  | driverOutput
  /-- 0x11 -/
  | dataEntry
  /-- 0x44 -/
  | ramXWindow
  /-- 0x45 -/
  | ramYWindow
  /-- 0x3C -/
  | border
  /-- 0x21 -/
  | updateCtrl1
  /-- 0x18 -/
  | tempSensor
  /-- 0x4E -/
  | ramXCounter
  /-- 0x4F -/
  | ramYCounter
  /-- 0x24 -/
  | writeRam
  /-- 0x22 -/
  | updateCtrl2
  /-- 0x20 -/
  | activate
  /-- 0x10 -/
  | deepSleep
  deriving DecidableEq, Repr

/-- The two encoded interfaces (R70). -/
inductive Format where
  | host4
  | wire8
  deriving DecidableEq, Repr

end Sys2Proof
end

