-- ==== Sys2Proof/WellFormed.lean ====
section
/-! DEFINITION. Well-formedness: of an instruction on an interface, and of a configuration
(the obligations R6 puts on whoever instantiates `cfg`). -/

namespace Sys2Proof

/-- The interface an instruction belongs to (30_encoding.md R70). -/
def Instr.format : Instr → Format
  | .init _ => .host4
  | .refresh _ => .host4
  | .sleep _ => .host4
  | .wake _ => .host4
  | .reserved0 _ => .host4
  | .reserved5 _ => .host4
  | .reserved6 _ => .host4
  | .reserved7 _ => .host4
  | .driverOutput => .wire8
  | .dataEntry => .wire8
  | .ramXWindow => .wire8
  | .ramYWindow => .wire8
  | .border => .wire8
  | .updateCtrl1 => .wire8
  | .tempSensor => .wire8
  | .ramXCounter => .wire8
  | .ramYCounter => .wire8
  | .writeRam => .wire8
  | .updateCtrl2 => .wire8
  | .activate => .wire8
  | .deepSleep => .wire8

/-- An instruction is well formed on an interface exactly when it belongs to it: the host cannot present a
panel command, and the wire never carries a host operation. -/
def Instr.wellFormedOn (i : Instr) (fmt : Format) : Bool := i.format == fmt

/-- An instruction with the interface it is used on. -/
structure Placed where
  instr : Instr
  on : Format
  deriving DecidableEq, Repr

def Placed.wellFormed (p : Placed) : Bool := p.instr.wellFormedOn p.on

/-- The bounds R6 puts on the delays (`T_SLEEP` has none). -/
def Cfg.delaysLegal (c : Cfg) : Bool :=
  decide (200 ≤ c.tRst) && decide (50 ≤ c.tSettle) && decide (100 ≤ c.tPoll)

/-- `CLK_HZ` is a positive integer (R6). -/
def Cfg.clockLegal (c : Cfg) : Bool := decide (0 < c.clkHz)

/-- The geometry R8 calls valid: `PW >= 8`, 8 divides `PW`, `PH >= 1`. -/
def Cfg.geometryLegal (c : Cfg) : Bool :=
  decide (8 ≤ c.pw) && decide (c.pw % 8 = 0) && decide (1 ≤ c.ph)

/-- A configuration R6 allows. A block with an illegal geometry is still modelled (it answers
GeometryError, 60_exceptions.md R173). -/
def Cfg.wellFormed (c : Cfg) : Bool := c.geometryLegal && c.delaysLegal && c.clockLegal

end Sys2Proof
end

