-- ==== Sys2Proof/Decode.lean ====
section
/-! DEFINITION. Decoding and encoding of both interfaces (spec/30_encoding.md R70 to R81), and the host's
reading of a row of spec/opcode_table.json. -/

namespace Sys2Proof

/-- Why a byte or word is no instruction. -/
inductive DecodeError where
  /-- one of the 243 command bytes the block never emits (R80) -/
  | neverEmitted (b : Byte)
  deriving DecidableEq, Repr

/-! ## Host side, format HOST4 -/

/-- Field `F`, bit 3 (R73). -/
def wordF (w : OpWord) : Bool := w.getLsbD 3

/-- Field `OP`, bits 2:0 (R73). -/
def wordOP (w : OpWord) : Nat := w.toNat % 8

/-- The decoder of operation words, by the codes of R74; the `F` bit is kept as an operand. Total: all 16
words have a meaning (R76). -/
def decodeHost (w : OpWord) : Instr :=
  match wordOP w with
  | 1 => .init (wordF w)
  | 2 => .refresh (wordF w)
  | 3 => .sleep (wordF w)
  | 4 => .wake (wordF w)
  | 5 => .reserved5 (wordF w)
  | 6 => .reserved6 (wordF w)
  | 7 => .reserved7 (wordF w)
  | _ => .reserved0 (wordF w)

/-! ## Wire side, format WIRE8 -/

/-- The 13 command bytes of R78, in the order of the spec's table. -/
def panelCodes : List Byte :=
  [0x01, 0x11, 0x44, 0x45, 0x3C, 0x21, 0x18, 0x4E, 0x4F, 0x24, 0x22, 0x20, 0x10]

/-- The decoder of command bytes: the 13 of R78, every other byte rejected (R80). -/
def decodeWire (b : Byte) : Except DecodeError Instr :=
  match b.toNat with
  | 0x01 => .ok .driverOutput
  | 0x11 => .ok .dataEntry
  | 0x44 => .ok .ramXWindow
  | 0x45 => .ok .ramYWindow
  | 0x3C => .ok .border
  | 0x21 => .ok .updateCtrl1
  | 0x18 => .ok .tempSensor
  | 0x4E => .ok .ramXCounter
  | 0x4F => .ok .ramYCounter
  | 0x24 => .ok .writeRam
  | 0x22 => .ok .updateCtrl2
  | 0x20 => .ok .activate
  | 0x10 => .ok .deepSleep
  | _ => .error (.neverEmitted b)

/-- Decoding on an interface: the host word is the low four bits of the byte, and a byte with a bit above
them is no host word. -/
def decodeOn (fmt : Format) (b : Byte) : Option Instr :=
  match fmt with
  | .host4 => if b.toNat < 16 then some (decodeHost (b.setWidth 4)) else none
  | .wire8 =>
    match decodeWire b with
    | .ok i => some i
    | .error _ => none

/-! ## The encoder -/

/-- A host word from its two fields (R73). -/
def hostWord (f : Bool) (op : Nat) : Byte := BitVec.ofNat 8 ((if f then 8 else 0) + op)

/-- The word of an instruction on its own interface, from the tables of R74 and R78 (a host word is its
four bits in the low half of the byte). -/
def encode : Instr → Byte
  | .init f => hostWord f 1
  | .refresh f => hostWord f 2
  | .sleep f => hostWord f 3
  | .wake f => hostWord f 4
  | .reserved0 f => hostWord f 0
  | .reserved5 f => hostWord f 5
  | .reserved6 f => hostWord f 6
  | .reserved7 f => hostWord f 7
  | .driverOutput => 0x01
  | .dataEntry => 0x11
  | .ramXWindow => 0x44
  | .ramYWindow => 0x45
  | .border => 0x3C
  | .updateCtrl1 => 0x21
  | .tempSensor => 0x18
  | .ramXCounter => 0x4E
  | .ramYCounter => 0x4F
  | .writeRam => 0x24
  | .updateCtrl2 => 0x22
  | .activate => 0x20
  | .deepSleep => 0x10

/-! ## Rows of the opcode table -/

/-- Which interface a table word is read on: `HOST4` rows have fewer than 8 bits; an 8-bit word is `WIRE8`
if it is one of the 13 command bytes, and else a host word in a whole byte (log 14: the one word both
formats have is 0x01, read as DRIVER_OUTPUT when it is given 8 bits). -/
def tableFormat (nbits w : Nat) : Format :=
  if nbits < 8 then .host4
  else if (panelCodes.map BitVec.toNat).contains w then .wire8 else .host4

/-- The instruction the decoder reads from the table word `w` of `nbits` bits. -/
def decodeTableWord (nbits w : Nat) : Option Instr :=
  if 8 < nbits then none
  else if 256 ≤ w then none
  else decodeOn (tableFormat nbits w) (BitVec.ofNat 8 w)

end Sys2Proof
end

