-- ==== Sys2Proof/Machine/State.lean ====
section
/-! DEFINITION. The state of the block as plain data (spec/10_state.md), its reset value (R46), and the
reasons a step can stop. -/

namespace Sys2Proof.Machine

/-- The six states of the Controller State Machine (R25). Codes 6 and 7 are never entered. -/
inductive Ctl where
  | uninitialized
  | resetting
  | configuring
  | idle
  | busy
  | sleeping
  deriving DecidableEq, Repr

/-- The command/data select (R34): C or D. -/
inductive Mode where
  | cmd
  | data
  deriving DecidableEq, Repr

/-- The operation in progress (R36). -/
inductive HostOp where
  | init
  | refresh
  | sleep
  | wake
  deriving DecidableEq, Repr

/-- The event alphabet of the trace (00_scope.md R11). `wait` carries its lower bound in ms. -/
inductive Event where
  | sel (b : Bool)
  | mode (m : Mode)
  | rst (high : Bool)
  | wr (s : List Byte)
  | busy (b : Bool)
  | wait (t : Nat)
  | fbWr (a : Nat) (v : Byte)
  deriving DecidableEq, Repr

/-- A framebuffer write that the host makes while an operation is in progress, against its duty
(70_reset_and_hazards.md R207): while the step at position `seq` of the operation's list runs. -/
structure LateWrite where
  seq : Nat
  addr : Nat
  val : Byte
  deriving DecidableEq, Repr

/-- What the host does, one script action each (30_encoding.md R83). Every action is taken when the block
accepts (`active = 0`); a hardware reset that arrives earlier is `State.resetIn`. -/
inductive HostAction where
  /-- present an operation word until it is accepted -/
  | op (w : OpWord)
  /-- FBW: the host writes one framebuffer byte -/
  | fbWrite (a : Nat) (v : Byte)
  /-- FBFILL: the host writes every framebuffer byte -/
  | fbFill (v : Byte)
  /-- RESET: the hardware reset input -/
  | reset
  /-- the writes the host will make during the operations to come, against its duty (R207; log 28) -/
  | during (ws : List LateWrite)
  deriving DecidableEq, Repr

/-- The framebuffer's contents: the bytes something has written, addresses strictly rising. An address that
is not listed holds no written byte (R46, R52; log 9). -/
abbrev Memory := List Host.Cell

/-- Why the machine stops. -/
inductive Fault where
  /-- A framebuffer access at an address outside `0 .. N-1`, which does not exist (10_state.md R38). Raised by
  a host write of the script, at once or during an operation, to such an address; the block itself never makes one
  (20_memory.md R56). Safe. -/
  | fbAddress (a : Nat)
  /-- An operation is in progress but `seq` is outside its step list, where it has no meaning (R24). No run
  from reset gets there (log 22). Safe. -/
  | seqOutOfRange (n : Nat)
  deriving DecidableEq, Repr

/-- Why an instruction has no meaning. -/
inductive Refusal where
  /-- An instruction without a meaning: no arm of `exec` answers it. Safe. -/
  | notModelled (mnemonic : String)
  /-- The sequencer's step list holds a command byte outside the 13 of 30_encoding.md R78. Raised by issuing a
  panel command; no step list holds one. Safe. -/
  | notAPanelCommand (b : Byte)
  deriving DecidableEq, Repr

/-- Everything the spec gives the block, its configuration, the trace, and the inputs still to come. -/
structure State where
  /-- `cfg` (00_scope.md R6): never written (R21) -/
  cfg : Cfg
  /-- `state` (R25) -/
  ctl : Ctl
  /-- `active` (R27) -/
  active : Bool
  /-- `seq`, the position in the step list of the operation in progress (R24) -/
  seq : Nat
  /-- `cur_op` (R36) -/
  curOp : HostOp
  /-- `cur_full` (R36) -/
  curFull : Bool
  /-- `ret` (R22) -/
  ret : Ctl
  /-- `initialized` (R26) -/
  initialized : Bool
  /-- `poweredOn` (R28) -/
  poweredOn : Bool
  /-- `SKIP` (R29) -/
  skip : Bool
  /-- `ERR` (R30) -/
  err : Bool
  /-- `ILL` (R31) -/
  ill : Bool
  /-- `CAUSE` (R30) -/
  cause : BitVec 2
  /-- `hpc`, mapper column counter (R22) -/
  hpc : Nat
  /-- `vbc`, mapper vertical byte counter (R22) -/
  vbc : Nat
  /-- `k`, stream position and fill address (R22) -/
  k : Nat
  /-- `ai`, index into the byte sequence being sent (R22, and for its range 40_command_channel.md R92, log 30) -/
  ai : Nat
  /-- the delay timer (R35) -/
  timer : Nat
  /-- `sel` (R34): true = panel selected -/
  sel : Bool
  /-- `mode` (R34) -/
  mode : Mode
  /-- `rstl` (R34): true = high -/
  rstl : Bool
  /-- the `op_done` pulse (30_encoding.md R71): true in the state in which an operation has just completed -/
  opDone : Bool
  /-- the framebuffer FB (R39) -/
  fb : Memory
  /-- the trace, oldest event first (00_scope.md R11) -/
  trace : List Event
  /-- input: the host's framebuffer writes while an operation is in progress (70_reset_and_hazards.md R207; log 28) -/
  late : List LateWrite
  /-- the model's record of the late writes that have landed in the operation in progress: for each address, what the block
  sends (log 28) -/
  raced : Memory
  /-- the model's counter for the free choices of late writes (log 28) -/
  races : Nat
  /-- input: the host's script, next action first (30_encoding.md R83) -/
  host : List HostAction
  /-- input: the scheduled answers of the next `readBusy()` calls (R83 BUSY) -/
  busyIn : List Bool
  /-- the model's counter for the free answers after them (log 3) -/
  busyDraws : Nat
  /-- input: how many transport primitives succeed before the next one fails, then before the one after
  it, and so on (60_exceptions.md R172; log 4) -/
  txFail : List Nat
  /-- input: how many more events happen before the hardware reset input is asserted (R196; log 5) -/
  resetIn : Option Nat
  deriving DecidableEq, Repr

/-- Right after hardware reset (R46, R195), for the configuration the log names (log 1). The registers R46
leaves unspecified hold the values of log 8; nothing has written the framebuffer; no input is scheduled. -/
def State.reset : State where
  cfg := Cfg.tpS
  ctl := .uninitialized
  active := false
  seq := 0
  curOp := .init
  curFull := false
  ret := .idle
  initialized := false
  poweredOn := false
  skip := false
  err := false
  ill := false
  cause := 0
  hpc := 0
  vbc := 0
  k := 0
  ai := 0
  timer := 0
  sel := false
  mode := .cmd
  rstl := false
  opDone := false
  fb := []
  trace := []
  late := []
  raced := []
  races := 0
  host := []
  busyIn := []
  busyDraws := 0
  txFail := []
  resetIn := none

end Sys2Proof.Machine
end

