-- ==== Sys2Proof/Machine/Flags.lean ====
section
/-! DEFINITION. Flag writes, the host-visible status byte, the state code (spec/10_state.md R25 to R32) and the
two exceptions' records (spec/60_exceptions.md R171). -/

namespace Sys2Proof.Machine

/-- The code on `state[2:0]` (R25). -/
def Ctl.code : Ctl → BitVec 3
  | .uninitialized => 0
  | .resetting => 1
  | .configuring => 2
  | .idle => 3
  | .busy => 4
  | .sleeping => 5

/-- `op_ready = NOT active` (R27). -/
def State.opReady (s : State) : Bool := !s.active

/-- `status[7:0]` (R32): bit 0 INITIALIZED, 1 POWERED_ON, 2 ACTIVE, 3 SKIP, 4 ERR, 5 ILL, 7:6 CAUSE. -/
def State.status (s : State) : Byte :=
  s.cause ++ BitVec.ofBool s.ill ++ BitVec.ofBool s.err ++ BitVec.ofBool s.skip
    ++ BitVec.ofBool s.active ++ BitVec.ofBool s.poweredOn ++ BitVec.ofBool s.initialized

/-- Codes of `CAUSE` (R171). -/
def causeTransport : BitVec 2 := 1
def causeGeometry : BitVec 2 := 2

/-- `SKIP <- 1` (R29). -/
def State.setSkip (s : State) : State := { s with skip := true }

/-- `ILL <- 1` (R31). -/
def State.setIll (s : State) : State := { s with ill := true }

/-- `ERR <- 1 ; CAUSE <- c` (R30). -/
def State.setErr (c : BitVec 2) (s : State) : State := { s with err := true, cause := c }

/-- The `op_done` pulse (30_encoding.md R71). -/
def State.pulseDone (s : State) : State := { s with opDone := true }

end Sys2Proof.Machine
end

