-- ==== Sys2Proof/Machine/Geometry.lean ====
section
/-! DEFINITION. Quantities derived from `cfg` (spec/00_scope.md R7), the validity check of R8, and delays. -/

namespace Sys2Proof

/-- `LW`, logical width (R7). -/
def Cfg.logicalWidth (c : Cfg) : Nat :=
  match c.orient with
  | .rotated => c.ph
  | .native => c.pw

/-- `LH`, logical height (R7). -/
def Cfg.logicalHeight (c : Cfg) : Nat :=
  match c.orient with
  | .rotated => c.pw
  | .native => c.ph

/-- `N = PW*PH/8`, framebuffer length in bytes (R7). DESIGN CHOICE (log 26): where 8 does not divide `PW*PH`, which only an
invalid geometry allows, the quotient is rounded down. -/
def Cfg.numBytes (c : Cfg) : Nat := c.pw * c.ph / 8

/-- `wid = LW` (R7, used when Rotated). -/
def Cfg.wid (c : Cfg) : Nat := c.logicalWidth

/-- `tbc = LH/8` (R7, used when Rotated). -/
def Cfg.tbc (c : Cfg) : Nat := c.logicalHeight / 8

/-- `iidx = wid*(tbc-1)` (43_scan_order_mapper.md R153). -/
def Cfg.iidx (c : Cfg) : Nat := c.wid * (c.tbc - 1)

/-- `XEND`, last RAM X address of the window (R7). -/
def Cfg.xEnd (c : Cfg) : Nat := c.pw / 8 - 1

/-- `YEND`, last RAM Y address of the window (R7). -/
def Cfg.yEnd (c : Cfg) : Nat := c.ph - 1

/-- The geometry check of INIT and WAKE (R8, 60_exceptions.md R173). -/
def Cfg.valid (c : Cfg) : Bool :=
  decide (8 ≤ c.pw) && decide (c.pw % 8 = 0) && decide (1 ≤ c.ph)

/-- `FULL_CODE` (R6): fixed. -/
def fullCode : Byte := 0xF7

/-- `PARTIAL_CODE` (R6): fixed. -/
def partialCode : Byte := 0xFF

/-- `SLEEP_ARG` (R6): fixed. -/
def sleepArg : Byte := 0x01

/-- The four named delays (60_exceptions.md R185). -/
inductive Delay where
  | tRst
  | tSettle
  | tPoll
  | tSleep
  deriving DecidableEq, Repr

/-- The length of a delay in ms (R185). -/
def Cfg.delay (c : Cfg) : Delay → Nat
  | .tRst => c.tRst
  | .tSettle => c.tSettle
  | .tPoll => c.tPoll
  | .tSleep => c.tSleep

/-- Clock ticks the timer is loaded with for `t` ms: `ceil(t * CLK_HZ / 1000)` (10_state.md R35, D14). -/
def Cfg.ticks (c : Cfg) (t : Nat) : Nat := (t * c.clkHz + 999) / 1000

end Sys2Proof
end

