-- ==== Sys2Proof/Machine/Memory.lean ====
section
/-! DEFINITION. The framebuffer as a list of written bytes in canonical form (spec/20_memory.md R50 to R57). -/

namespace Sys2Proof.Machine

/-- The canonical form: addresses strictly rising. Only written bytes are listed, so every write is listed and
equal contents are equal lists (log 9). -/
abbrev Memory.wf (m : Memory) : Prop := List.Pairwise (fun c d => c.1 < d.1) m

/-- The byte something has written at `a`, if any. -/
def Memory.written : Memory → Nat → Option Byte
  | [], _ => none
  | (b, v) :: m, a => if a = b then some v else if a < b then none else Memory.written m a

/-- Replace the byte at `a` (R53), keeping the form. -/
def Memory.write : Memory → Nat → Byte → Memory
  | [], a, v => [(a, v)]
  | (b, w) :: m, a, v =>
    if a < b then (a, v) :: (b, w) :: m
    else if a = b then (a, v) :: m
    else (b, w) :: Memory.write m a v

/-- What an address reads as: the byte most recently written, else the free byte of that address (R52). -/
def Memory.byteAt (m : Memory) (a : Nat) : Byte := (m.written a).getD (Config.fbUnwritten a)

/-- Write `f a` to addresses `a, a+1, ..., a+n-1`, ascending. -/
def Memory.fillFrom (m : Memory) (a : Nat) (f : Nat → Byte) : Nat → Memory
  | 0 => m
  | n + 1 => Memory.fillFrom (m.write a (f a)) (a + 1) f n

/-- What an address reads as under an overlay that goes before the memory. -/
def Memory.over (overlay m : Memory) (a : Nat) : Byte := (overlay.written a).getD (m.byteAt a)

/-- Every address of `0 .. n-1` has been written. -/
abbrev Memory.filled (m : Memory) (n : Nat) : Prop := ∀ a < n, (m.written a).isSome

end Sys2Proof.Machine
end

