-- ==== Sys2Proof/Machine/Ops.lean ====
section
/-! DEFINITION. The shared operations: hardware reset, the two exceptions, the transport primitives, delays, and
framebuffer accesses. Everything else is made of these. -/

namespace Sys2Proof.Machine

/-- How a piece of an operation ends. -/
inductive Res where
  /-- it has run to its end -/
  | ok (s : State)
  /-- nothing after it runs in this transition: an exception or a hardware reset ended the operation, or the
  busy-wait has no scheduled answer yet -/
  | stop (s : State)
  | fault (f : Fault)
  | refused (r : Refusal)

/-- Sequencing: the next piece starts only when this one has finished (42_controller_operations.md R120). -/
def Res.bind : Res → (State → Res) → Res
  | .ok s, f => f s
  | .stop s, _ => .stop s
  | .fault r, _ => .fault r
  | .refused r, _ => .refused r

def Res.toOutcome : Res → Host.Outcome State Fault Refusal
  | .ok s => .next s
  | .stop s => .next s
  | .fault r => .fault r
  | .refused r => .refused r

/-! ## Hardware reset and exceptions -/

/-- The hardware reset of the block (70_reset_and_hazards.md R195 to R197): every piece of state at its reset value;
`cfg`, the framebuffer and the trace survive, and the inputs still to come are the outside world's. No event, no
`op_done`. -/
def hardReset (s : State) : State :=
  { State.reset with
    cfg := s.cfg, fb := s.fb, trace := s.trace, late := s.late, races := s.races, host := s.host
    busyIn := s.busyIn, busyDraws := s.busyDraws, txFail := s.txFail }

/-- Taking a TransportError (60_exceptions.md R172): no event; the pins keep their values. `seq`, `cur_op`, `cur_full`, `ret`
and the working registers stay as the failed operation left them, which is the model's choice (93 U9; logs 10 and 29). -/
def transportError (s : State) : State :=
  State.pulseDone
    { State.setErr causeTransport s with
      initialized := false, poweredOn := false, ctl := .uninitialized, active := false }

/-- Taking a GeometryError (60_exceptions.md R173): no event; nothing but `ERR`, `CAUSE` and `op_done`. -/
def geometryError (s : State) : State := State.pulseDone (State.setErr causeGeometry s)

/-! ## Events -/

/-- Append an event and update the state, unless the hardware reset input is asserted first (R196). -/
def tick (ev : Event) (upd : State → State) (s : State) : Res :=
  match s.resetIn with
  | some 0 => .stop (hardReset s)
  | some (n + 1) => .ok (upd { s with trace := s.trace ++ [ev], resetIn := some n })
  | none => .ok (upd { s with trace := s.trace ++ [ev] })

/-- The failure input reports failure of the next transport primitive (R172); it exists only with `HAS_TX_ERR`. -/
def State.txFails (s : State) : Bool := s.cfg.hasTxErr && (s.txFail.head? == some 0)

/-- A transport primitive has succeeded: one fewer until the next scheduled failure. -/
def State.countTx (s : State) : State :=
  if s.cfg.hasTxErr then
    match s.txFail with
    | (n + 1) :: rest => { s with txFail := n :: rest }
    | _ => s
  else s

/-- A transport primitive (40_command_channel.md R90): it completes with its event and effect, or reports failure, and
then appends no event. -/
def primitive (ev : Event) (upd : State → State) (s : State) : Res :=
  match s.resetIn with
  | some 0 => .stop (hardReset s)
  | _ =>
    if s.txFails then .stop (transportError { s with txFail := s.txFail.tail })
    else tick ev upd s.countTx

/-- `setSelect(b)` (R90). -/
def setSelect (b : Bool) (s : State) : Res := primitive (.sel b) (fun s => { s with sel := b }) s

/-- `setMode(m)` (R90). -/
def setMode (m : Mode) (s : State) : Res := primitive (.mode m) (fun s => { s with mode := m }) s

/-- `setReset(l)` (R90); true = high. -/
def setReset (high : Bool) (s : State) : Res := primitive (.rst high) (fun s => { s with rstl := high }) s

/-- `writeBytes(bs)` (R90). -/
def writeBytes (bs : List Byte) (s : State) : Res := primitive (.wr bs) id s

/-- The answer the next `readBusy()` gets: the next scheduled one, else a free value (log 3). -/
def State.busyAnswer (s : State) : Bool :=
  match s.busyIn with
  | b :: _ => b
  | [] => Config.busyAnswer s.busyDraws

/-- The answer has been taken. -/
def State.takeBusy (s : State) : State :=
  match s.busyIn with
  | _ :: rest => { s with busyIn := rest }
  | [] => { s with busyDraws := s.busyDraws + 1 }

/-- `readBusy()` (R90): a call that completes takes the answer; one that reports failure, or never happens, takes none. -/
def readBusy (s : State) : Res := primitive (.busy s.busyAnswer) State.takeBusy s

/-- The timer is loaded with the ticks of `t` ms (10_state.md R35). -/
def State.loadTimer (t : Nat) (s : State) : State := { s with timer := s.cfg.ticks t }

/-- The timer has reached zero (R35). -/
def State.expireTimer (s : State) : State := { s with timer := 0 }

/-- `Wait(t)` (60_exceptions.md R186): the sequencer holds until the loaded timer reaches zero; the output signals hold
their values. -/
def wait (d : Delay) (s : State) : Res :=
  tick (.wait (s.cfg.delay d)) State.expireTimer (State.loadTimer (s.cfg.delay d) s)

/-! ## The framebuffer -/

/-- The byte the block reads at `a`: what the framebuffer holds, and at an address the host has written during the operation
the old or the new byte (70_reset_and_hazards.md R207; log 28). -/
def State.readByte (s : State) (a : Nat) : Byte := s.raced.over s.fb a

/-- `MemRead(FB, a, 1)` (20_memory.md R52). An address outside `0 .. N-1` does not exist. -/
def memRead (a : Nat) (s : State) : Except Fault Byte :=
  if a < s.cfg.numBytes then .ok (s.readByte a) else .error (.fbAddress a)

/-- What address `a` of the framebuffer `fb` holds after the block has written `v` there. Where the host writes it too
(`raced` lists it), `fb` holds the host's byte, and the later of the two writes is a free choice (R52, R57, R207; log 28). -/
def settle (raced : Memory) (races : Nat) (fb : Memory) (v : Byte) (a : Nat) : Byte :=
  if (raced.written a).isSome && !Config.fillLast races a then fb.byteAt a else v

/-- What address `a` holds after the block has written `v` there. -/
def State.writtenByte (s : State) (v : Byte) (a : Nat) : Byte := settle s.raced s.races s.fb v a

/-- `MemWrite(FB, a, 1, v)` by the block (R53), with its event. -/
def memWrite (a : Nat) (v : Byte) (s : State) : Res :=
  if a < s.cfg.numBytes then tick (.fbWr a v) (fun s => { s with fb := s.fb.write a (s.writtenByte v a) }) s
  else .fault (.fbAddress a)

/-- A write by the host (R57): no event of the block. -/
def hostWrite (a : Nat) (v : Byte) (s : State) : Res :=
  if a < s.cfg.numBytes then .ok { s with fb := s.fb.write a v } else .fault (.fbAddress a)

/-- One late write lands on the framebuffer `fb`, of `n` bytes: the framebuffer gets the new byte, and the block sends that
or the old one, by a free choice (20_memory.md R57, 70_reset_and_hazards.md R207; log 28). The old byte is the one it would
have sent before; in the fill, that is the fill's own. -/
def landOne (inFill : Bool) (n : Nat) (w : LateWrite) (fb raced : Memory) (races : Nat) : Memory × Memory × Nat :=
  if w.addr < n then
    (fb.write w.addr w.val,
      raced.write w.addr (if Config.raceNew races then w.val
        else if inFill then (raced.written w.addr).getD 0xFF else raced.over fb w.addr), races + 1)
  else (fb, raced, races)

/-- Late writes land in their order. -/
def landAll (inFill : Bool) (n : Nat) : List LateWrite → Memory → Memory → Nat → Memory × Memory × Nat
  | [], fb, raced, races => (fb, raced, races)
  | w :: ws, fb, raced, races =>
    landAll inFill n ws (landOne inFill n w fb raced races).1 (landOne inFill n w fb raced races).2.1
      (landOne inFill n w fb raced races).2.2

/-- The late writes of the step at `seq` land, just before the step. The fill overwrites every
address, so what landed before it is forgotten there. -/
def landStep (inFill : Bool) (s : State) : State :=
  { s with
    fb := (landAll inFill s.cfg.numBytes (s.late.filter (·.seq = s.seq)) s.fb (if inFill then [] else s.raced) s.races).1
    raced := (landAll inFill s.cfg.numBytes (s.late.filter (·.seq = s.seq)) s.fb (if inFill then [] else s.raced) s.races).2.1
    races := (landAll inFill s.cfg.numBytes (s.late.filter (·.seq = s.seq)) s.fb (if inFill then [] else s.raced) s.races).2.2
    late := s.late.filter (·.seq ≠ s.seq) }

/-- The host's late writes are given (log 28). An address outside `0 .. N-1` does not exist. -/
def hostDuring (ws : List LateWrite) (s : State) : Res :=
  match ws.find? fun w => !decide (w.addr < s.cfg.numBytes) with
  | some w => .fault (.fbAddress w.addr)
  | none => .ok { s with late := ws }

/-- FBFILL (30_encoding.md R83): the host writes every address. -/
def hostFill (v : Byte) (s : State) : State :=
  { s with fb := s.fb.fillFrom 0 (fun _ => v) s.cfg.numBytes }

end Sys2Proof.Machine
end

