-- ==== Sys2Proof/Machine/Operands.lean ====
section
/-! DEFINITION. Operand forms: the argument of each panel command (spec/30_encoding.md R79) and the scan-order mapper,
which computes the data bytes of WRITE_RAM (spec/43_scan_order_mapper.md). -/

namespace Sys2Proof.Machine

/-- The argument byte of 0x22 (R79, 41_panel_commands.md R111). -/
def updateCode (full : Bool) : Byte := if full then fullCode else partialCode

/-- The complement of R151. -/
def complementByte (b : Byte) : Byte := ~~~b

/-- `SrcIndex(k)` in closed form: Native R152, Rotated R153. -/
def srcIndex (c : Cfg) (k : Nat) : Nat :=
  match c.orient with
  | .native => k
  | .rotated => c.wid * (c.tbc - 1 - k % c.tbc) + k / c.tbc

/-- The stream position at which framebuffer byte `i` is sent (R155). -/
def sentAt (c : Cfg) (i : Nat) : Nat :=
  match c.orient with
  | .native => i
  | .rotated => i % c.wid * c.tbc + (c.tbc - 1 - i / c.wid)

/-- `OutByte(k)` in closed form (R150), over what each framebuffer address reads as. -/
def outByte (c : Cfg) (byteAt : Nat → Byte) (k : Nat) : Byte := complementByte (byteAt (srcIndex c k))

/-! ## The working registers of the mapper (R153, R159) -/

/-- `idx`, a combinational function of `cfg`, `hpc`, `vbc` (10_state.md R22); Native uses `k` alone (R152). -/
def State.mapIndex (s : State) : Nat :=
  match s.cfg.orient with
  | .native => s.k
  | .rotated => s.cfg.wid * (s.cfg.tbc - 1 - s.vbc) + s.hpc

/-- Before the first byte: `k`, `hpc`, `vbc` at 0 (R159); Native leaves `hpc`, `vbc` unused. -/
def State.mapStart (s : State) : State :=
  match s.cfg.orient with
  | .native => { s with k := 0 }
  | .rotated => { s with k := 0, hpc := 0, vbc := 0 }

/-- After each byte: the next vertical byte, or the next column (R159). -/
def State.mapAdvance (s : State) : State :=
  match s.cfg.orient with
  | .native => { s with k := s.k + 1 }
  | .rotated =>
    if s.vbc + 1 = s.cfg.tbc then { s with k := s.k + 1, vbc := 0, hpc := s.hpc + 1 }
    else { s with k := s.k + 1, vbc := s.vbc + 1 }

/-- The byte the mapper hands to the Command Channel at its present position (R150). -/
def mapByte (s : State) : Except Fault Byte :=
  match memRead s.mapIndex s with
  | .ok b => .ok (complementByte b)
  | .error f => .error f

end Sys2Proof.Machine
end

