-- ==== Sys2Proof/Machine/Channel.lean ====
section
/-! DEFINITION. The Command Channel (spec/40_command_channel.md R91 to R95) and the data loop (spec/42 R130). -/

namespace Sys2Proof.Machine

/-- `sendCommand(code)` (R91). -/
def sendCommand (code : Byte) (s : State) : Res :=
  (setSelect true s).bind fun s =>
  (setMode .cmd s).bind fun s =>
  (writeBytes [code] s).bind fun s =>
  setSelect false s

/-- `sendData(bs)` for a non-empty `bs` (R92); `ai` walks the sequence while it is written, and stands past
its last byte after that. R22 gives `ai` the range `0 .. max len(ARG_*)`, R92 lets it walk any sequence sent: the model follows
R92, so `ai` is `N` after a burst (log 30). -/
def sendData (bs : List Byte) (s : State) : Res :=
  (setSelect true s).bind fun s =>
  (setMode .data s).bind fun s =>
  (writeBytes bs s).bind fun s =>
  setSelect false { s with ai := bs.length }

/-- `sendData` where the sequence may be empty: an empty one is never issued (R93). -/
def sendArgs (bs : List Byte) (s : State) : Res :=
  match bs with
  | [] => .ok s
  | _ :: _ => sendData bs s

/-- `Frame(c, args)` (R94). -/
def frame (c : Byte) (args : List Byte) (s : State) : Res :=
  (sendCommand c s).bind fun s => sendArgs args s

/-- The data loop with one `sendData` per byte (R130 PerByte), `n` bytes from the mapper's present position. -/
def perByteLoop : Nat → State → Res
  | 0, s => .ok s
  | n + 1, s =>
    match mapByte s with
    | .error f => .fault f
    | .ok b => (sendData [b] s).bind fun s => perByteLoop n s.mapAdvance

/-- The `n` bytes from the mapper's present position, and the position after them (R130 Burst; log 23). -/
def gather : Nat → State → Except Fault (List Byte × State)
  | 0, s => .ok ([], s)
  | n + 1, s =>
    match mapByte s with
    | .error f => .error f
    | .ok b =>
      match gather n s.mapAdvance with
      | .error f => .error f
      | .ok (bs, s') => .ok (b :: bs, s')

/-- The data loop with one `sendData` for all bytes (R130 Burst). -/
def burstLoop (n : Nat) (s : State) : Res :=
  match gather n s with
  | .error f => .fault f
  | .ok (bs, s') => sendArgs bs s'

/-- `DataLoop()` (R130). -/
def dataLoop (s : State) : Res :=
  match s.cfg.ramFraming with
  | .perByte => perByteLoop s.cfg.numBytes s.mapStart
  | .burst => burstLoop s.cfg.numBytes s.mapStart

/-- The steps of `FillAllLight()` from fill address `k` on, `n` of them (R127). -/
def fillLoop : Nat → State → Res
  | 0, s => .ok s
  | n + 1, s => (memWrite s.k 0xFF s).bind fun s => fillLoop n { s with k := s.k + 1 }

/-- `FillAllLight()` (R127): ascending `k`. -/
def fillAllLight (s : State) : Res := fillLoop s.cfg.numBytes { s with k := 0 }

end Sys2Proof.Machine
end

