-- ==== Sys2Proof/Machine/Panel.lean ====
section
/-! DEFINITION. The thirteen panel commands (spec/41_panel_commands.md): first what each emits, then its meaning. -/

namespace Sys2Proof.Machine

/-! ## What each command emits -/

/-- R101. -/
def driverOutput (s : State) : Res := frame 0x01 s.cfg.argDriverOutput s
/-- R102. -/
def dataEntry (s : State) : Res := frame 0x11 s.cfg.argDataEntry s
/-- R103. -/
def ramXWindow (s : State) : Res := frame 0x44 s.cfg.argRamXWindow s
/-- R104. -/
def ramYWindow (s : State) : Res := frame 0x45 s.cfg.argRamYWindow s
/-- R105. -/
def border (s : State) : Res := frame 0x3C s.cfg.argBorder s
/-- R106. -/
def updateCtrl1 (s : State) : Res := frame 0x21 s.cfg.argUpdateCtrl1 s
/-- R107. -/
def tempSensor (s : State) : Res := frame 0x18 s.cfg.argTempSensor s
/-- R108. -/
def ramXCounter (s : State) : Res := frame 0x4E s.cfg.argRamXCounter s
/-- R109. -/
def ramYCounter (s : State) : Res := frame 0x4F s.cfg.argRamYCounter s
/-- R110: the command byte, then the data loop. -/
def writeRam (s : State) : Res := (sendCommand 0x24 s).bind dataLoop
/-- R111: the argument is chosen by `cur_full`. -/
def updateCtrl2 (s : State) : Res := frame 0x22 [updateCode s.curFull] s
/-- R112: no argument. -/
def activate (s : State) : Res := frame 0x20 [] s
/-- R113. -/
def deepSleep (s : State) : Res := frame 0x10 [sleepArg] s

/-- Issue the panel command of a byte of the step list (41 R100): the byte is decoded, and the command it stands for
emits its frame. -/
def issue (c : Byte) (s : State) : Res :=
  match decodeWire c with
  | .ok .driverOutput => driverOutput s
  | .ok .dataEntry => dataEntry s
  | .ok .ramXWindow => ramXWindow s
  | .ok .ramYWindow => ramYWindow s
  | .ok .border => border s
  | .ok .updateCtrl1 => updateCtrl1 s
  | .ok .tempSensor => tempSensor s
  | .ok .ramXCounter => ramXCounter s
  | .ok .ramYCounter => ramYCounter s
  | .ok .writeRam => writeRam s
  | .ok .updateCtrl2 => updateCtrl2 s
  | .ok .activate => activate s
  | .ok .deepSleep => deepSleep s
  | _ => .refused (.notAPanelCommand c)

/-! ## Meanings -/

def execDriverOutput (s : State) : Host.Outcome State Fault Refusal := (driverOutput s).toOutcome
def execDataEntry (s : State) : Host.Outcome State Fault Refusal := (dataEntry s).toOutcome
def execRamXWindow (s : State) : Host.Outcome State Fault Refusal := (ramXWindow s).toOutcome
def execRamYWindow (s : State) : Host.Outcome State Fault Refusal := (ramYWindow s).toOutcome
def execBorder (s : State) : Host.Outcome State Fault Refusal := (border s).toOutcome
def execUpdateCtrl1 (s : State) : Host.Outcome State Fault Refusal := (updateCtrl1 s).toOutcome
def execTempSensor (s : State) : Host.Outcome State Fault Refusal := (tempSensor s).toOutcome
def execRamXCounter (s : State) : Host.Outcome State Fault Refusal := (ramXCounter s).toOutcome
def execRamYCounter (s : State) : Host.Outcome State Fault Refusal := (ramYCounter s).toOutcome
def execWriteRam (s : State) : Host.Outcome State Fault Refusal := (writeRam s).toOutcome
def execUpdateCtrl2 (s : State) : Host.Outcome State Fault Refusal := (updateCtrl2 s).toOutcome
def execActivate (s : State) : Host.Outcome State Fault Refusal := (activate s).toOutcome
def execDeepSleep (s : State) : Host.Outcome State Fault Refusal := (deepSleep s).toOutcome

end Sys2Proof.Machine
end

