-- ==== Sys2Proof/Machine/Sequencer.lean ====
section
/-! DEFINITION. The Controller State Machine's sequencer (spec/42_controller_operations.md): the step list of each host
operation, one step of it, and the run of the rest of a list. -/

namespace Sys2Proof.Machine

/-- One step of an operation's list. -/
inductive Item where
  /-- `setReset(l)` (R125) -/
  | setReset (high : Bool)
  /-- `Wait(t)` -/
  | wait (d : Delay)
  /-- `state <- Configuring` (R123) -/
  | startConfigure
  /-- a panel command, by its command byte -/
  | cmd (c : Byte)
  /-- `FillAllLight()` (R127) -/
  | fill
  /-- `state <- Busy ; ret <- Idle`, and the seed refresh is a full one (R123; log 11) -/
  | startSeed
  /-- the polling loop of `BusyWait()` (R131) -/
  | poll
  /-- `InitDone()` (R124) -/
  | initDone
  /-- `state <- ret ; active <- 0` (R128) -/
  | refreshDone
  /-- `poweredOn <- 0 ; active <- 0` (R133) -/
  | sleepDone
  deriving DecidableEq, Repr

/-! ## Step lists -/

/-- `ResetPulse()` (R125). -/
def resetPulse : List Item :=
  [.setReset true, .wait .tRst, .setReset false, .wait .tRst, .setReset true, .wait .tRst]

/-- `Configure()` (R126): nine frames in this order. -/
def configure : List Item :=
  [.cmd 0x01, .cmd 0x11, .cmd 0x44, .cmd 0x45, .cmd 0x3C, .cmd 0x21, .cmd 0x18, .cmd 0x4E, .cmd 0x4F]

/-- The counter frames of `RefreshSeq` (R129, first line). -/
def counterItems (c : Cfg) : List Item := if c.counterReset then [.cmd 0x4E, .cmd 0x4F] else []

/-- `RefreshSeq(full)` (R129); the argument of 0x22 is read from `cur_full`. -/
def refreshSeq (c : Cfg) : List Item :=
  counterItems c ++ [.cmd 0x24, .cmd 0x22, .cmd 0x20, .wait .tSettle, .poll]

/-- `InitSequence()` (R123), after its first assignment. -/
def initSequence (c : Cfg) : List Item :=
  resetPulse ++ [.startConfigure] ++ configure ++ [.fill, .startSeed] ++ refreshSeq c ++ [.initDone]

/-- The step list of an operation in progress. -/
def program (c : Cfg) : HostOp → List Item
  | .init => initSequence c
  | .wake => initSequence c
  | .refresh => refreshSeq c ++ [.refreshDone]
  | .sleep => [.cmd 0x10, .wait .tSleep, .sleepDone]

/-- The step list `seq` indexes (10_state.md R24). -/
def State.program (s : State) : List Item := Machine.program s.cfg s.curOp

/-! ## One step -/

/-- `seq` advances (R24). -/
def State.advance (s : State) : State := { s with seq := s.seq + 1 }

/-- One turn of the polling loop (R131): poll; leave on false; on true wait and poll again. -/
def pollOnce (s : State) : Res :=
  (readBusy s).bind fun t =>
  if s.busyAnswer then wait .tPoll t else .ok t.advance

/-- The polling loop over scheduled answers. Where they run out the transition stops, with the operation still in
progress at the same place: the busy-wait has no bound (R131, 70_reset_and_hazards.md R212). -/
def pollScheduled : List Bool → State → Res
  | [], s => .stop s
  | b :: bs, s => (pollOnce s).bind fun t => if b then pollScheduled bs t else .ok t

/-- `InitDone()` (R124), with the end of the operation (R120). That `seq`, `cur_op`, `cur_full`, `ret` and the working registers
keep their last values at rest is the model's choice, here and in the next two (93 U9; logs 10 and 29). -/
def initDone (s : State) : State :=
  State.pulseDone { s with initialized := true, poweredOn := true, ctl := .idle, active := false }

/-- The end of REFRESH (R128). What it leaves as it is, but for R128's own writes, is the model's choice (logs 10 and 29). -/
def refreshDone (s : State) : State := State.pulseDone { s with ctl := s.ret, active := false }

/-- The end of SLEEP (R133). What it leaves as it is, but for R133's own writes, is the model's choice (logs 10 and 29). -/
def sleepDone (s : State) : State := State.pulseDone { s with poweredOn := false, active := false }

/-- One step of the list, with `seq` moved past it. -/
def runItem (it : Item) (s : State) : Res :=
  match it with
  | .setReset high => setReset high s.advance
  | .wait d => wait d s.advance
  | .startConfigure => .ok { s.advance with ctl := .configuring }
  | .cmd c => issue c s.advance
  | .fill => fillAllLight s.advance
  | .startSeed => .ok { s.advance with ctl := .busy, ret := .idle, curFull := true }
  | .poll => pollScheduled s.busyIn s
  | .initDone => .ok (initDone s.advance)
  | .refreshDone => .ok (refreshDone s.advance)
  | .sleepDone => .ok (sleepDone s.advance)

/-- The host's late writes land, before a step (70_reset_and_hazards.md R207). -/
def State.land (it : Item) (s : State) : State := landStep (it == .fill) s

/-- The next step is the polling loop and no answer is scheduled: a transition ends before it (logs 3 and 6). -/
def State.awaits (it : Item) (s : State) : Bool := it == .poll && s.busyIn.isEmpty

/-- Run a list of steps in order (R120); a hardware reset wins over everything (60_exceptions.md R177). -/
def runItems : List Item → State → Res
  | [], s => .ok s
  | it :: rest, s =>
    if s.resetIn = some 0 then .stop (hardReset s)
    else if s.awaits it then .stop s
    else (runItem it (s.land it)).bind fun s => runItems rest s

/-- Run the rest of the operation in progress. -/
def runRest (s : State) : Res := runItems (s.program.drop s.seq) s

/-! ## One step of an operation that is already in progress, when a transition begins with it -/

/-- As `runItem`, but the polling loop takes one turn, with a free answer where none is scheduled. -/
def stepItem (it : Item) (s : State) : Res :=
  match it with
  | .poll => pollOnce s
  | it => runItem it s

end Sys2Proof.Machine
end

