-- ==== Sys2Proof/Machine/HostOps.lean ====
section
/-! DEFINITION. The four host operations and the reserved words (spec/42_controller_operations.md R122 to R137,
spec/30_encoding.md R76), at acceptance: the checks of 60_exceptions.md R177 in their order, then the operation. -/

namespace Sys2Proof.Machine

/-- A word presented while an operation is in progress is not accepted and not remembered (30 R71). -/
def whenReady (s : State) (accepted : State → Host.Outcome State Fault Refusal) : Host.Outcome State Fault Refusal :=
  if s.active then .next s else accepted s

/-- INIT or WAKE has been accepted with a valid geometry (R121, R122, R123 first line). -/
def beginInit (op : HostOp) (s : State) : State :=
  { s with active := true, opDone := false, raced := [], curOp := op, seq := 0, ctl := .resetting }

/-- REFRESH has been accepted past its gate (R128). -/
def beginRefresh (full : Bool) (s : State) : State :=
  { s with active := true, opDone := false, raced := [], curOp := .refresh, curFull := full, seq := 0, ret := s.ctl, ctl := .busy }

/-- SLEEP has been accepted past its gate (R133). -/
def beginSleep (s : State) : State :=
  { s with active := true, opDone := false, raced := [], curOp := .sleep, seq := 0, ctl := .sleeping }

/-- INIT and WAKE: the geometry check, then `InitSequence()` (R122, R136). -/
def initOp (op : HostOp) (s : State) : Host.Outcome State Fault Refusal :=
  whenReady s fun s =>
    if s.cfg.valid then (runRest (beginInit op s)).toOutcome else .next (geometryError s)

/-- The gate of REFRESH and SLEEP: `SKIP <- 1 ; done` while `initialized = 0` (R128, R133). -/
def gated (begun : State → State) (s : State) : Host.Outcome State Fault Refusal :=
  whenReady s fun s =>
    if s.initialized then (runRest (begun s)).toOutcome else .next (State.pulseDone (State.setSkip s))

/-- A reserved word: no event, `ILL <- 1`, complete at once (30 R76). -/
def reservedOp (s : State) : Host.Outcome State Fault Refusal :=
  whenReady s fun s => .next (State.pulseDone (State.setIll s))

/-! ## Meanings; the `F` bit is read by REFRESH only (30 R75) -/

/-- INIT (R122). -/
def execInit (_f : Bool) (s : State) : Host.Outcome State Fault Refusal := initOp .init s
/-- REFRESH (R128). -/
def execRefresh (f : Bool) (s : State) : Host.Outcome State Fault Refusal := gated (beginRefresh f) s
/-- SLEEP (R133). -/
def execSleep (_f : Bool) (s : State) : Host.Outcome State Fault Refusal := gated beginSleep s
/-- WAKE (R136): the same list as INIT. -/
def execWake (_f : Bool) (s : State) : Host.Outcome State Fault Refusal := initOp .wake s
/-- Reserved word, OP 000. -/
def execReserved0 (_f : Bool) (s : State) : Host.Outcome State Fault Refusal := reservedOp s
/-- Reserved word, OP 101. -/
def execReserved5 (_f : Bool) (s : State) : Host.Outcome State Fault Refusal := reservedOp s
/-- Reserved word, OP 110. -/
def execReserved6 (_f : Bool) (s : State) : Host.Outcome State Fault Refusal := reservedOp s
/-- Reserved word, OP 111. -/
def execReserved7 (_f : Bool) (s : State) : Host.Outcome State Fault Refusal := reservedOp s

end Sys2Proof.Machine
end

