-- ==== Sys2Proof/Machine/Dispatch.lean ====
section
/-! DEFINITION. One arm per constructor of Instr, each a direct call of the instruction's meaning. -/

namespace Sys2Proof.Machine

def exec (i : Instr) (s : State) : Host.Outcome State Fault Refusal :=
  match i with
  | .init f => Sys2Proof.Machine.execInit f s
  | .refresh f => Sys2Proof.Machine.execRefresh f s
  | .sleep f => Sys2Proof.Machine.execSleep f s
  | .wake f => Sys2Proof.Machine.execWake f s
  | .reserved0 f => Sys2Proof.Machine.execReserved0 f s
  | .reserved5 f => Sys2Proof.Machine.execReserved5 f s
  | .reserved6 f => Sys2Proof.Machine.execReserved6 f s
  | .reserved7 f => Sys2Proof.Machine.execReserved7 f s
  | .driverOutput => Sys2Proof.Machine.execDriverOutput s
  | .dataEntry => Sys2Proof.Machine.execDataEntry s
  | .ramXWindow => Sys2Proof.Machine.execRamXWindow s
  | .ramYWindow => Sys2Proof.Machine.execRamYWindow s
  | .border => Sys2Proof.Machine.execBorder s
  | .updateCtrl1 => Sys2Proof.Machine.execUpdateCtrl1 s
  | .tempSensor => Sys2Proof.Machine.execTempSensor s
  | .ramXCounter => Sys2Proof.Machine.execRamXCounter s
  | .ramYCounter => Sys2Proof.Machine.execRamYCounter s
  | .writeRam => Sys2Proof.Machine.execWriteRam s
  | .updateCtrl2 => Sys2Proof.Machine.execUpdateCtrl2 s
  | .activate => Sys2Proof.Machine.execActivate s
  | .deepSleep => Sys2Proof.Machine.execDeepSleep s

end Sys2Proof.Machine
end

