-- ==== Sys2Proof/Machine/Fetch.lean ====
section
/-! DEFINITION. What the next step runs: the next item of the operation in progress, or the host's next action; and
placing an instruction where it will be fetched. -/

namespace Sys2Proof.Machine

/-- The item at the sequencer's position (10_state.md R24). -/
def State.nextItem (s : State) : Option Item := s.program[s.seq]?

/-- `op_done` lasts one step (30_encoding.md R71; log 12). -/
def State.clearDone (s : State) : State := { s with opDone := false }

/-- A host action that is no operation word (R83). -/
def hostAct (a : HostAction) (s : State) : Res :=
  match a with
  | .op _ => .ok s
  | .fbWrite a v => hostWrite a v s
  | .fbFill v => .ok (hostFill v s)
  | .reset => .ok (hardReset s)
  | .during ws => hostDuring ws s

/-- The operation whose step list issues a command byte (41_panel_commands.md, "Emitted by"). -/
def issuer (c : Byte) : HostOp :=
  if c = 0x10 then .sleep
  else if c = 0x24 ∨ c = 0x22 ∨ c = 0x20 then .refresh
  else .init

/-- `s` with the host about to have operation word `w` accepted. -/
def State.withHostWord (s : State) (w : OpWord) : State :=
  { s with active := false, host := .op w :: s.host, resetIn := none }

/-- `s` with the sequencer about to issue the panel command `c`: its issuing operation in progress, `seq` at the command
(log 14). -/
def State.withPanelCommand (s : State) (c : Byte) : State :=
  { s with
    active := true, curOp := issuer c, resetIn := none
    seq := (Machine.program s.cfg (issuer c)).idxOf (.cmd c) }

/-- `s` with the instruction of a table word where the next step fetches it. -/
def State.placeWord (s : State) (nbits w : Nat) : State :=
  match tableFormat nbits w with
  | .host4 => s.withHostWord (BitVec.ofNat 4 w)
  | .wire8 => s.withPanelCommand (BitVec.ofNat 8 w)

end Sys2Proof.Machine
end

