-- ==== Sys2Proof/Machine/Cycle.lean ====
section
/-! DEFINITION. One transition of the block. While an operation is in progress: the next item of its list, a panel command
being decoded and executed. Otherwise the host's next action, an operation word being decoded and executed; with
none, the block waits. A hardware reset wins over everything (spec/60_exceptions.md R177). -/

namespace Sys2Proof.Machine

/-- A step while an operation is in progress. -/
def stepActive (s : State) : Host.Outcome State Fault Refusal :=
  match s.nextItem with
  | none => .fault (.seqOutOfRange s.seq)
  | some (.cmd c) =>
    match decodeWire c with
    | .ok i => exec i (s.land (.cmd c)).advance
    | .error _ => .refused (.notAPanelCommand c)
  | some it => (stepItem it (s.land it)).toOutcome

/-- A step while the block accepts. -/
def stepReady (s : State) : Host.Outcome State Fault Refusal :=
  match s.host with
  | [] => .next s
  | .op w :: rest => exec (decodeHost w) { s with host := rest }
  | a :: rest => (hostAct a { s with host := rest }).toOutcome

/-- The transition from any state. -/
def cycle (s : State) : Host.Outcome State Fault Refusal :=
  if s.resetIn = some 0 then .next (hardReset s)
  else if s.active then stepActive s.clearDone
  else stepReady s.clearDone

end Sys2Proof.Machine
end

