-- ==== Sys2Proof/Machine/Pins.lean ====
section
/-! DEFINITION. The pin-level rendering of the abstract signals (spec/30_encoding.md R82), by the parameters of `cfg.pins`;
and the signals of the operation port (R71). -/

namespace Sys2Proof

/-- What `readBusy()` answers for a level of the busy pin. -/
def PinCfg.busyOfPin (p : PinCfg) (level : Bool) : Bool := level == p.busyHighIsBusy

/-- The idle level of the clock. -/
def PinCfg.clockIdle (p : PinCfg) : Bool := !p.clockIdlesLow

/-- The bits of a byte in the order they leave. -/
def PinCfg.bits (p : PinCfg) (b : Byte) : List Bool :=
  if p.msbFirst then (List.range 8).map (fun i => b.getLsbD (7 - i)) else (List.range 8).map (fun i => b.getLsbD i)

/-- One clock pulse: the (clock, data) levels of its two halves. Where the valid edge is the one that leaves idle,
the data is set up before it; else it is set at that edge and valid at the return. -/
def PinCfg.pulse (p : PinCfg) (bit : Bool) : List (Bool × Bool) :=
  if p.validOnRising = p.clockIdlesLow then [(p.clockIdle, bit), (!p.clockIdle, bit)]
  else [(!p.clockIdle, bit), (p.clockIdle, bit)]

/-- The (clock, data) levels of `writeBytes(bs)`: eight pulses a byte, the bytes in sequence order
(20_memory.md R51). -/
def PinCfg.waveform (p : PinCfg) (bs : List Byte) : List (Bool × Bool) :=
  bs.flatMap fun b => (p.bits b).flatMap p.pulse

end Sys2Proof

namespace Sys2Proof.Machine

/-- The level of the chip-select pin. -/
def State.pinSelect (s : State) : Bool := s.sel != s.cfg.pins.csActiveLow

/-- The level of the data/command pin. -/
def State.pinDataCommand (s : State) : Bool := (s.mode == .cmd) != s.cfg.pins.dcLowIsCommand

/-- The level of the panel reset pin. -/
def State.pinReset (s : State) : Bool := s.rstl == s.cfg.pins.resetHighIsHigh

/-- `op_valid`: the host's next action presents a word. -/
def State.opValid (s : State) : Bool :=
  match s.host with
  | .op _ :: _ => true
  | _ => false

/-- `op_word[3:0]` (0 while `op_valid = 0`). -/
def State.opWord (s : State) : OpWord :=
  match s.host with
  | .op w :: _ => w
  | _ => 0

end Sys2Proof.Machine
end

