-- ==== Sys2Proof/Machine/Trace.lean ====
section
/-! DEFINITION. What is read off a trace: the stream on the wire (spec/00_scope.md R11), the command bytes, and the least
duration (spec/70_reset_and_hazards.md R220). -/

namespace Sys2Proof.Machine

/-- The stream of a trace that begins with the select in mode `m`: one pair per byte of every `wr` (R11). -/
def streamFrom : Mode → List Event → List (Mode × Byte)
  | _, [] => []
  | _, .mode m' :: es => streamFrom m' es
  | m, .wr bs :: es => bs.map (fun b => (m, b)) ++ streamFrom m es
  | m, .sel _ :: es => streamFrom m es
  | m, .rst _ :: es => streamFrom m es
  | m, .busy _ :: es => streamFrom m es
  | m, .wait _ :: es => streamFrom m es
  | m, .fbWr _ _ :: es => streamFrom m es

/-- The stream of a trace. Before any `mode` event the select is in C, its reset value (10_state.md R46). -/
def stream (es : List Event) : List (Mode × Byte) := streamFrom .cmd es

/-- The bytes of a stream sent in command mode. -/
def commandBytes (es : List Event) : List Byte :=
  (stream es).filterMap fun p => if p.1 = .cmd then some p.2 else none

/-- The bytes of a stream sent in data mode. -/
def dataBytes (es : List Event) : List Byte :=
  (stream es).filterMap fun p => if p.1 = .data then some p.2 else none

/-- The least time one event takes, in ms: only `wait` has a bound (60_exceptions.md R186). -/
def Event.minMs : Event → Nat
  | .wait t => t
  | _ => 0

/-- The least duration of a trace, in ms (R220). -/
def minDuration (es : List Event) : Nat := (es.map Event.minMs).sum

/-- The events a transport primitive appends (40_command_channel.md R90). -/
def Event.isPrimitive : Event → Bool
  | .sel _ => true
  | .mode _ => true
  | .rst _ => true
  | .wr _ => true
  | .busy _ => true
  | .wait _ => false
  | .fbWr _ _ => false

/-- The select level after a list of events (10_state.md R34). -/
def selAfter : Bool → List Event → Bool
  | b, [] => b
  | _, .sel b' :: es => selAfter b' es
  | b, _ :: es => selAfter b es

/-- The mode after a list of events. -/
def modeAfter : Mode → List Event → Mode
  | m, [] => m
  | _, .mode m' :: es => modeAfter m' es
  | m, _ :: es => modeAfter m es

/-- The panel reset level after a list of events. -/
def rstAfter : Bool → List Event → Bool
  | l, [] => l
  | _, .rst l' :: es => rstAfter l' es
  | l, _ :: es => rstAfter l es

end Sys2Proof.Machine
end

