-- ==== Sys2Proof/Safety.lean ====
section
/-! DEFINITION. The terms the claims use: the event lists the spec writes out for each sequence, when an operation runs
undisturbed, and the invariant of the block. -/

namespace Sys2Proof.Machine

/-! ## Event lists, as the spec writes them -/

/-- `sendCommand(c)` (spec/40_command_channel.md R91). -/
def cmdEvents (c : Byte) : List Event := [.sel true, .mode .cmd, .wr [c], .sel false]

/-- `sendData(bs)`, `bs` non-empty (R92). -/
def dataEvents (bs : List Byte) : List Event := [.sel true, .mode .data, .wr bs, .sel false]

/-- `Frame(c, args)` (R94): 8 events, or 4 where the argument is empty. -/
def frameEvents (c : Byte) (args : List Byte) : List Event :=
  cmdEvents c ++ (if args = [] then [] else dataEvents args)

/-- `ResetPulse()` (spec/42_controller_operations.md R125). -/
def resetPulseEvents (c : Cfg) : List Event :=
  [.rst true, .wait c.tRst, .rst false, .wait c.tRst, .rst true, .wait c.tRst]

/-- `Configure()` (R126). -/
def configureEvents (c : Cfg) : List Event :=
  frameEvents 0x01 c.argDriverOutput ++ frameEvents 0x11 c.argDataEntry ++ frameEvents 0x44 c.argRamXWindow
    ++ frameEvents 0x45 c.argRamYWindow ++ frameEvents 0x3C c.argBorder ++ frameEvents 0x21 c.argUpdateCtrl1
    ++ frameEvents 0x18 c.argTempSensor ++ frameEvents 0x4E c.argRamXCounter ++ frameEvents 0x4F c.argRamYCounter

/-- `FillAllLight()` (R127). -/
def fillEvents (c : Cfg) : List Event := (List.range c.numBytes).map fun a => .fbWr a 0xFF

/-- The bytes of the data loop (R130): `OutByte(0) .. OutByte(N-1)`, with `SrcIndex` in the closed form of
43_scan_order_mapper.md R152, R153. -/
def outBytes (c : Cfg) (byteAt : Nat → Byte) : List Byte := (List.range c.numBytes).map (outByte c byteAt)

/-- `DataLoop()` (R130). -/
def dataLoopEvents (c : Cfg) (byteAt : Nat → Byte) : List Event :=
  match c.ramFraming with
  | .perByte => (outBytes c byteAt).flatMap fun b => dataEvents [b]
  | .burst => if c.numBytes = 0 then [] else dataEvents (outBytes c byteAt)

/-- The polling of `BusyWait()` while the answers are true `p` times (R131). -/
def pollEvents (c : Cfg) (p : Nat) : List Event := (List.replicate p [Event.busy true, .wait c.tPoll]).flatten

/-- `BusyWait()` that reads true `p` times and then false (R131). -/
def busyWaitEvents (c : Cfg) (p : Nat) : List Event := .wait c.tSettle :: pollEvents c p ++ [.busy false]

/-- `RefreshSeq(full)` before its busy-wait (R129). -/
def refreshCommandEvents (c : Cfg) (byteAt : Nat → Byte) (full : Bool) : List Event :=
  (if c.counterReset then frameEvents 0x4E c.argRamXCounter ++ frameEvents 0x4F c.argRamYCounter else [])
    ++ cmdEvents 0x24 ++ dataLoopEvents c byteAt ++ frameEvents 0x22 [if full then 0xF7 else 0xFF] ++ cmdEvents 0x20

/-- `RefreshSeq(full)` (R129). -/
def refreshEvents (c : Cfg) (byteAt : Nat → Byte) (full : Bool) (p : Nat) : List Event :=
  refreshCommandEvents c byteAt full ++ busyWaitEvents c p

/-- `InitSequence()` (R123): the seed refresh sends the filled framebuffer. -/
def initEvents (c : Cfg) (p : Nat) : List Event :=
  resetPulseEvents c ++ configureEvents c ++ fillEvents c ++ refreshEvents c (fun _ => 0xFF) true p

/-- `SleepSeq()` (R134). -/
def sleepEvents (c : Cfg) : List Event := frameEvents 0x10 [0x01] ++ [.wait c.tSleep]

/-- The frame of each panel command (spec/41_panel_commands.md R101 to R113), for a block in state `s`; the host words
emit nothing by themselves. -/
def panelEvents (i : Instr) (s : State) : List Event :=
  match i with
  | .driverOutput => frameEvents 0x01 s.cfg.argDriverOutput
  | .dataEntry => frameEvents 0x11 s.cfg.argDataEntry
  | .ramXWindow => frameEvents 0x44 s.cfg.argRamXWindow
  | .ramYWindow => frameEvents 0x45 s.cfg.argRamYWindow
  | .border => frameEvents 0x3C s.cfg.argBorder
  | .updateCtrl1 => frameEvents 0x21 s.cfg.argUpdateCtrl1
  | .tempSensor => frameEvents 0x18 s.cfg.argTempSensor
  | .ramXCounter => frameEvents 0x4E s.cfg.argRamXCounter
  | .ramYCounter => frameEvents 0x4F s.cfg.argRamYCounter
  | .writeRam => cmdEvents 0x24 ++ dataLoopEvents s.cfg s.readByte
  | .updateCtrl2 => frameEvents 0x22 [if s.curFull then 0xF7 else 0xFF]
  | .activate => cmdEvents 0x20
  | .deepSleep => frameEvents 0x10 [0x01]
  | .init _ => []
  | .refresh _ => []
  | .sleep _ => []
  | .wake _ => []
  | .reserved0 _ => []
  | .reserved5 _ => []
  | .reserved6 _ => []
  | .reserved7 _ => []

/-- The events that come before the transport primitive that fails after `j` primitives have succeeded
(spec/60_exceptions.md R172, R178). -/
def cutAtPrimitive : Nat → List Event → List Event
  | _, [] => []
  | j, e :: es =>
    if e.isPrimitive then
      match j with
      | 0 => []
      | j + 1 => e :: cutAtPrimitive j es
    else e :: cutAtPrimitive j es

/-- How many transport primitives a list of events holds. -/
def primitiveCount (es : List Event) : Nat := es.countP Event.isPrimitive

/-! ## Undisturbed operation -/

/-- No hardware reset is on its way and no transport failure is reported. -/
abbrev State.Undisturbed (s : State) : Prop :=
  s.resetIn = none ∧ (s.cfg.hasTxErr = false ∨ s.txFail = [])

/-- The host keeps its duty not to write the framebuffer while an operation is in progress (70_reset_and_hazards.md R207). -/
abbrev State.HostKeepsOff (s : State) : Prop := s.late = []

/-- The next answers of the busy input are `p` times true and then false, and then `rest` is scheduled. -/
abbrev State.PanelSettles (s : State) (p : Nat) (rest : List Bool) : Prop :=
  s.busyIn = List.replicate p true ++ false :: rest

/-! ## What an operation leaves alone -/

/-- The sticky flags, the configuration, and the inputs that no operation reads. -/
abbrev State.SameRecord (s t : State) : Prop :=
  t.cfg = s.cfg ∧ t.skip = s.skip ∧ t.err = s.err ∧ t.ill = s.ill ∧ t.cause = s.cause ∧ t.host = s.host ∧
    t.txFail = s.txFail ∧ t.resetIn = s.resetIn ∧ t.busyDraws = s.busyDraws ∧ t.late = s.late ∧ t.races = s.races

/-- Every byte of the framebuffer is as before: what has been written at each address, and so what it reads as. -/
def State.SameMemory (s t : State) : Prop :=
  ∀ a, t.fb.written a = s.fb.written a ∧ t.fb.byteAt a = s.fb.byteAt a

/-! ## What ends an operation early -/

/-- The record of a TransportError (spec/60_exceptions.md R172). -/
abbrev State.TransportErrorTaken (t : State) : Prop :=
  t.err = true ∧ t.cause = 1 ∧ t.initialized = false ∧ t.poweredOn = false ∧ t.ctl = .uninitialized ∧
    t.active = false ∧ t.opDone = true

/-- The values the spec gives the block at a hardware reset (spec/10_state.md R46), without `op_done` (R195). -/
abbrev State.HardwareResetValues (t : State) : Prop :=
  t.ctl = .uninitialized ∧ t.initialized = false ∧ t.poweredOn = false ∧ t.active = false ∧ t.skip = false ∧
    t.err = false ∧ t.ill = false ∧ t.cause = 0 ∧ t.sel = false ∧ t.mode = .cmd ∧ t.rstl = false ∧ t.opDone = false

/-- The levels of `sel`, `mode`, `rstl` are those the events left (spec/10_state.md R34: each holds its value between
writes). -/
abbrev State.PinsFollow (s t : State) (es : List Event) : Prop :=
  t.sel = selAfter s.sel es ∧ t.mode = modeAfter s.mode es ∧ t.rstl = rstAfter s.rstl es

/-! ## The whole operations -/

/-- The events of a whole operation accepted in state `s`, with `p` busy answers that are true. -/
def operationEvents (i : Instr) (s : State) (p : Nat) : List Event :=
  match i with
  | .init _ => initEvents s.cfg p
  | .wake _ => initEvents s.cfg p
  | .refresh f => refreshEvents s.cfg s.fb.byteAt f p
  | .sleep _ => sleepEvents s.cfg
  | _ => []

/-- The word is accepted in `s` and starts its sequence: nothing is in progress, INIT and WAKE have a valid geometry
(R122, R136), REFRESH and SLEEP pass the gate (R128, R133). A block with an invalid geometry never passes the gate
(60_exceptions.md R173); REFRESH says so here, since its data loop reads the geometry. -/
def startsSequence (i : Instr) (s : State) : Prop :=
  s.active = false ∧
    match i with
    | .init _ => s.cfg.valid = true
    | .wake _ => s.cfg.valid = true
    | .refresh _ => s.initialized = true ∧ s.cfg.valid = true
    | .sleep _ => s.initialized = true
    | _ => False

/-- A panel command has sent `es` and left the select in mode `m`: of the block's state only `sel`, `mode`, `ai` are written
(spec/41_panel_commands.md R100). -/
abbrev State.sent (s : State) (es : List Event) (m : Mode) (a : Nat) : State :=
  { s with trace := s.trace ++ es, sel := false, mode := m, ai := a }

/-- The mode a frame leaves: that of its last `sendCommand` or `sendData`. -/
abbrev frameMode (args : List Byte) : Mode := if args = [] then .cmd else .data

/-! ## The invariant -/

/-- The framebuffer and the record of late writes are in canonical form, and they and the late writes still to come name only
addresses that exist. -/
abbrev State.MemoryOk (s : State) : Prop :=
  (s.fb.wf ∧ ∀ c ∈ s.fb, c.1 < s.cfg.numBytes) ∧ (s.raced.wf ∧ ∀ c ∈ s.raced, c.1 < s.cfg.numBytes) ∧
    ∀ w ∈ s.late, w.addr < s.cfg.numBytes

/-- While INIT or WAKE is in progress: where `seq` stands in `InitSequence()` and what holds there. -/
abbrev State.InitPosition (s : State) : Prop :=
  s.cfg.valid = true ∧
    ((s.seq ≤ 6 ∧ s.ctl = .resetting ∧ (5 ≤ s.seq → s.rstl = true)) ∨
      (7 ≤ s.seq ∧ s.seq ≤ 17 ∧ s.ctl = .configuring ∧ s.rstl = true ∧ (8 ≤ s.seq → s.sel = false) ∧
        (s.seq = 17 → s.fb.filled s.cfg.numBytes)) ∨
      (18 ≤ s.seq ∧ s.seq < (initSequence s.cfg).length ∧ s.ctl = .busy ∧ s.ret = .idle ∧ s.rstl = true ∧ s.sel = false ∧
        s.curFull = true ∧ s.fb.filled s.cfg.numBytes))

/-- While REFRESH is in progress. -/
abbrev State.RefreshPosition (s : State) : Prop :=
  s.ctl = .busy ∧ s.initialized = true ∧ s.seq < (Machine.program s.cfg .refresh).length ∧ s.rstl = true ∧ s.sel = false ∧
    ((s.ret = .idle ∧ s.poweredOn = true) ∨ (s.ret = .sleeping ∧ s.poweredOn = false))

/-- While SLEEP is in progress. -/
abbrev State.SleepPosition (s : State) : Prop :=
  s.ctl = .sleeping ∧ s.initialized = true ∧ s.seq < (Machine.program s.cfg .sleep).length ∧ s.rstl = true ∧ s.sel = false

/-- At rest (spec/42_controller_operations.md R121). -/
abbrev State.AtRest (s : State) : Prop :=
  (s.ctl = .uninitialized ∧ s.initialized = false) ∨
    (s.ctl = .idle ∧ s.initialized = true ∧ s.poweredOn = true ∧ s.rstl = true ∧ s.sel = false) ∨
    (s.ctl = .sleeping ∧ s.initialized = true ∧ s.poweredOn = false ∧ s.rstl = true ∧ s.sel = false)

/-- The invariant of the block: R121's invariants on `state`, `initialized` and `poweredOn`, R27's on `active`, the range
of `seq` (10_state.md R24), the filled framebuffer behind `initialized` (20_memory.md R52), and the memory's form. -/
def State.Inv (s : State) : Prop :=
  s.MemoryOk ∧
    (s.initialized = true → s.cfg.valid = true ∧ s.fb.filled s.cfg.numBytes) ∧
    (s.poweredOn = true → s.initialized = true) ∧
    (s.active = false → s.AtRest) ∧
    (s.active = true →
      match s.curOp with
      | .init => s.InitPosition
      | .wake => s.InitPosition
      | .refresh => s.RefreshPosition
      | .sleep => s.SleepPosition)

/-- Every command byte on the stream is one of the thirteen (spec/41_panel_commands.md R114). -/
abbrev State.OnlyPanelCommands (s : State) : Prop := ∀ c ∈ commandBytes s.trace, c ∈ panelCodes

end Sys2Proof.Machine
end

