-- ==== Sys2Proof/Certificates/Slice0/Obligations.lean ====
section
/-! DEFINITION. The statements for the provers, file by file of the spec. -/

open Sys2Proof Sys2Proof.Machine

/-! ## Encoding and fetch (spec/30_encoding.md) -/

/-- Words written out from the tables of R74, R75, R76 and R78. -/
def Obligations.WordsDecodeAsTabulated : Prop :=
  decodeHost 0b0001#4 = .init false ∧ decodeHost 0b1001#4 = .init true ∧
  decodeHost 0b0010#4 = .refresh false ∧ decodeHost 0b1010#4 = .refresh true ∧
  decodeHost 0b0011#4 = .sleep false ∧ decodeHost 0b1100#4 = .wake true ∧
  decodeHost 0b0000#4 = .reserved0 false ∧ decodeHost 0b1101#4 = .reserved5 true ∧
  decodeHost 0b0110#4 = .reserved6 false ∧ decodeHost 0b1111#4 = .reserved7 true ∧
  decodeWire 0b00000001#8 = .ok .driverOutput ∧ decodeWire 0b00010001#8 = .ok .dataEntry ∧
  decodeWire 0b01000100#8 = .ok .ramXWindow ∧ decodeWire 0b01000101#8 = .ok .ramYWindow ∧
  decodeWire 0b00100100#8 = .ok .writeRam ∧ decodeWire 0b00100010#8 = .ok .updateCtrl2 ∧
  decodeWire 0b00010000#8 = .ok .deepSleep ∧ decodeWire 0b00010010#8 = .error (.neverEmitted 0x12)

/-- Every instruction decodes from its own word on its own interface, with its operand. -/
def Obligations.DecodeOfEncodeIsTheInstruction : Prop :=
  ∀ (i : Instr) (fmt : Format), i.wellFormedOn fmt = true → decodeOn fmt (encode i) = some i

/-- R78, R80: the wire decoder knows the 13 bytes of the table and no other, each for one command, and every host word is
the word of the instruction it decodes to. -/
def Obligations.DecodersCoverExactlyTheTables : Prop :=
  (∀ b : Byte, (∃ i, decodeWire b = .ok i) ↔ b ∈ panelCodes) ∧
  (∀ (b : Byte) (i : Instr), decodeWire b = .ok i → encode i = b) ∧
  (∀ w : OpWord, encode (decodeHost w) = w.setWidth 8)

/-- An accepted operation word is decoded and executed (R71, R72); the step takes the word off the script and ends the
`op_done` pulse (the script and the pulse's length are the model's choice, logs 2 and 12). -/
def Obligations.StepExecutesTheAcceptedWord : Prop :=
  ∀ (s : State) (w : OpWord) (rest : List HostAction),
    s.active = false → s.resetIn ≠ some 0 → s.host = .op w :: rest →
    step s = exec (decodeHost w) { s with host := rest, opDone := false }

/-- A command byte at the sequencer's position is decoded and executed, with `seq` moved past it (that a step runs one item is the
model's choice, logs 6 and 14), after the host's late writes of that position (log 28), if there are any. -/
def Obligations.StepExecutesTheIssuedCommand : Prop :=
  ∀ (s : State) (c : Byte) (i : Instr),
    s.active = true → s.resetIn ≠ some 0 → s.program[s.seq]? = some (.cmd c) → decodeWire c = .ok i →
    step s = exec i { s.land (.cmd c) with seq := s.seq + 1, opDone := false } ∧
    ((∀ w ∈ s.late, w.seq ≠ s.seq) → step s = exec i { s with seq := s.seq + 1, opDone := false })

/-- R71: a word presented while an operation is in progress is not accepted: whatever the step does, the script of the
host (log 2) is kept whole. That `exec` of a host word then answers the same state is the model's choice, log 17. -/
def Obligations.NoWordIsAcceptedWhileActive : Prop :=
  (∀ s t : State, s.active = true → step s = .next t → t.host = s.host) ∧
  (∀ (i : Instr) (s : State), i.wellFormedOn .host4 = true → s.active = true → exec i s = .next s)

/-- R75: the `F` bit of INIT, SLEEP and WAKE is ignored: their words match under mask 0b0111. -/
def Obligations.FBitIsIgnoredByInitSleepWake : Prop :=
  (∀ (f : Bool) (s : State),
    exec (.init f) s = exec (.init false) s ∧ exec (.sleep f) s = exec (.sleep false) s ∧
    exec (.wake f) s = exec (.wake false) s) ∧
  (∀ w : OpWord, (w &&& 0b0111 = 0b0001 ↔ ∃ f, decodeHost w = .init f) ∧
    (w &&& 0b0111 = 0b0011 ↔ ∃ f, decodeHost w = .sleep f) ∧ (w &&& 0b0111 = 0b0100 ↔ ∃ f, decodeHost w = .wake f))

/-- R76: a word whose `OP` is 0b000, 0b101, 0b110 or 0b111, when accepted, completes at once with `ILL <- 1`, produces no event and
changes nothing else. -/
def Obligations.ReservedWordsSetIllAndNothingElse : Prop :=
  ∀ (f : Bool) (s : State), s.active = false →
    (∀ w : OpWord, (w.toNat % 8 = 0b000 ∨ w.toNat % 8 = 0b101 ∨ w.toNat % 8 = 0b110 ∨ w.toNat % 8 = 0b111) →
      exec (decodeHost w) s = .next { s with ill := true, opDone := true }) ∧
    exec (.reserved0 f) s = .next { s with ill := true, opDone := true } ∧
    exec (.reserved5 f) s = .next { s with ill := true, opDone := true } ∧
    exec (.reserved6 f) s = .next { s with ill := true, opDone := true } ∧
    exec (.reserved7 f) s = .next { s with ill := true, opDone := true }

/-- The host's own actions while the block accepts: a framebuffer write changes that byte alone and makes no event of the
block (20_memory.md R57), a write outside `0 .. N-1` faults (the model's choice, log 20), and with nothing to do the block waits. The
script itself is the model's choice, log 2, and so is the form of the writes to come during operations, log 28. That such a step ends
the `op_done` pulse is log 12; that `N`, where the fill stops and the fault starts, rounds down for an invalid geometry is log 26; that
the registers which are don't-care at rest stay as they are is logs 10 and 29. -/
def Obligations.HostActionsOutsideOperations : Prop :=
  ∀ (s : State) (rest : List HostAction), s.active = false → s.resetIn ≠ some 0 →
    (∀ a v, s.host = .fbWrite a v :: rest → a < s.cfg.numBytes →
      ∃ m, step s = .next { s with host := rest, opDone := false, fb := m } ∧
        m.written a = some v ∧ ∀ b, b ≠ a → m.written b = s.fb.written b) ∧
    (∀ a v, s.host = .fbWrite a v :: rest → s.cfg.numBytes ≤ a → step s = .fault (.fbAddress a)) ∧
    (∀ ws, s.host = .during ws :: rest → (∀ w ∈ ws, w.addr < s.cfg.numBytes) →
      step s = .next { s with host := rest, opDone := false, late := ws }) ∧
    (∀ ws, s.host = .during ws :: rest → (∃ w ∈ ws, s.cfg.numBytes ≤ w.addr) →
      ∃ w ∈ ws, s.cfg.numBytes ≤ w.addr ∧ step s = .fault (.fbAddress w.addr)) ∧
    (∀ v, s.host = .fbFill v :: rest →
      ∃ m, step s = .next { s with host := rest, opDone := false, fb := m } ∧
        ∀ b, m.written b = if b < s.cfg.numBytes then some v else s.fb.written b) ∧
    (s.host = [] → step s = .next { s with opDone := false })

/-! ## Reset and status (spec/10_state.md, spec/70_reset_and_hazards.md) -/

/-- R46, R195, R197: from any state a hardware reset (the script's, or the input asserted at once) gives the reset values
and keeps the framebuffer, `cfg` and the trace, to which it adds no event. -/
def Obligations.HardwareResetGivesTheResetValues : Prop :=
  State.reset.HardwareResetValues ∧
  ∀ s : State, (s.resetIn = some 0 ∨ (s.active = false ∧ ∃ rest, s.host = .reset :: rest)) →
    ∃ t, step s = .next t ∧ t.HardwareResetValues ∧ t.fb = s.fb ∧ t.cfg = s.cfg ∧ t.trace = s.trace

/-- R32: the layout of the status byte; R25, D8: the state codes. -/
def Obligations.StatusByteLayout : Prop :=
  (∀ s : State,
    s.status.getLsbD 0 = s.initialized ∧ s.status.getLsbD 1 = s.poweredOn ∧ s.status.getLsbD 2 = s.active ∧
    s.status.getLsbD 3 = s.skip ∧ s.status.getLsbD 4 = s.err ∧ s.status.getLsbD 5 = s.ill ∧
    s.status.extractLsb' 6 2 = s.cause) ∧
  Ctl.uninitialized.code = 0 ∧ Ctl.resetting.code = 1 ∧ Ctl.configuring.code = 2 ∧ Ctl.idle.code = 3 ∧
  Ctl.busy.code = 4 ∧ Ctl.sleeping.code = 5

/-- R82 with the default parameters (PRESUMED, log 13): select active low, data/command low for command, the reset pin equal to `rstl`, busy
high means busy, and for each byte bit 7 first, 8 pulses, data set while the clock is low and valid as it rises. -/
def Obligations.DefaultPinRendering : Prop :=
  (∀ s : State, s.cfg.pins = {} →
    s.pinSelect = !s.sel ∧ (s.pinDataCommand = true ↔ s.mode = .data) ∧ s.pinReset = s.rstl) ∧
  (∀ level : Bool, PinCfg.busyOfPin {} level = level) ∧ PinCfg.clockIdle {} = false ∧
  (∀ b : Byte, PinCfg.waveform {} [b] =
    [(false, b.getLsbD 7), (true, b.getLsbD 7), (false, b.getLsbD 6), (true, b.getLsbD 6),
     (false, b.getLsbD 5), (true, b.getLsbD 5), (false, b.getLsbD 4), (true, b.getLsbD 4),
     (false, b.getLsbD 3), (true, b.getLsbD 3), (false, b.getLsbD 2), (true, b.getLsbD 2),
     (false, b.getLsbD 1), (true, b.getLsbD 1), (false, b.getLsbD 0), (true, b.getLsbD 0)])

/-! ## Framebuffer memory (spec/20_memory.md) -/

/-- R52, R53: a write replaces the byte at its address, every other address keeps its byte, and the canonical form is kept,
so that contents and lists agree (the form is the model's choice, log 9). -/
def Obligations.MemoryWriteThenRead : Prop :=
  ∀ (m : Memory) (a : Nat) (v : Byte),
    (∀ b, (m.write a v).written b = if b = a then some v else m.written b) ∧
    (m.wf → (m.write a v).wf ∧ ∀ m' : Memory, m'.wf → (∀ b, m'.written b = m.written b) → m' = m)

/-- R39, R53, R127: in a step that is no framebuffer write of the host, a byte of the framebuffer changes only where the
block's fill writes 0xFF to it, and that write is on the trace, or where the host writes it during the operation, and then it holds
a byte the host writes there (R57, R207, log 28). -/
def Obligations.OnlyTheFillWritesTheFramebuffer : Prop :=
  ∀ s t : State, step s = .next t →
    (s.active = false → ∀ rest, (∀ a v, s.host ≠ .fbWrite a v :: rest) ∧ (∀ v, s.host ≠ .fbFill v :: rest)) →
    ∀ a, t.fb.written a = s.fb.written a ∨
      (t.fb.written a = some 0xFF ∧ Event.fbWr a 0xFF ∈ t.trace.drop s.trace.length) ∨
      ∃ w ∈ s.late, w.addr = a ∧ t.fb.written a = some w.val

/-! ## Command Channel (spec/40_command_channel.md) -/

/-- R91: `sendCommand` appends its four events and leaves the panel deselected in command mode; where its primitive `j`
fails, the events before it stand, the rest is not executed, and the TransportError is taken. -/
def Obligations.SendCommandContract : Prop :=
  ∀ (c : Byte) (s : State),
    (s.Undisturbed →
      sendCommand c s = .ok { s with trace := s.trace ++ [.sel true, .mode .cmd, .wr [c], .sel false], sel := false,
                                     mode := .cmd }) ∧
    (∀ j rest, s.resetIn = none → s.cfg.hasTxErr = true → s.txFail = j :: rest → j < 4 →
      ∃ t, sendCommand c s = .stop t ∧
        t.trace = s.trace ++ [.sel true, .mode .cmd, .wr [c], .sel false].take j ∧ t.TransportErrorTaken)

/-- R92: the same of `sendData`, the whole sequence under one select assertion. -/
def Obligations.SendDataContract : Prop :=
  ∀ (bs : List Byte) (s : State), bs ≠ [] →
    (s.Undisturbed →
      ∃ a, sendData bs s = .ok { s with trace := s.trace ++ [.sel true, .mode .data, .wr bs, .sel false], sel := false,
                                        mode := .data, ai := a }) ∧
    (∀ j rest, s.resetIn = none → s.cfg.hasTxErr = true → s.txFail = j :: rest → j < 4 →
      ∃ t, sendData bs s = .stop t ∧
        t.trace = s.trace ++ [.sel true, .mode .data, .wr bs, .sel false].take j ∧ t.TransportErrorTaken)

/-! ## Panel commands (spec/41_panel_commands.md) -/

/-- R101 to R109: each of the nine configuration commands emits its frame and writes nothing of the block but `sel`, `mode`
and `ai` (R100). -/
def Obligations.ConfigurationCommandsEmitTheirFrames : Prop :=
  ∀ s : State, s.Undisturbed →
    (∃ a, exec .driverOutput s =
      .next (s.sent (frameEvents 0x01 s.cfg.argDriverOutput) (frameMode s.cfg.argDriverOutput) a)) ∧
    (∃ a, exec .dataEntry s =
      .next (s.sent (frameEvents 0x11 s.cfg.argDataEntry) (frameMode s.cfg.argDataEntry) a)) ∧
    (∃ a, exec .ramXWindow s =
      .next (s.sent (frameEvents 0x44 s.cfg.argRamXWindow) (frameMode s.cfg.argRamXWindow) a)) ∧
    (∃ a, exec .ramYWindow s =
      .next (s.sent (frameEvents 0x45 s.cfg.argRamYWindow) (frameMode s.cfg.argRamYWindow) a)) ∧
    (∃ a, exec .border s = .next (s.sent (frameEvents 0x3C s.cfg.argBorder) (frameMode s.cfg.argBorder) a)) ∧
    (∃ a, exec .updateCtrl1 s =
      .next (s.sent (frameEvents 0x21 s.cfg.argUpdateCtrl1) (frameMode s.cfg.argUpdateCtrl1) a)) ∧
    (∃ a, exec .tempSensor s =
      .next (s.sent (frameEvents 0x18 s.cfg.argTempSensor) (frameMode s.cfg.argTempSensor) a)) ∧
    (∃ a, exec .ramXCounter s =
      .next (s.sent (frameEvents 0x4E s.cfg.argRamXCounter) (frameMode s.cfg.argRamXCounter) a)) ∧
    (∃ a, exec .ramYCounter s =
      .next (s.sent (frameEvents 0x4F s.cfg.argRamYCounter) (frameMode s.cfg.argRamYCounter) a))

/-- R110, R130, R150: WRITE_RAM sends 0x24 and then the N mapped bytes, in the closed form of the mapper, and writes nothing
but `sel`, `mode` and the working registers `ai`, `k`, `hpc`, `vbc`. The bytes are the framebuffer's, but at the addresses of
late writes that have landed (R207, log 28). -/
def Obligations.WriteRamSendsTheMappedFramebuffer : Prop :=
  ∀ s : State, s.Undisturbed → s.cfg.valid = true →
    (∃ a k h v, exec .writeRam s =
      .next { s.sent (cmdEvents 0x24 ++ dataLoopEvents s.cfg s.readByte) .data a with k := k, hpc := h, vbc := v }) ∧
    ∀ a, s.raced.written a = none → s.readByte a = s.fb.byteAt a

/-- R111 to R113: the update trigger carries 0xF7 or 0xFF by `cur_full`, ACTIVATE has no argument, DEEP_SLEEP carries
0x01. -/
def Obligations.UpdateAndSleepCommandsEmitTheirFrames : Prop :=
  ∀ s : State, s.Undisturbed →
    (∃ a, exec .updateCtrl2 s = .next (s.sent (frameEvents 0x22 [if s.curFull then 0xF7 else 0xFF]) .data a)) ∧
    exec .activate s = .next (s.sent (cmdEvents 0x20) .cmd s.ai) ∧
    (∃ a, exec .deepSleep s = .next (s.sent (frameEvents 0x10 [0x01]) .data a))

/-- R172, R178: a transport failure after `j` primitives of a panel command (log 4) leaves exactly the first `j` events of its frame,
takes the TransportError, and leaves the pins where those events put them and everything else as it was. -/
def Obligations.TransportErrorCutsAPanelCommand : Prop :=
  ∀ (i : Instr) (s : State) (j : Nat) (rest : List Nat), i.wellFormedOn .wire8 = true →
    (i = .writeRam → s.cfg.valid = true) → s.resetIn = none → s.cfg.hasTxErr = true → s.txFail = j :: rest →
    j < (panelEvents i s).length →
    ∃ t, exec i s = .next t ∧ t.trace = s.trace ++ (panelEvents i s).take j ∧ t.TransportErrorTaken ∧
      s.PinsFollow t ((panelEvents i s).take j) ∧
      t.cfg = s.cfg ∧ t.fb = s.fb ∧ t.skip = s.skip ∧ t.ill = s.ill ∧ t.host = s.host ∧ t.txFail = rest

/-! ## Host operations (spec/42_controller_operations.md) -/

/-- R122, R123, R124, R136: INIT and WAKE, accepted with a valid geometry and a panel that settles after `p` true answers, run the
whole of `InitSequence()` and end in Idle, initialized and powered on, with the framebuffer all-light. That `cur_op`, which is
don't-care at rest (R36, 93 U9), still says which of them it was is the model's choice, log 29. -/
def Obligations.InitAndWakeRunTheInitSequence : Prop :=
  ∀ (i : Instr) (f : Bool) (s : State) (p : Nat) (rest : List Bool), (i = .init f ∨ i = .wake f) →
    s.active = false → s.cfg.valid = true → s.Undisturbed → s.HostKeepsOff → s.PanelSettles p rest →
    ∃ t, exec i s = .next t ∧ t.trace = s.trace ++ initEvents s.cfg p ∧
      t.ctl = .idle ∧ t.initialized = true ∧ t.poweredOn = true ∧ t.active = false ∧ t.opDone = true ∧
      t.sel = false ∧ t.mode = .cmd ∧ t.rstl = true ∧ t.busyIn = rest ∧ s.SameRecord t ∧
      t.curOp = (if i = .init f then .init else .wake) ∧
      ∀ a, t.fb.written a = if a < s.cfg.numBytes then some 0xFF else s.fb.written a

/-- R136: WAKE and INIT are the same but for `cur_op`, which only says which of them it was, whatever happens. That they also leave the
same in the registers that are don't-care at rest is the model's choice, logs 10 and 29. -/
def Obligations.WakeIsInitButForCurOp : Prop :=
  ∀ (f : Bool) (s t : State), exec (.init f) s = .next t →
    ∃ t', exec (.wake f) s = .next t' ∧ { t' with curOp := t.curOp } = t

/-- R128, R129, R132: REFRESH past its gate, from Idle or Sleeping, with a panel that settles, runs `RefreshSeq` on the framebuffer as
it stands and returns to the state it came from; nothing but the pins and the private registers has changed. That `cur_op` and `cur_full`, which are don't-care at rest
(R36, 93 U9), still hold the operation is the model's choice, log 29. -/
def Obligations.RefreshRunsTheRefreshSequence : Prop :=
  ∀ (f : Bool) (s : State) (p : Nat) (rest : List Bool),
    s.active = false → s.initialized = true → s.cfg.valid = true → s.Undisturbed → s.HostKeepsOff → s.PanelSettles p rest →
    ∃ t, exec (.refresh f) s = .next t ∧ t.trace = s.trace ++ refreshEvents s.cfg s.fb.byteAt f p ∧
      t.ctl = s.ctl ∧ t.initialized = true ∧ t.poweredOn = s.poweredOn ∧ t.active = false ∧ t.opDone = true ∧
      t.sel = false ∧ t.mode = .cmd ∧ t.rstl = s.rstl ∧ t.busyIn = rest ∧ t.fb = s.fb ∧ s.SameRecord t ∧
      t.curOp = .refresh ∧ t.curFull = f

/-- R207: a host write during a REFRESH: each byte sent is the old or the new value of its address, and each byte of the framebuffer
keeps its value or gets one the host wrote; the operation runs as otherwise (the input's form is the model's choice, log 28). -/
def Obligations.RefreshSendsTheOldOrTheNewByte : Prop :=
  ∀ (f : Bool) (s : State) (p : Nat) (rest : List Bool),
    s.active = false → s.initialized = true → s.cfg.valid = true → s.Undisturbed → s.PanelSettles p rest →
    ∃ t bytes, exec (.refresh f) s = .next t ∧ t.trace = s.trace ++ refreshEvents s.cfg bytes f p ∧
      t.ctl = s.ctl ∧ t.initialized = true ∧ t.poweredOn = s.poweredOn ∧ t.active = false ∧ t.opDone = true ∧
      (∀ a, bytes a = s.fb.byteAt a ∨ ∃ w ∈ s.late, w.addr = a ∧ bytes a = w.val) ∧
      ∀ a, t.fb.written a = s.fb.written a ∨ ∃ w ∈ s.late, w.addr = a ∧ t.fb.written a = some w.val

/-- R57, R207: a host write during an INIT or WAKE: the sequence runs as otherwise, and each byte is filled and sent as without it, or
is one the host writes to that address, in the framebuffer and on the wire. So only addresses that the host writes are unsettled, and
these between the old and the new byte (that R207's "unspecified" means no other byte, and the input's form: log 28). -/
def Obligations.InitIsUnsettledOnlyWhereTheHostWrites : Prop :=
  ∀ (i : Instr) (f : Bool) (s : State) (p : Nat) (rest : List Bool), (i = .init f ∨ i = .wake f) →
    s.active = false → s.cfg.valid = true → s.Undisturbed → s.PanelSettles p rest →
    ∃ t bytes, exec i s = .next t ∧
      t.trace = s.trace ++ resetPulseEvents s.cfg ++ configureEvents s.cfg ++ fillEvents s.cfg
        ++ refreshEvents s.cfg bytes true p ∧
      t.ctl = .idle ∧ t.initialized = true ∧ t.poweredOn = true ∧ t.active = false ∧ t.opDone = true ∧
      ∀ a, (a < s.cfg.numBytes → bytes a = 0xFF ∨ ∃ w ∈ s.late, w.addr = a ∧ bytes a = w.val) ∧
        ((t.fb.written a = if a < s.cfg.numBytes then some 0xFF else s.fb.written a) ∨
          ∃ w ∈ s.late, w.addr = a ∧ t.fb.written a = some w.val)

/-- A late write lands just before its step (log 28): the framebuffer has the host's byte, and the block sends that or the old one
(R57, R207), which at the fill is the fill's; after the fill's write the address holds the byte of the fill or the host's. -/
def Obligations.ALateWriteLandsBeforeItsStep : Prop :=
  ∀ (it : Item) (w : LateWrite) (s : State), s.late = [w] → w.seq = s.seq → w.addr < s.cfg.numBytes →
    (s.land it).late = [] ∧ (s.land it).fb.written w.addr = some w.val ∧
    (it ≠ .fill → (s.land it).readByte w.addr = w.val ∨ (s.land it).readByte w.addr = s.readByte w.addr) ∧
    (it = .fill → ((s.land it).readByte w.addr = w.val ∨ (s.land it).readByte w.addr = 0xFF) ∧
      ((s.land it).writtenByte 0xFF w.addr = w.val ∨ (s.land it).writtenByte 0xFF w.addr = 0xFF))

/-- R133, R134, R135: SLEEP past its gate sends the deep-sleep frame, waits, polls nothing, and ends in Sleeping, still initialized
and no longer powered on. That `cur_op` holds the operation at rest, and that `cur_full` and `ret` keep their values, all don't-care
there, is the model's choice, logs 29, 27 and 10. -/
def Obligations.SleepRunsTheSleepSequence : Prop :=
  ∀ (f : Bool) (s : State), s.active = false → s.initialized = true → s.Undisturbed → s.HostKeepsOff →
    ∃ t, exec (.sleep f) s = .next t ∧
      t.trace = s.trace ++ [.sel true, .mode .cmd, .wr [0x10], .sel false, .sel true, .mode .data, .wr [0x01],
                            .sel false, .wait s.cfg.tSleep] ∧
      t.ctl = .sleeping ∧ t.initialized = true ∧ t.poweredOn = false ∧ t.active = false ∧ t.opDone = true ∧
      t.sel = false ∧ t.mode = .data ∧ t.rstl = s.rstl ∧ t.busyIn = s.busyIn ∧ t.fb = s.fb ∧ s.SameRecord t ∧
      t.curOp = .sleep ∧ t.curFull = s.curFull ∧ t.ret = s.ret

/-- R128, R133, R174: before initialization REFRESH and SLEEP are skipped: no event, `SKIP <- 1`, done, nothing else
(that the operation latch, `seq` and `ret` are among the nothing is the model's choice, log 16). -/
def Obligations.PreInitRefreshAndSleepAreSkipped : Prop :=
  ∀ (f : Bool) (s : State), s.active = false → s.initialized = false →
    exec (.refresh f) s = .next { s with skip := true, opDone := true } ∧
    exec (.sleep f) s = .next { s with skip := true, opDone := true }

/-- R173: with an invalid geometry INIT and WAKE are rejected before any event: `ERR`, `CAUSE = 2`, done, nothing else
(that the operation latch, `seq` and `ret` are among the nothing is the model's choice, log 16). The geometry is invalid
exactly when `PW < 8`, or 8 does not divide `PW`, or `PH < 1` (00_scope.md R8). -/
def Obligations.InvalidGeometryIsRejectedBeforeAnyEvent : Prop :=
  ∀ (f : Bool) (s : State), s.active = false → (s.cfg.pw < 8 ∨ s.cfg.pw % 8 ≠ 0 ∨ s.cfg.ph < 1) →
    exec (.init f) s = .next { s with err := true, cause := 2, opDone := true } ∧
    exec (.wake f) s = .next { s with err := true, cause := 2, opDone := true }

/-- R129, R130: the stream of a REFRESH is the same `N + 4` pairs in both framings: 0x24, the N mapped bytes in ascending `k`, 0x22
with its argument, 0x20. -/
def Obligations.RefreshStream : Prop :=
  ∀ (f : Bool) (s : State) (p : Nat) (rest : List Bool),
    s.active = false → s.initialized = true → s.cfg.valid = true → s.cfg.counterReset = false →
    s.Undisturbed → s.HostKeepsOff → s.PanelSettles p rest →
    ∃ t es, exec (.refresh f) s = .next t ∧ t.trace = s.trace ++ es ∧
      stream es = (.cmd, 0x24) :: (List.range s.cfg.numBytes).map
          (fun k => (Mode.data, ~~~(s.fb.byteAt (srcIndex s.cfg k))))
        ++ [(.cmd, 0x22), (.data, if f then 0xF7 else 0xFF), (.cmd, 0x20)] ∧
      (stream es).length = s.cfg.numBytes + 4

/-- R201, R217, R126: the stream of an INIT: the nine configure frames in order, then exactly one refresh, a full one, of the all-light
buffer; no other command byte. -/
def Obligations.InitStreamSeedsOneFullRefresh : Prop :=
  ∀ (f : Bool) (s : State) (p : Nat) (rest : List Bool),
    s.active = false → s.cfg.valid = true → s.Undisturbed → s.HostKeepsOff → s.PanelSettles p rest →
    ∃ t es, exec (.init f) s = .next t ∧ t.trace = s.trace ++ es ∧
      commandBytes es = [0x01, 0x11, 0x44, 0x45, 0x3C, 0x21, 0x18, 0x4E, 0x4F]
        ++ (if s.cfg.counterReset then [0x4E, 0x4F] else []) ++ [0x24, 0x22, 0x20] ∧
      (∃ front, stream es = front ++ (.cmd, 0x24) :: List.replicate s.cfg.numBytes (.data, 0x00)
        ++ [(.cmd, 0x22), (.data, 0xF7), (.cmd, 0x20)])

/-- R138: the sizes of the event lists, with the default parameters and non-empty arguments; the spec's `p` counts the `readBusy()`
calls, here `p + 1`. -/
def Obligations.EventCounts : Prop :=
  ∀ (f : Bool) (s : State) (p : Nat) (rest : List Bool),
    s.active = false → s.cfg.valid = true → s.Undisturbed → s.PanelSettles p rest →
    s.cfg.counterReset = false → s.cfg.ramFraming = .perByte →
    s.cfg.argDriverOutput ≠ [] → s.cfg.argDataEntry ≠ [] → s.cfg.argRamXWindow ≠ [] → s.cfg.argRamYWindow ≠ [] →
    s.cfg.argBorder ≠ [] → s.cfg.argUpdateCtrl1 ≠ [] → s.cfg.argTempSensor ≠ [] → s.cfg.argRamXCounter ≠ [] →
    s.cfg.argRamYCounter ≠ [] →
    (∃ t, exec (.init f) s = .next t ∧
      t.trace.length = s.trace.length + (94 + 5 * s.cfg.numBytes + 2 * (p + 1))) ∧
    (s.initialized = true → ∃ t, exec (.refresh f) s = .next t ∧
      t.trace.length = s.trace.length + (16 + 4 * s.cfg.numBytes + 2 * (p + 1)))

/-- R220: the least durations, with delays that keep their bounds: INIT and WAKE at least 650 ms, REFRESH at least 50 ms and 100 ms more
for each poll that reads true, SLEEP at least `T_SLEEP`. -/
def Obligations.LeastDurations : Prop :=
  ∀ (i : Instr) (s t : State) (p : Nat) (rest : List Bool), s.cfg.delaysLegal = true →
    startsSequence i s → s.Undisturbed → ((∀ f, i ≠ .sleep f) → s.PanelSettles p rest) → exec i s = .next t →
    minDuration s.trace +
        (match i with
          | .refresh _ => 50 + 100 * p
          | .sleep _ => s.cfg.tSleep
          | _ => 650 + 100 * p) ≤ minDuration t.trace

/-- R35, R185, R186: a wait holds for its named delay and leaves the timer at zero, changing nothing else; the timer is loaded with the
least number of clock ticks that lasts the delay (that one event takes it to zero is the model's choice, log 24). -/
def Obligations.WaitHoldsForItsDelay : Prop :=
  ∀ s : State,
    (∀ d, s.resetIn = none → wait d s = .ok { s with trace := s.trace ++ [.wait (s.cfg.delay d)], timer := 0 }) ∧
    s.cfg.delay .tRst = s.cfg.tRst ∧ s.cfg.delay .tSettle = s.cfg.tSettle ∧ s.cfg.delay .tPoll = s.cfg.tPoll ∧
    s.cfg.delay .tSleep = s.cfg.tSleep ∧
    ∀ t, t * s.cfg.clkHz ≤ (State.loadTimer t s).timer * 1000 ∧ (State.loadTimer t s).timer * 1000 < t * s.cfg.clkHz + 1000

/-- R131, R212: while the busy input answers true the operation does not end, however many answers there are: a REFRESH or INIT whose
`n` scheduled answers are all true is still in Busy and active after them, with `n` polls on the trace. That a transition
stops where no answer is scheduled is the model's choice, logs 3 and 6. -/
def Obligations.BusyWaitDoesNotEndWhileBusy : Prop :=
  ∀ (n : Nat) (i : Instr) (f : Bool) (s : State), (i = .init f ∨ i = .wake f) →
    s.active = false → s.cfg.valid = true → s.Undisturbed → s.HostKeepsOff → s.busyIn = List.replicate n true →
    (s.initialized = true → ∃ t, exec (.refresh f) s = .next t ∧
      t.trace = s.trace ++ refreshCommandEvents s.cfg s.fb.byteAt f ++ [.wait s.cfg.tSettle] ++ pollEvents s.cfg n ∧
      t.active = true ∧ t.ctl = .busy ∧ t.opDone = false ∧ t.initialized = true ∧ t.nextItem = some .poll) ∧
    (∃ t, exec i s = .next t ∧
      t.trace = s.trace ++ resetPulseEvents s.cfg ++ configureEvents s.cfg ++ fillEvents s.cfg
        ++ refreshCommandEvents s.cfg (fun _ => 0xFF) true ++ [.wait s.cfg.tSettle] ++ pollEvents s.cfg n ∧
      t.active = true ∧ t.ctl = .busy ∧ t.opDone = false ∧ t.initialized = s.initialized ∧ t.nextItem = some .poll)

/-- R212 step by step: from a busy-wait, `n` true answers make `n` steps that leave the block in the same place, accepting nothing.
That a step takes one poll and its answer from the schedule is the model's choice, logs 3 and 6. -/
def Obligations.BusyWaitHasNoBound : Prop :=
  ∀ (n : Nat) (s : State) (rest : List Bool),
    s.active = true → s.nextItem = some .poll → s.Undisturbed → s.busyIn = List.replicate n true ++ rest →
    ∃ t, Host.Core.run core n s = .next t ∧ t.trace = s.trace ++ pollEvents s.cfg n ∧ t.busyIn = rest ∧
      t.active = true ∧ t.nextItem = some .poll ∧ t.ctl = s.ctl ∧ t.initialized = s.initialized ∧ t.host = s.host

/-- No instruction ends in a fault or a refusal, in any state (60_exceptions.md R170, 20_memory.md R56: no address fault, no illegal
instruction). -/
def Obligations.EveryInstructionRuns : Prop := ∀ (i : Instr) (s : State), ∃ t, exec i s = .next t

/-- R172, R178: a transport failure after `j` primitives of an operation (log 4) leaves exactly the events before the failing primitive, takes
the TransportError, and leaves the pins where those events put them. -/
def Obligations.TransportErrorEndsAnOperationPrecisely : Prop :=
  ∀ (i : Instr) (s : State) (p j : Nat) (rest : List Bool) (later : List Nat),
    startsSequence i s → s.HostKeepsOff → s.resetIn = none → ((∀ f, i ≠ .sleep f) → s.PanelSettles p rest) →
    s.cfg.hasTxErr = true → s.txFail = j :: later → j < primitiveCount (operationEvents i s p) →
    ∃ t, exec i s = .next t ∧ t.trace = s.trace ++ cutAtPrimitive j (operationEvents i s p) ∧ t.TransportErrorTaken ∧
      s.PinsFollow t (cutAtPrimitive j (operationEvents i s p)) ∧
      t.cfg = s.cfg ∧ t.skip = s.skip ∧ t.ill = s.ill ∧ t.host = s.host ∧ t.txFail = later

/-- R196: a hardware reset after `j` events of an operation (log 5) ends it at once: the trace has exactly those events, every piece of state has
its reset value, and there is no `op_done`. -/
def Obligations.HardwareResetEndsAnOperationAtOnce : Prop :=
  ∀ (i : Instr) (s : State) (p j : Nat) (rest : List Bool),
    startsSequence i s → s.HostKeepsOff → ((∀ f, i ≠ .sleep f) → s.PanelSettles p rest) →
    (s.cfg.hasTxErr = false ∨ s.txFail = []) → s.resetIn = some j →
    j < (operationEvents i s p).length →
    ∃ t, exec i s = .next t ∧ t.trace = s.trace ++ (operationEvents i s p).take j ∧ t.HardwareResetValues ∧ t.cfg = s.cfg

/-! ## The mapper (spec/43_scan_order_mapper.md) -/

/-- R151, R156: the complement on each byte, and on each bit at its own position. -/
def Obligations.ComplementInvertsEachBitInPlace : Prop :=
  ∀ b : Byte, complementByte b = b ^^^ 0xFF ∧ (complementByte b).toNat = 255 - b.toNat ∧
    ∀ n < 8, (complementByte b).getLsbD n = !b.getLsbD n

/-- R154: for every valid geometry the source indexes of one refresh are `0 .. N-1`, each once, and Rotated sends exactly
`wid*tbc = N` bytes. -/
def Obligations.MapperIsAPermutation : Prop :=
  ∀ c : Cfg, c.valid = true →
    ((List.range c.numBytes).map (srcIndex c)).Perm (List.range c.numBytes) ∧
    (c.orient = .rotated → c.wid * c.tbc = c.numBytes)

/-- R155: the stream position at which framebuffer byte `i` is sent, and no other; the permutation is not its own inverse in
general (`wid = 8`, `tbc = 2`: index 0 is sent at position 1, index 1 at position 3). -/
def Obligations.MapperInverse : Prop :=
  (∀ (c : Cfg) (i k : Nat), c.valid = true → i < c.numBytes → k < c.numBytes →
    sentAt c i < c.numBytes ∧ (srcIndex c k = i ↔ k = sentAt c i) ∧
    (c.orient = .native → (srcIndex c k = i ↔ k = i)) ∧
    (c.orient = .rotated → (srcIndex c k = i ↔ k = (i % c.wid) * c.tbc + (c.tbc - 1 - i / c.wid)))) ∧
  (∀ c : Cfg, c.orient = .rotated → c.wid = 8 → c.tbc = 2 → srcIndex c 1 = 0 ∧ srcIndex c 3 = 1)

/-- R159: the working registers, advanced after each byte, point at `SrcIndex(k)` for every `k`; after the last byte `k = N`, and
Rotated has `hpc = wid`, `vbc = 0`. -/
def Obligations.MapperRegistersFollowTheClosedForm : Prop :=
  ∀ (s : State) (k : Nat), s.cfg.valid = true →
    (k < s.cfg.numBytes → (State.mapAdvance^[k] s.mapStart).mapIndex = srcIndex s.cfg k) ∧
    (State.mapAdvance^[s.cfg.numBytes] s.mapStart).k = s.cfg.numBytes ∧
    (s.cfg.orient = .rotated → (State.mapAdvance^[s.cfg.numBytes] s.mapStart).hpc = s.cfg.wid ∧
      (State.mapAdvance^[s.cfg.numBytes] s.mapStart).vbc = 0 ∧
      (State.mapAdvance^[s.cfg.numBytes] s.mapStart).mapIndex = s.cfg.numBytes)

/-- R152, R160: Native is the storage order; Rotated with one byte-row too; Rotated with one column is a reversal. -/
def Obligations.MapperCornerCases : Prop :=
  ∀ (c : Cfg) (k : Nat), c.valid = true → k < c.numBytes →
    (c.orient = .native → srcIndex c k = k) ∧
    (c.orient = .rotated → c.tbc = 1 → c.iidx = 0 ∧ srcIndex c k = k) ∧
    (c.orient = .rotated → c.wid = 1 → srcIndex c k = c.tbc - 1 - k) ∧
    (c.orient = .rotated → c.wid = 1 → c.tbc = 1 → c.numBytes = 1)

/-! ## The whole machine -/

/-- The block's invariant holds after reset. -/
def Obligations.ResetMeetsTheInvariant : Prop := State.reset.Inv

/-- Every step keeps the invariant (42 R121, 10 R24, R27, 20 R52). -/
def Obligations.StepKeepsTheInvariant : Prop := ∀ s t : State, s.Inv → step s = .next t → t.Inv

/-- R114: the command bytes on the stream are among the thirteen, after reset and after every step. -/
def Obligations.StepSendsOnlyPanelCommands : Prop :=
  State.reset.OnlyPanelCommands ∧ ∀ s t : State, s.OnlyPanelCommands → step s = .next t → t.OnlyPanelCommands

/-- R21: no step writes `cfg`; R11, R61: the trace only grows. -/
def Obligations.StepKeepsCfgAndExtendsTheTrace : Prop :=
  ∀ s t : State, step s = .next t → t.cfg = s.cfg ∧ s.trace <+: t.trace

/-- R29, R30, R31: the sticky flags and CAUSE are cleared only by a hardware reset: by no step in which none is taken (a step that
takes one ends its countdown, log 5). -/
def Obligations.StickyFlagsStayUntilReset : Prop :=
  ∀ s t : State, (s.resetIn = none ∨ t.resetIn ≠ none) → (s.active = false → ∀ rest, s.host ≠ .reset :: rest) →
    step s = .next t →
    (s.skip = true → t.skip = true) ∧ (s.err = true → t.err = true) ∧ (s.ill = true → t.ill = true) ∧
    (s.cause ≠ 0 → t.cause ≠ 0)

/-- R26, R28, R124: the only step in which `initialized` becomes 1 is the end of INIT or WAKE, which also sets `poweredOn` and goes to
Idle; and `poweredOn` becomes 1 only there. That the operation can still be read off `cur_op`, which is don't-care at rest, is the
model's choice, log 29. -/
def Obligations.OnlyInitDoneSetsInitialized : Prop :=
  ∀ s t : State, step s = .next t →
    ((s.initialized = false ∧ t.initialized = true) ∨ (s.poweredOn = false ∧ t.poweredOn = true)) →
    t.initialized = true ∧ t.poweredOn = true ∧ t.ctl = .idle ∧ t.active = false ∧ t.opDone = true ∧
      (t.curOp = .init ∨ t.curOp = .wake)

/-- An operation in one transition is the same as its list run one item a step (42 R120, 10 R24): from any state with an operation in
progress, the rest of it is what some number of steps does. Both granularities are the model's choice, log 6. -/
def Obligations.OneTransitionIsManySteps : Prop :=
  ∀ s : State, s.active = true → s.opDone = false →
    ∃ n, Host.Core.run core n s = (runRest s).toOutcome

/-- The same for a whole operation (log 6): what `exec` answers is what the steps do from the state in which the word has just been accepted. -/
def Obligations.OperationsRunStepByStep : Prop :=
  ∀ (f : Bool) (s : State), s.active = false →
    (s.cfg.valid = true → ∃ n, exec (.init f) s =
      Host.Core.run core n { s with active := true, opDone := false, raced := [], curOp := .init, seq := 0, ctl := .resetting }) ∧
    (s.cfg.valid = true → ∃ n, exec (.wake f) s =
      Host.Core.run core n { s with active := true, opDone := false, raced := [], curOp := .wake, seq := 0, ctl := .resetting }) ∧
    (s.initialized = true → ∃ n, exec (.refresh f) s =
      Host.Core.run core n { s with active := true, opDone := false, raced := [], curOp := .refresh, curFull := f, seq := 0,
                                    ret := s.ctl, ctl := .busy }) ∧
    (s.initialized = true → ∃ n, exec (.sleep f) s =
      Host.Core.run core n { s with active := true, opDone := false, raced := [], curOp := .sleep, seq := 0, ctl := .sleeping })
end

