-- ==== Sys2Proof/Laws/Memory.lean ====
section
/-! SUPPORT. The laws of the framebuffer memory: read after write, the canonical form, filling. -/

namespace Sys2Proof.Machine

theorem Memory.wf_tail {c : Host.Cell} {m : Memory} (h : Memory.wf (c :: m)) : m.wf :=
  (List.pairwise_cons.1 h).2

theorem Memory.wf_head_lt {c : Host.Cell} {m : Memory} (h : Memory.wf (c :: m)) : ∀ d ∈ m, c.1 < d.1 :=
  (List.pairwise_cons.1 h).1

/-- A byte below every listed address is not written. -/
theorem Memory.written_none_of_lt {m : Memory} {a : Nat} (h : ∀ d ∈ m, a < d.1) : m.written a = none := by
  cases m with
  | nil => rfl
  | cons c m =>
    have hc := h c (by simp)
    simp [Memory.written, Nat.ne_of_lt hc, hc]

theorem Memory.written_cons {c : Host.Cell} {m : Memory} (h : Memory.wf (c :: m)) (a : Nat) :
    Memory.written (c :: m) a = if a = c.1 then some c.2 else m.written a := by
  obtain ⟨b, v⟩ := c
  by_cases h1 : a = b
  · simp [Memory.written, h1]
  · by_cases h2 : a < b
    · have : m.written a = none := Memory.written_none_of_lt fun d hd => Nat.lt_trans h2 (Memory.wf_head_lt h d hd)
      simp [Memory.written, h1, h2, this]
    · simp [Memory.written, h1, h2]

theorem Memory.mem_write {m : Memory} {a : Nat} {v : Byte} {c : Host.Cell} (h : c ∈ m.write a v) :
    c.1 = a ∨ c ∈ m := by
  induction m with
  | nil => simp [Memory.write] at h; simp [h]
  | cons d m ih =>
    obtain ⟨b, w⟩ := d
    simp only [Memory.write] at h
    split at h
    · rcases List.mem_cons.1 h with rfl | h
      · exact .inl rfl
      · exact .inr h
    · split at h
      · rcases List.mem_cons.1 h with rfl | h
        · exact .inl rfl
        · exact .inr (List.mem_cons_of_mem _ h)
      · rcases List.mem_cons.1 h with rfl | h
        · exact .inr (by simp)
        · exact (ih h).imp id (List.mem_cons_of_mem _)

/-- A write keeps the canonical form. -/
theorem Memory.write_wf {m : Memory} (h : m.wf) (a : Nat) (v : Byte) : (m.write a v).wf := by
  induction m with
  | nil => simp [Memory.write, Memory.wf]
  | cons c m ih =>
    obtain ⟨b, w⟩ := c
    have ht := Memory.wf_tail h
    have hl := Memory.wf_head_lt h
    simp only [Memory.write]
    split
    · rename_i hab
      exact List.pairwise_cons.2 ⟨fun d hd => by
        rcases List.mem_cons.1 hd with rfl | hd
        · exact hab
        · exact Nat.lt_trans hab (hl d hd), h⟩
    · split
      · rename_i hab
        exact List.pairwise_cons.2 ⟨fun d hd => by simpa [hab] using hl d hd, ht⟩
      · rename_i h1 h2
        refine List.pairwise_cons.2 ⟨fun d hd => ?_, ih ht⟩
        rcases Memory.mem_write hd with h3 | h3
        · simp only [h3]; omega
        · exact hl d h3

/-- Reading after a write (R53), whether or not the form is canonical. -/
theorem Memory.written_write (m : Memory) (a b : Nat) (v : Byte) :
    (m.write a v).written b = if b = a then some v else m.written b := by
  induction m with
  | nil => by_cases hb : b = a <;> simp [Memory.write, Memory.written, hb]
  | cons c m ih =>
    obtain ⟨x, w⟩ := c
    simp only [Memory.write]
    split
    · simp only [Memory.written]; repeat' split
      all_goals first | rfl | omega
    · split
      · simp only [Memory.written]; repeat' split
        all_goals first | rfl | omega
      · simp only [Memory.written, ih]; repeat' split
        all_goals first | rfl | omega

/-- Equal contents are equal lists. -/
theorem Memory.eq_of_written {m m' : Memory} (h : m.wf) (h' : m'.wf) (he : ∀ b, m'.written b = m.written b) : m' = m := by
  induction m generalizing m' with
  | nil =>
    cases m' with
    | nil => rfl
    | cons c m' => have := he c.1; rw [Memory.written_cons h'] at this; simp [Memory.written] at this
  | cons c m ih =>
    cases m' with
    | nil => have := he c.1; rw [Memory.written_cons h] at this; simp [Memory.written] at this
    | cons d m' =>
      have hc := he c.1
      have hd := he d.1
      rw [Memory.written_cons h, Memory.written_cons h'] at hc hd
      have low (e : Host.Cell) (n : Memory) (hn : Memory.wf (e :: n)) (b : Nat) (hb : b < e.1) : n.written b = none :=
        Memory.written_none_of_lt fun f hf => Nat.lt_trans hb (Memory.wf_head_lt hn f hf)
      have hcd : c.1 = d.1 := by
        rcases Nat.lt_trichotomy c.1 d.1 with hlt | heq | hlt
        · simp [Nat.ne_of_lt hlt, low d m' h' c.1 hlt] at hc
        · exact heq
        · simp [Nat.ne_of_lt hlt, low c m h d.1 hlt] at hd
      have hv : d.2 = c.2 := by simpa [hcd] using hc
      have hcell : d = c := Prod.ext hcd.symm hv
      subst hcell
      congr 1
      refine ih (Memory.wf_tail h) (Memory.wf_tail h') fun b => ?_
      have hb := he b
      rw [Memory.written_cons h, Memory.written_cons h'] at hb
      by_cases hbd : b = d.1
      · rw [Memory.written_none_of_lt (hbd ▸ Memory.wf_head_lt h'), Memory.written_none_of_lt (hbd ▸ Memory.wf_head_lt h)]
      · simpa [hbd] using hb

/-- What filling leaves at each address. -/
theorem Memory.written_fillFrom (n : Nat) (m : Memory) (a b : Nat) (f : Nat → Byte) :
    (m.fillFrom a f n).written b = if a ≤ b ∧ b < a + n then some (f b) else m.written b := by
  induction n generalizing m a with
  | zero => rw [if_neg (by omega)]; rfl
  | succ n ih =>
    rw [Memory.fillFrom, ih, Memory.written_write]
    repeat' split
    all_goals first | rfl | omega | (congr 2; omega)

/-- Filling keeps the canonical form. -/
theorem Memory.fillFrom_wf (n : Nat) {m : Memory} (h : m.wf) (a : Nat) (f : Nat → Byte) : (m.fillFrom a f n).wf := by
  induction n generalizing m a with
  | zero => exact h
  | succ n ih => exact ih (Memory.write_wf h a (f a)) (a + 1)

/-- Filling lists no address but those it fills. -/
theorem Memory.mem_fillFrom (n : Nat) {m : Memory} {a : Nat} {f : Nat → Byte} {c : Host.Cell} (h : c ∈ m.fillFrom a f n) :
    c ∈ m ∨ (a ≤ c.1 ∧ c.1 < a + n) := by
  induction n generalizing m a with
  | zero => exact .inl h
  | succ n ih =>
    rcases ih h with h | h
    · rcases Memory.mem_write h with h | h
      · exact .inr ⟨by omega, by omega⟩
      · exact .inl h
    · exact .inr ⟨by omega, by omega⟩

/-- Bytes that are written read as written. -/
theorem Memory.byteAt_of_written {m : Memory} {a : Nat} {v : Byte} (h : m.written a = some v) : m.byteAt a = v := by
  simp [Memory.byteAt, h]

theorem reset_memory_wf : State.reset.fb.wf := by decide

end Sys2Proof.Machine
end

