-- ==== Sys2Proof/Laws/Late.lean ====
section
/-! SUPPORT. The host's late writes (70_reset_and_hazards.md R207): what a landing can do, said once. -/

namespace Sys2Proof.Machine

/-! ## The memory -/

theorem Memory.over_of_none {o m : Memory} {a : Nat} (h : o.written a = none) : o.over m a = m.byteAt a := by
  simp [Memory.over, h]

/-- What the fill leaves at an address depends on what the framebuffer holds there, and on nothing else in it. -/
theorem settle_congr {raced : Memory} {races : Nat} {m m' : Memory} {v : Byte} {a : Nat} (h : m.written a = m'.written a) :
    settle raced races m v a = settle raced races m' v a := by simp only [settle, Memory.byteAt, h]

/-- An address that the host does not contest holds what the block writes. -/
theorem settle_of_none {raced : Memory} {races : Nat} {m : Memory} {v : Byte} {a : Nat} (h : raced.written a = none) :
    settle raced races m v a = v := by simp [settle, h]

/-- A contested address holds what the block writes, or what the host has written. -/
theorem settle_or (raced : Memory) (races : Nat) (m : Memory) (v : Byte) (a : Nat) :
    settle raced races m v a = v ∨ ((raced.written a).isSome ∧ settle raced races m v a = m.byteAt a) := by
  unfold settle
  split
  · rename_i h; simp only [Bool.and_eq_true] at h; exact .inr ⟨h.1, rfl⟩
  · exact .inl rfl

/-- Landings leave alone every address that no late write names. -/
theorem landAll_off (inFill : Bool) (n : Nat) (ws : List LateWrite) (fb raced : Memory) (races a : Nat)
    (h : ∀ w ∈ ws, w.addr ≠ a) :
    (landAll inFill n ws fb raced races).1.written a = fb.written a ∧
      (landAll inFill n ws fb raced races).2.1.written a = raced.written a := by
  induction ws generalizing fb raced races with
  | nil => exact ⟨rfl, rfl⟩
  | cons w ws ih =>
    have hw : a ≠ w.addr := Ne.symm (h w (by simp))
    obtain ⟨h1, h2⟩ := ih (landOne inFill n w fb raced races).1 (landOne inFill n w fb raced races).2.1
      (landOne inFill n w fb raced races).2.2 fun x hx => h x (List.mem_cons_of_mem _ hx)
    rw [landAll, h1, h2]
    unfold landOne
    split <;> [skip; exact ⟨rfl, rfl⟩]
    simp [Memory.written_write, hw]

/-- During a refresh each address keeps its byte or gets one the host wrote, in the framebuffer and in what the block sends. -/
theorem landAll_oldOrNew (n : Nat) (ws : List LateWrite) (fb raced : Memory) (races a : Nat) :
    ((landAll false n ws fb raced races).1.written a = fb.written a ∨
      ∃ w ∈ ws, w.addr = a ∧ (landAll false n ws fb raced races).1.written a = some w.val) ∧
    ((landAll false n ws fb raced races).2.1.over (landAll false n ws fb raced races).1 a = raced.over fb a ∨
      ∃ w ∈ ws, w.addr = a ∧ (landAll false n ws fb raced races).2.1.over (landAll false n ws fb raced races).1 a = w.val) := by
  induction ws generalizing fb raced races with
  | nil => exact ⟨.inl rfl, .inl rfl⟩
  | cons w ws ih =>
    obtain ⟨h1, h2⟩ := ih (landOne false n w fb raced races).1 (landOne false n w fb raced races).2.1
      (landOne false n w fb raced races).2.2
    rw [landAll]
    have one : ((landOne false n w fb raced races).1.written a = fb.written a ∨
          w.addr = a ∧ (landOne false n w fb raced races).1.written a = some w.val) ∧
        ((landOne false n w fb raced races).2.1.over (landOne false n w fb raced races).1 a = raced.over fb a ∨
          w.addr = a ∧ (landOne false n w fb raced races).2.1.over (landOne false n w fb raced races).1 a = w.val) := by
      unfold landOne
      split <;> [skip; exact ⟨.inl rfl, .inl rfl⟩]
      by_cases ha : a = w.addr
      · subst ha
        refine ⟨.inr ⟨rfl, by simp [Memory.written_write]⟩, ?_⟩
        cases Config.raceNew races <;> simp [Memory.over, Memory.written_write]
      · exact ⟨.inl (by simp [Memory.written_write, ha]), .inl (by simp [Memory.over, Memory.byteAt, Memory.written_write, ha])⟩
    refine ⟨?_, ?_⟩
    · rcases h1 with h1 | ⟨x, hx, h1⟩
      · rw [h1]; exact one.1.imp id fun h => ⟨w, by simp, h⟩
      · exact .inr ⟨x, List.mem_cons_of_mem _ hx, h1⟩
    · rcases h2 with h2 | ⟨x, hx, h2⟩
      · rw [h2]; exact one.2.imp id fun h => ⟨w, by simp, h⟩
      · exact .inr ⟨x, List.mem_cons_of_mem _ hx, h2⟩

/-- During the fill (`S` holds of the bytes the host writes at `a`): a contested address holds a byte of the host's, and the
block sends that or its own. -/
theorem landAll_fill {S : Byte → Prop} {a : Nat} (n : Nat) (ws : List LateWrite) (fb raced : Memory) (races : Nat)
    (hS : ∀ w ∈ ws, w.addr = a → S w.val) (hr : ∀ b, raced.written a = some b → b = 0xFF ∨ S b)
    (hf : (raced.written a).isSome → ∃ b, S b ∧ fb.written a = some b) :
    ((landAll true n ws fb raced races).1.written a = fb.written a ∨
        ∃ b, S b ∧ (landAll true n ws fb raced races).1.written a = some b) ∧
      (∀ b, (landAll true n ws fb raced races).2.1.written a = some b → b = 0xFF ∨ S b) ∧
      (((landAll true n ws fb raced races).2.1.written a).isSome →
        ∃ b, S b ∧ (landAll true n ws fb raced races).1.written a = some b) := by
  induction ws generalizing fb raced races with
  | nil => exact ⟨.inl rfl, hr, hf⟩
  | cons w ws ih =>
    have hS' : ∀ x ∈ ws, x.addr = a → S x.val := fun x hx => hS x (List.mem_cons_of_mem _ hx)
    by_cases hn : w.addr < n
    · by_cases ha : a = w.addr
      · subst ha
        have hw : S w.val := hS w (by simp) rfl
        have one : landOne true n w fb raced races = (fb.write w.addr w.val,
            raced.write w.addr (if Config.raceNew races then w.val else (raced.written w.addr).getD 0xFF), races + 1) := by
          simp [landOne, hn]
        rw [landAll, one]
        obtain ⟨h1, h2, h3⟩ := ih (fb.write w.addr w.val) (raced.write w.addr
            (if Config.raceNew races then w.val else (raced.written w.addr).getD 0xFF)) (races + 1) hS'
          (fun b hb => by
            rw [Memory.written_write, if_pos rfl] at hb
            injection hb with hb
            subst hb
            split
            · exact .inr hw
            · cases h : raced.written w.addr with
              | none => exact .inl rfl
              | some b => exact hr b h)
          (fun _ => ⟨w.val, hw, by simp [Memory.written_write]⟩)
        exact ⟨h1.elim (fun h => .inr ⟨w.val, hw, by rw [h]; simp [Memory.written_write]⟩) .inr, h2, h3⟩
      · have one : (landOne true n w fb raced races).1.written a = fb.written a ∧
            (landOne true n w fb raced races).2.1.written a = raced.written a := by
          simp [landOne, hn, Memory.written_write, ha]
        have h := ih (landOne true n w fb raced races).1 (landOne true n w fb raced races).2.1
          (landOne true n w fb raced races).2.2 hS' (by rw [one.2]; exact hr) (by rw [one.1, one.2]; exact hf)
        rw [one.1] at h
        exact h
    · rw [landAll, show landOne true n w fb raced races = (fb, raced, races) by simp [landOne, hn]]
      exact ih fb raced races hS' hr hf

/-- Landings keep the canonical form, list only addresses that exist, and unwrite nothing. -/
theorem landAll_form (inFill : Bool) (n : Nat) (ws : List LateWrite) (fb raced : Memory) (races : Nat) :
    (fb.wf → (landAll inFill n ws fb raced races).1.wf) ∧ (raced.wf → (landAll inFill n ws fb raced races).2.1.wf) ∧
      (∀ c ∈ (landAll inFill n ws fb raced races).1, c ∈ fb ∨ c.1 < n) ∧
      (∀ c ∈ (landAll inFill n ws fb raced races).2.1, c ∈ raced ∨ c.1 < n) ∧
      ∀ a, (fb.written a).isSome → ((landAll inFill n ws fb raced races).1.written a).isSome := by
  induction ws generalizing fb raced races with
  | nil => exact ⟨id, id, fun c h => .inl h, fun c h => .inl h, fun a h => h⟩
  | cons w ws ih =>
    obtain ⟨h1, h2, h3, h4, h5⟩ := ih (landOne inFill n w fb raced races).1 (landOne inFill n w fb raced races).2.1
      (landOne inFill n w fb raced races).2.2
    rw [landAll]
    revert h1 h2 h3 h4 h5
    unfold landOne
    split <;> [skip; exact fun h1 h2 h3 h4 h5 => ⟨h1, h2, h3, h4, h5⟩]
    rename_i hn
    have mem {m : Memory} {v : Byte} {c : Host.Cell} (h : c ∈ m.write w.addr v) : c ∈ m ∨ c.1 < n :=
      (Memory.mem_write h).elim (fun h => .inr (h ▸ hn)) .inl
    have keep (m : Memory) (v : Byte) (a : Nat) (h : (m.written a).isSome) : ((m.write w.addr v).written a).isSome := by
      rw [Memory.written_write]; split <;> simp [h]
    intro h1 h2 h3 h4 h5
    exact ⟨fun h => h1 (Memory.write_wf h _ _), fun h => h2 (Memory.write_wf h _ _),
        fun c hc => (h3 c hc).elim mem .inr, fun c hc => (h4 c hc).elim mem .inr, fun a h => h5 a (keep _ _ _ h)⟩

/-! ## The state -/

/-- What landings outside the fill make of a state: late writes are only used up, and each byte is old or new. -/
structure Late (s t : State) : Prop where
  late : ∀ w ∈ t.late, w ∈ s.late
  fb : ∀ a, t.fb.written a = s.fb.written a ∨ ∃ w ∈ s.late, w.addr = a ∧ t.fb.written a = some w.val
  read : ∀ a, t.readByte a = s.readByte a ∨ ∃ w ∈ s.late, w.addr = a ∧ t.readByte a = w.val
  quiet : s.late = [] → t.fb = s.fb ∧ t.raced = s.raced ∧ t.races = s.races

theorem Late.refl (s : State) : Late s s := ⟨fun _ h => h, fun _ => .inl rfl, fun _ => .inl rfl, fun _ => ⟨rfl, rfl, rfl⟩⟩

theorem Late.trans {s t u : State} (h : Late s t) (h' : Late t u) : Late s u := by
  refine ⟨fun w hw => h.late w (h'.late w hw), fun a => ?_, fun a => ?_, fun hq => ?_⟩
  · rcases h'.fb a with e | ⟨w, hw, e⟩
    · rw [e]; exact h.fb a
    · exact .inr ⟨w, h.late w hw, e⟩
  · rcases h'.read a with e | ⟨w, hw, e⟩
    · rw [e]; exact h.read a
    · exact .inr ⟨w, h.late w hw, e⟩
  · obtain ⟨a, b, c⟩ := h.quiet hq
    have ht : t.late = [] := List.eq_nil_iff_forall_not_mem.2 fun w hw => by have := h.late w hw; simp [hq] at this
    obtain ⟨a', b', c'⟩ := h'.quiet ht
    exact ⟨a'.trans a, b'.trans b, c'.trans c⟩

theorem Late.nil {s t : State} (h : Late s t) (hq : s.late = []) : t.late = [] :=
  List.eq_nil_iff_forall_not_mem.2 fun w hw => by have := h.late w hw; simp [hq] at this

/-- Two states that agree on the memory and its late writes. -/
theorem Late.of_eq {s t : State} (h1 : t.fb = s.fb) (h2 : t.raced = s.raced) (h3 : t.races = s.races) (h4 : t.late = s.late) :
    Late s t :=
  ⟨fun w hw => h4 ▸ hw, fun a => .inl (by rw [h1]), fun a => .inl (by rw [State.readByte, State.readByte, h1, h2]),
    fun _ => ⟨h1, h2, h3⟩⟩

theorem landStep_late (s : State) : Late s (landStep false s) := by
  have hsub : ∀ w ∈ s.late.filter (·.seq = s.seq), w ∈ s.late := fun w hw => (List.mem_filter.1 hw).1
  refine ⟨fun w hw => (List.mem_filter.1 hw).1, fun a => ?_, fun a => ?_, fun hq => by simp [landStep, landAll, hq]⟩
  · exact (landAll_oldOrNew s.cfg.numBytes _ s.fb s.raced s.races a).1.imp id fun ⟨w, hw, h⟩ => ⟨w, hsub w hw, h⟩
  · exact (landAll_oldOrNew s.cfg.numBytes _ s.fb s.raced s.races a).2.imp id fun ⟨w, hw, h⟩ => ⟨w, hsub w hw, h⟩

/-- An address that no late write names is not touched, and is not contested by a landing of the fill. -/
theorem landStep_off {s : State} {a : Nat} (h : ∀ w ∈ s.late, w.addr ≠ a) (inFill : Bool) :
    (landStep inFill s).fb.written a = s.fb.written a ∧
      (landStep inFill s).raced.written a = if inFill then none else s.raced.written a := by
  obtain ⟨h1, h2⟩ := landAll_off inFill s.cfg.numBytes (s.late.filter (·.seq = s.seq)) s.fb (if inFill then [] else s.raced)
    s.races a fun w hw => h w (List.mem_filter.1 hw).1
  refine ⟨h1, h2.trans ?_⟩
  cases inFill <;> rfl

/-- What the landing before the fill makes of each address. -/
theorem landStep_fill (s : State) (a : Nat) :
    ((landStep true s).fb.written a = s.fb.written a ∨
        ∃ w ∈ s.late, w.addr = a ∧ (landStep true s).fb.written a = some w.val) ∧
      ∀ b, (landStep true s).raced.written a = some b →
        (b = 0xFF ∨ ∃ w ∈ s.late, w.addr = a ∧ b = w.val) ∧
          ∃ w ∈ s.late, w.addr = a ∧ (landStep true s).fb.written a = some w.val := by
  obtain ⟨h1, h2, h3⟩ := landAll_fill (S := fun b => ∃ w ∈ s.late, w.addr = a ∧ b = w.val) s.cfg.numBytes
    (s.late.filter (·.seq = s.seq)) s.fb [] s.races (fun w hw ha => ⟨w, (List.mem_filter.1 hw).1, ha, rfl⟩)
    (fun b hb => by simp [Memory.written] at hb) (fun hb => by simp [Memory.written] at hb)
  have low {m : Memory} : (∃ b, (∃ w ∈ s.late, w.addr = a ∧ b = w.val) ∧ m.written a = some b) →
      ∃ w ∈ s.late, w.addr = a ∧ m.written a = some w.val := fun ⟨_, ⟨w, hw, ha, e⟩, hb⟩ => ⟨w, hw, ha, e ▸ hb⟩
  exact ⟨h1.imp id low, fun b hb => ⟨h2 b hb, low (h3 (Option.isSome_iff_exists.2 ⟨b, hb⟩))⟩⟩

theorem landStep_late_sub {s : State} {inFill : Bool} {w : LateWrite} (h : w ∈ (landStep inFill s).late) : w ∈ s.late :=
  (List.mem_filter.1 h).1

/-- What has landed is used up. -/
theorem landStep_landed (inFill : Bool) (s : State) : ∀ w ∈ (landStep inFill s).late, w.seq ≠ (landStep inFill s).seq := by
  intro w hw
  have h : w ∈ s.late.filter (·.seq ≠ s.seq) := hw
  exact of_decide_eq_true (List.mem_filter.1 h).2

/-- The host's list of late writes is put in place, or an address of it does not exist. -/
theorem hostDuring_cases (ws : List LateWrite) (s : State) :
    ((∀ w ∈ ws, w.addr < s.cfg.numBytes) ∧ hostDuring ws s = .ok { s with late := ws }) ∨
      ∃ w ∈ ws, s.cfg.numBytes ≤ w.addr ∧ hostDuring ws s = .fault (.fbAddress w.addr) := by
  unfold hostDuring
  split
  · rename_i w h
    exact .inr ⟨w, List.mem_of_find?_eq_some h, by simpa using List.find?_some h, rfl⟩
  · rename_i h
    exact .inl ⟨by simpa using h, rfl⟩

/-- Landings keep the form of the memory and of what is still to land, and unwrite nothing. -/
theorem landStep_form (inFill : Bool) (s : State) :
    (s.MemoryOk → (landStep inFill s).MemoryOk) ∧ ∀ n, s.fb.filled n → (landStep inFill s).fb.filled n := by
  obtain ⟨h1, h2, h3, h4, h5⟩ := landAll_form inFill s.cfg.numBytes (s.late.filter (·.seq = s.seq)) s.fb
    (if inFill then [] else s.raced) s.races
  refine ⟨fun ⟨⟨fw, fa⟩, ⟨rw, ra⟩, l⟩ => ?_, fun n h a ha => h5 a (h a ha)⟩
  have hr : Memory.wf (if inFill then [] else s.raced) ∧
      ∀ c ∈ (if inFill then [] else s.raced), c.1 < s.cfg.numBytes := by
    cases inFill
    · exact ⟨rw, ra⟩
    · exact ⟨List.Pairwise.nil, by simp⟩
  exact ⟨⟨h1 fw, fun c hc => (h3 c hc).elim (fa c) id⟩, ⟨h2 hr.1, fun c hc => (h4 c hc).elim (hr.2 c) id⟩,
    fun w hw => l w (landStep_late_sub hw)⟩

/-- The state without the memory and its late writes. -/
def State.still (s : State) : State := { s with fb := [], raced := [], races := 0, late := [] }

/-- Two states that agree there, and in the memory and its late writes, are the same. -/
theorem eq_of_still {s t : State} (h : t.still = s.still) :
    t = { s with fb := t.fb, raced := t.raced, races := t.races, late := t.late } := by
  cases t; cases s
  simp only [State.still, State.mk.injEq] at h ⊢
  simp only [h, and_self]

/-- A step without a late write of its own lands nothing; a step of the fill forgets what landed before it. -/
theorem landStep_none {s : State} (h : ∀ w ∈ s.late, w.seq ≠ s.seq) (inFill : Bool) :
    landStep inFill s = { s with raced := if inFill then [] else s.raced } := by
  have h1 : s.late.filter (·.seq = s.seq) = [] := by simpa using h
  have h2 : s.late.filter (·.seq ≠ s.seq) = s.late := by simpa using h
  rw [landStep, h1, h2]; rfl

end Sys2Proof.Machine
end

