-- ==== Sys2Proof/Laws/Mapper.lean ====
section
/-! SUPPORT. The laws of the scan-order mapper (spec/43_scan_order_mapper.md): bounds, the inverse, and the working registers
against the closed form. -/

namespace Sys2Proof.Machine

/-- What validity says of the geometry (00_scope.md R7, R8). -/
theorem valid_geometry {c : Cfg} (h : c.valid = true) :
    ∃ q, 0 < q ∧ 0 < c.ph ∧ c.pw = 8 * q ∧ c.numBytes = q * c.ph ∧
      (c.orient = .rotated → c.wid = c.ph ∧ c.tbc = q) := by
  simp only [Cfg.valid, Bool.and_eq_true, decide_eq_true_eq] at h
  obtain ⟨⟨h8, hm⟩, hp⟩ := h
  refine ⟨c.pw / 8, by omega, by omega, by omega, ?_, ?_⟩
  · have : c.pw = 8 * (c.pw / 8) := by omega
    rw [Cfg.numBytes, this, Nat.mul_assoc]
    simp
  · intro ho; simp [Cfg.wid, Cfg.tbc, Cfg.logicalWidth, Cfg.logicalHeight, ho]

theorem valid_numBytes_pos {c : Cfg} (h : c.valid = true) : 0 < c.numBytes := by
  obtain ⟨q, hq, hp, -, hn, -⟩ := valid_geometry h
  rw [hn]; exact Nat.mul_pos hq hp

/-- `SrcIndex(k)` never leaves `0 .. N-1` (20_memory.md R56), whatever the geometry. -/
theorem srcIndex_lt {c : Cfg} {k : Nat} (hk : k < c.numBytes) : srcIndex c k < c.numBytes := by
  unfold srcIndex
  split
  · exact hk
  · rename_i ho
    have hw : c.wid = c.ph := by simp [Cfg.wid, Cfg.logicalWidth, ho]
    have ht : c.tbc = c.pw / 8 := by simp [Cfg.tbc, Cfg.logicalHeight, ho]
    have hN : c.pw / 8 * c.ph ≤ c.numBytes := by
      rw [Cfg.numBytes, Nat.le_div_iff_mul_le (by decide)]
      calc c.pw / 8 * c.ph * 8 = c.pw / 8 * 8 * c.ph := by ring
        _ ≤ c.pw * c.ph := Nat.mul_le_mul_right _ (Nat.div_mul_le_self _ _)
    rw [← ht] at hN
    rw [hw]
    rcases Nat.eq_zero_or_pos c.tbc with h0 | hpos
    · simp [h0]; omega
    · have hle : c.ph * (c.tbc - 1 - k % c.tbc) ≤ c.ph * (c.tbc - 1) := Nat.mul_le_mul_left _ (by omega)
      have hsplit : c.tbc * c.ph = c.ph * (c.tbc - 1) + c.ph := by
        obtain ⟨t, ht'⟩ : ∃ t, c.tbc = t + 1 := ⟨c.tbc - 1, by omega⟩
        rw [ht']; simp; ring
      by_cases hq : k / c.tbc < c.ph
      · omega
      · have h1 : c.ph * (c.tbc - 1) ≤ k / c.tbc * (c.tbc - 1) := Nat.mul_le_mul_right _ (by omega)
        have h2 : k / c.tbc * (c.tbc - 1) + k / c.tbc = k / c.tbc * c.tbc := by
          obtain ⟨t, ht'⟩ : ∃ t, c.tbc = t + 1 := ⟨c.tbc - 1, by omega⟩
          rw [ht']; simp; ring
        have h3 : k / c.tbc * c.tbc ≤ k := Nat.div_mul_le_self _ _
        omega

/-- The digits of a position (R154): column and byte-row stay in range. -/
theorem digits_of_index {q p i : Nat} (hp : 0 < p) (hi : i < q * p) :
    i % p < p ∧ i / p < q ∧ p * (i / p) + i % p = i := by
  refine ⟨Nat.mod_lt _ hp, ?_, Nat.div_add_mod i p⟩
  rw [Nat.div_lt_iff_lt_mul hp]; exact hi

/-- `SrcIndex` after its inverse (R155). -/
theorem srcIndex_sentAt {c : Cfg} (h : c.valid = true) {i : Nat} (hi : i < c.numBytes) :
    sentAt c i < c.numBytes ∧ srcIndex c (sentAt c i) = i := by
  obtain ⟨q, hq, hp, -, hn, hr⟩ := valid_geometry h
  rw [hn] at hi ⊢
  cases ho : c.orient with
  | native => simp [sentAt, srcIndex, ho, hi]
  | rotated =>
    obtain ⟨hw, ht⟩ := hr ho
    simp only [sentAt, srcIndex, ho, hw, ht]
    obtain ⟨h1, h2, h3⟩ := digits_of_index hp hi
    have hv : q - 1 - i / c.ph < q := Nat.lt_of_le_of_lt (Nat.sub_le _ _) (Nat.sub_lt hq Nat.one_pos)
    have hmod : (i % c.ph * q + (q - 1 - i / c.ph)) % q = q - 1 - i / c.ph := by
      rw [Nat.add_comm, Nat.add_mul_mod_self_right, Nat.mod_eq_of_lt hv]
    have hdiv : (i % c.ph * q + (q - 1 - i / c.ph)) / q = i % c.ph := by
      rw [Nat.add_comm, Nat.add_mul_div_right _ _ hq, Nat.div_eq_of_lt hv, Nat.zero_add]
    constructor
    · have : i % c.ph * q + q ≤ c.ph * q := by
        calc i % c.ph * q + q = (i % c.ph + 1) * q := by ring
          _ ≤ c.ph * q := Nat.mul_le_mul_right _ h1
      rw [Nat.mul_comm q]; omega
    · rw [hmod, hdiv]
      have : q - 1 - (q - 1 - i / c.ph) = i / c.ph := Nat.sub_sub_self (Nat.le_sub_one_of_lt h2)
      rw [this]; exact h3

/-- The inverse after `SrcIndex` (R155). -/
theorem sentAt_srcIndex {c : Cfg} (h : c.valid = true) {k : Nat} (hk : k < c.numBytes) :
    sentAt c (srcIndex c k) = k := by
  obtain ⟨q, hq, hp, -, hn, hr⟩ := valid_geometry h
  rw [hn] at hk
  cases ho : c.orient with
  | native => simp [sentAt, srcIndex, ho]
  | rotated =>
    obtain ⟨hw, ht⟩ := hr ho
    simp only [sentAt, srcIndex, ho, hw, ht]
    rw [Nat.mul_comm] at hk
    obtain ⟨h1, h2, h3⟩ := digits_of_index hq hk
    have hmod : (c.ph * (q - 1 - k % q) + k / q) % c.ph = k / q := by
      rw [Nat.mul_add_mod, Nat.mod_eq_of_lt h2]
    have hdiv : (c.ph * (q - 1 - k % q) + k / q) / c.ph = q - 1 - k % q := by
      rw [Nat.mul_add_div hp, Nat.div_eq_of_lt h2, Nat.add_zero]
    rw [hmod, hdiv, Nat.mul_comm]
    omega

/-! ## The working registers -/

/-- The working registers stand at stream position `k`. -/
def State.AtPosition (s : State) (k : Nat) : Prop :=
  s.k = k ∧ (s.cfg.orient = .rotated → s.hpc = k / s.cfg.tbc ∧ s.vbc = k % s.cfg.tbc)

@[simp] theorem mapStart_cfg (s : State) : s.mapStart.cfg = s.cfg := by unfold State.mapStart; split <;> rfl
@[simp] theorem mapAdvance_cfg (s : State) : s.mapAdvance.cfg = s.cfg := by
  unfold State.mapAdvance; split <;> [rfl; (split <;> rfl)]

theorem mapStart_atPosition (s : State) : s.mapStart.AtPosition 0 := by
  refine ⟨?_, fun ho => ?_⟩
  · unfold State.mapStart; split <;> rfl
  · simp only [mapStart_cfg] at ho
    simp [State.mapStart, ho]

/-- Advancing moves to the next position (R159). -/
theorem mapAdvance_atPosition {s : State} {k : Nat} (h : s.AtPosition k) : s.mapAdvance.AtPosition (k + 1) := by
  obtain ⟨hk, hr⟩ := h
  refine ⟨?_, fun ho => ?_⟩
  · unfold State.mapAdvance; split <;> [simp [hk]; (split <;> simp [hk])]
  · simp only [mapAdvance_cfg] at ho ⊢
    obtain ⟨hh, hv⟩ := hr ho
    simp only [State.mapAdvance, ho]
    rcases Nat.eq_zero_or_pos s.cfg.tbc with h0 | hpos
    · simp_all
    · have hlt := Nat.mod_lt k hpos
      have hdm := Nat.div_add_mod k s.cfg.tbc
      rw [hv]
      split
      · rename_i he
        have : k + 1 = s.cfg.tbc * (k / s.cfg.tbc + 1) := by rw [Nat.mul_add]; omega
        constructor
        · show s.hpc + 1 = _; rw [hh, this, Nat.mul_div_cancel_left _ hpos]
        · show 0 = _; rw [this, Nat.mul_mod_right]
      · rename_i he
        have hlt' : k % s.cfg.tbc + 1 < s.cfg.tbc := by omega
        have : k + 1 = s.cfg.tbc * (k / s.cfg.tbc) + (k % s.cfg.tbc + 1) := by omega
        constructor
        · show s.hpc = _
          rw [hh]; conv_rhs => rw [this, Nat.mul_add_div hpos, Nat.div_eq_of_lt hlt', Nat.add_zero]
        · show k % s.cfg.tbc + 1 = _
          conv_rhs => rw [this, Nat.mul_add_mod, Nat.mod_eq_of_lt hlt']

/-- At position `k` the mapper reads `SrcIndex(k)`. -/
theorem mapIndex_atPosition {s : State} {k : Nat} (h : s.AtPosition k) : s.mapIndex = srcIndex s.cfg k := by
  obtain ⟨hk, hr⟩ := h
  unfold State.mapIndex srcIndex
  split
  · exact hk
  · rename_i ho; obtain ⟨hh, hv⟩ := hr ho; rw [hh, hv]

theorem mapAdvance_iterate_cfg (s : State) (n : Nat) : (State.mapAdvance^[n] s).cfg = s.cfg := by
  induction n generalizing s with
  | zero => rfl
  | succ n ih => rw [Function.iterate_succ_apply, ih, mapAdvance_cfg]

theorem mapAdvance_iterate_atPosition {s : State} {k : Nat} (h : s.AtPosition k) (n : Nat) :
    (State.mapAdvance^[n] s).AtPosition (k + n) := by
  induction n generalizing s k with
  | zero => exact h
  | succ n ih =>
    rw [Function.iterate_succ_apply, Nat.add_comm n 1, ← Nat.add_assoc]
    exact ih (mapAdvance_atPosition h)

/-- The byte the mapper hands over at position `k < N` (R150): never a fault. -/
theorem mapByte_atPosition {s : State} {k : Nat} (h : s.AtPosition k) (hk : k < s.cfg.numBytes) :
    mapByte s = .ok (outByte s.cfg s.readByte k) := by
  have hi := srcIndex_lt hk
  simp [mapByte, memRead, mapIndex_atPosition h, hi, outByte]

end Sys2Proof.Machine
end

