-- ==== Sys2Proof/Laws/Script.lean ====
section
/-! SUPPORT. A normal form for everything the block does: a script of atomic actions. What a hardware reset, a transport
failure or nothing at all makes of a script is proved once here; the other files show that each operation is a script. -/

namespace Sys2Proof.Machine

/-! ## Sequencing -/

@[simp] theorem Res.bind_ok (s : State) (f : State → Res) : (Res.ok s).bind f = f s := rfl
@[simp] theorem Res.bind_stop (s : State) (f : State → Res) : (Res.stop s).bind f = .stop s := rfl
@[simp] theorem Res.bind_fault (r : Fault) (f : State → Res) : (Res.fault r).bind f = .fault r := rfl
@[simp] theorem Res.bind_refused (r : Refusal) (f : State → Res) : (Res.refused r).bind f = .refused r := rfl

theorem Res.bind_assoc (r : Res) (f g : State → Res) : (r.bind f).bind g = r.bind fun s => (f s).bind g := by
  cases r <;> rfl

theorem Res.bind_pure (r : Res) : r.bind .ok = r := by cases r <;> rfl

/-! ## Scripts -/

/-- An atomic action: a transport primitive, another event, a silent update, the landing of the host's late writes before a
step (70_reset_and_hazards.md R207), the reset check between the steps of a list (60_exceptions.md R177), or the end of a
transition in the busy-wait. -/
inductive Action where
  | primitive (ev : Event) (upd : State → State)
  | tick (ev : Event) (upd : State → State)
  | silent (upd : State → State)
  | land (inFill : Bool)
  | barrier
  | pause

def Action.run (a : Action) (s : State) : Res :=
  match a with
  | .primitive ev upd => Machine.primitive ev upd s
  | .tick ev upd => Machine.tick ev upd s
  | .silent upd => .ok (upd s)
  | .land inFill => .ok (landStep inFill s)
  | .barrier => if s.resetIn = some 0 then .stop (hardReset s) else .ok s
  | .pause => .stop s

def runScript : List Action → State → Res
  | [], s => .ok s
  | a :: as, s => (a.run s).bind (runScript as)

@[simp] theorem runScript_nil (s : State) : runScript [] s = .ok s := rfl
theorem runScript_cons (a : Action) (as : List Action) (s : State) :
    runScript (a :: as) s = (a.run s).bind (runScript as) := rfl

theorem runScript_append (as bs : List Action) (s : State) :
    runScript (as ++ bs) s = (runScript as s).bind (runScript bs) := by
  induction as generalizing s with
  | nil => rfl
  | cons a as ih =>
    simp only [List.cons_append, runScript_cons, Res.bind_assoc]
    congr 1; funext t; exact ih t

/-- The events of one action. -/
def Action.events : Action → List Event
  | .primitive ev _ => [ev]
  | .tick ev _ => [ev]
  | .silent _ => []
  | .land _ => []
  | .barrier => []
  | .pause => []

def scriptEvents (as : List Action) : List Event := as.flatMap Action.events

@[simp] theorem scriptEvents_nil : scriptEvents [] = [] := rfl
@[simp] theorem scriptEvents_cons (a : Action) (as : List Action) :
    scriptEvents (a :: as) = a.events ++ scriptEvents as := rfl
@[simp] theorem scriptEvents_append (as bs : List Action) :
    scriptEvents (as ++ bs) = scriptEvents as ++ scriptEvents bs := by simp [scriptEvents]

/-! ## What the events say of the state -/

/-- The framebuffer after a list of events (20_memory.md R53), with the addresses of `raced` contested (R207). -/
def memAfter (raced : Memory) (races : Nat) : Memory → List Event → Memory
  | m, [] => m
  | m, .fbWr a v :: es => memAfter raced races (m.write a (settle raced races m v a)) es
  | m, _ :: es => memAfter raced races m es

theorem selAfter_append (b : Bool) (es fs : List Event) : selAfter b (es ++ fs) = selAfter (selAfter b es) fs := by
  induction es generalizing b with
  | nil => rfl
  | cons e es ih => cases e <;> simp [selAfter, ih]

theorem modeAfter_append (m : Mode) (es fs : List Event) : modeAfter m (es ++ fs) = modeAfter (modeAfter m es) fs := by
  induction es generalizing m with
  | nil => rfl
  | cons e es ih => cases e <;> simp [modeAfter, ih]

theorem rstAfter_append (b : Bool) (es fs : List Event) : rstAfter b (es ++ fs) = rstAfter (rstAfter b es) fs := by
  induction es generalizing b with
  | nil => rfl
  | cons e es ih => cases e <;> simp [rstAfter, ih]

theorem memAfter_append (raced : Memory) (races : Nat) (m : Memory) (es fs : List Event) :
    memAfter raced races m (es ++ fs) = memAfter raced races (memAfter raced races m es) fs := by
  induction es generalizing m with
  | nil => rfl
  | cons e es ih => cases e <;> simp [memAfter, ih]

theorem pinsFollow_trans {s t u : State} {es fs : List Event} (h : s.PinsFollow t es) (h' : t.PinsFollow u fs) :
    s.PinsFollow u (es ++ fs) := by
  obtain ⟨h1, h2, h3⟩ := h
  obtain ⟨h4, h5, h6⟩ := h'
  exact ⟨by rw [h4, h1, selAfter_append], by rw [h5, h2, modeAfter_append], by rw [h6, h3, rstAfter_append]⟩

/-- The framebuffer of `t` is what the events `es` make of that of `s`, and no late write has landed. -/
structure MemFollows (s t : State) (es : List Event) : Prop where
  fb : t.fb = memAfter s.raced s.races s.fb es
  raced : t.raced = s.raced
  races : t.races = s.races
  late : t.late = s.late

theorem MemFollows.trans {s t u : State} {es fs : List Event} (h : MemFollows s t es) (h' : MemFollows t u fs) :
    MemFollows s u (es ++ fs) :=
  ⟨by rw [h'.fb, h.fb, h.raced, h.races, memAfter_append], h'.raced.trans h.raced, h'.races.trans h.races, h'.late.trans h.late⟩

/-- The signals and the framebuffer of `t` are what the events `es` make of those of `s`. -/
structure Follows (s t : State) (es : List Event) : Prop where
  pins : s.PinsFollow t es
  mem : MemFollows s t es

theorem Follows.trans {s t u : State} {es fs : List Event} (h : Follows s t es) (h' : Follows t u fs) :
    Follows s u (es ++ fs) := ⟨pinsFollow_trans h.pins h'.pins, h.mem.trans h'.mem⟩

/-- An event changes only the trace and the countdowns before its update. -/
theorem Follows.of_event {s t : State} {es fs : List Event} {tx : List Nat} {ri : Option Nat}
    (h : Follows { s with trace := es, txFail := tx, resetIn := ri } t fs) : Follows s t fs := ⟨h.pins, h.mem.fb, h.mem.raced, h.mem.races, h.mem.late⟩

theorem Follows.refl (s : State) : Follows s s [] := ⟨⟨rfl, rfl, rfl⟩, rfl, rfl, rfl, rfl⟩

/-! ## What every action keeps -/

/-- The fields no action of an operation writes, and the inputs it only counts down. -/
structure UpdKeeps (upd : State → State) : Prop where
  trace : ∀ s, (upd s).trace = s.trace
  cfg : ∀ s, (upd s).cfg = s.cfg
  txFail : ∀ s, (upd s).txFail = s.txFail
  resetIn : ∀ s, (upd s).resetIn = s.resetIn
  host : ∀ s, (upd s).host = s.host
  skip : ∀ s, (upd s).skip = s.skip
  err : ∀ s, (upd s).err = s.err
  ill : ∀ s, (upd s).ill = s.ill
  cause : ∀ s, (upd s).cause = s.cause

/-- An action as the operations use them: its event is of its kind, its update keeps those fields, and the signals and the
framebuffer follow its event (10_state.md R34). -/
def Action.Tame : Action → Prop
  | .primitive ev upd => ev.isPrimitive = true ∧ UpdKeeps upd ∧ ∀ s : State, Follows s (upd s) [ev]
  | .tick ev upd => ev.isPrimitive = false ∧ UpdKeeps upd ∧ ∀ s : State, Follows s (upd s) [ev]
  | .silent upd => UpdKeeps upd ∧ ∀ s : State, Follows s (upd s) []
  | .land _ => True
  | .barrier => True
  | .pause => True

def TameScript (as : List Action) : Prop := ∀ a ∈ as, a.Tame

@[simp] theorem tameScript_nil : TameScript [] := by simp [TameScript]
@[simp] theorem tameScript_cons {a : Action} {as : List Action} : TameScript (a :: as) ↔ a.Tame ∧ TameScript as := by
  simp [TameScript]
@[simp] theorem tameScript_append {as bs : List Action} : TameScript (as ++ bs) ↔ TameScript as ∧ TameScript bs := by
  simp only [TameScript, List.mem_append]
  exact ⟨fun h => ⟨fun a ha => h a (.inl ha), fun a ha => h a (.inr ha)⟩, fun h a ha => ha.elim (h.1 a) (h.2 a)⟩

/-! ## One action, by its cases -/

/-- A transport primitive does one of three things. -/
theorem primitive_cases (ev : Event) (upd : State → State) (s : State) :
    (s.resetIn = some 0 ∧ primitive ev upd s = .stop (hardReset s)) ∨
    (s.resetIn ≠ some 0 ∧ s.txFails = true ∧
      primitive ev upd s = .stop (transportError { s with txFail := s.txFail.tail })) ∨
    (s.resetIn ≠ some 0 ∧ s.txFails = false ∧ ∃ tx ri,
      primitive ev upd s = .ok (upd { s with trace := s.trace ++ [ev], txFail := tx, resetIn := ri })) := by
  have hc : ∃ tx, s.countTx = { s with txFail := tx } := by
    unfold State.countTx; split <;> [split; skip] <;> exact ⟨_, rfl⟩
  obtain ⟨tx, hc⟩ := hc
  unfold primitive
  rcases hr : s.resetIn with _ | _ | n
  · cases hf : s.txFails
    · exact .inr (.inr ⟨by simp, rfl, tx, none, by simp [tick, hc, hr]⟩)
    · exact .inr (.inl ⟨by simp, rfl, by simp⟩)
  · exact .inl ⟨rfl, rfl⟩
  · cases hf : s.txFails
    · exact .inr (.inr ⟨by simp, rfl, tx, some n, by simp [tick, hc, hr]⟩)
    · exact .inr (.inl ⟨by simp, rfl, by simp⟩)

/-- Any other event happens, unless the hardware reset is there first. -/
theorem tick_cases (ev : Event) (upd : State → State) (s : State) :
    (s.resetIn = some 0 ∧ tick ev upd s = .stop (hardReset s)) ∨
    (s.resetIn ≠ some 0 ∧ ∃ ri, tick ev upd s = .ok (upd { s with trace := s.trace ++ [ev], resetIn := ri })) := by
  unfold tick
  rcases hr : s.resetIn with _ | _ | n
  · exact .inr ⟨by simp, none, by simp [← hr]⟩
  · exact .inl ⟨rfl, rfl⟩
  · exact .inr ⟨by simp, some n, rfl⟩

theorem countTx_undisturbed {s : State} (h : s.cfg.hasTxErr = false ∨ s.txFail = []) : s.countTx = s := by
  unfold State.countTx
  rcases h with h | h <;> simp [h]

theorem txFails_undisturbed {s : State} (h : s.cfg.hasTxErr = false ∨ s.txFail = []) : s.txFails = false := by
  rcases h with h | h <;> simp [State.txFails, h]

theorem tick_undisturbed {s : State} (h : s.resetIn = none) (ev : Event) (upd : State → State) :
    tick ev upd s = .ok (upd { s with trace := s.trace ++ [ev] }) := by simp [tick, h]

theorem primitive_undisturbed {s : State} (h : s.Undisturbed) (ev : Event) (upd : State → State) :
    primitive ev upd s = .ok (upd { s with trace := s.trace ++ [ev] }) := by
  simp [primitive, h.1, txFails_undisturbed h.2, countTx_undisturbed h.2, tick_undisturbed]

/-! ## Whole scripts -/

/-- What every script keeps of the state it starts in. -/
structure Kept (s t : State) : Prop where
  cfg : t.cfg = s.cfg
  host : t.host = s.host
  skip : t.skip = s.skip
  err : t.err = s.err
  ill : t.ill = s.ill
  cause : t.cause = s.cause

theorem Kept.refl (s : State) : Kept s s := ⟨rfl, rfl, rfl, rfl, rfl, rfl⟩
theorem Kept.trans {s t u : State} (h : Kept s t) (h' : Kept t u) : Kept s u :=
  ⟨h'.cfg.trans h.cfg, h'.host.trans h.host, h'.skip.trans h.skip, h'.err.trans h.err, h'.ill.trans h.ill,
    h'.cause.trans h.cause⟩

theorem UpdKeeps.kept {upd : State → State} (h : UpdKeeps upd) (s : State) : Kept s (upd s) :=
  ⟨h.cfg s, h.host s, h.skip s, h.err s, h.ill s, h.cause s⟩

/-- An event's update, after the event itself. -/
theorem UpdKeeps.kept_event {upd : State → State} (h : UpdKeeps upd) (s : State) (es : List Event) (tx : List Nat)
    (ri : Option Nat) : Kept s (upd { s with trace := es, txFail := tx, resetIn := ri }) :=
  ⟨h.cfg _, h.host _, h.skip _, h.err _, h.ill _, h.cause _⟩

theorem landStep_keeps (inFill : Bool) : UpdKeeps (landStep inFill) := by constructor <;> intro _ <;> rfl

/-- With no late write to come and none landed, nothing lands. -/
theorem landStep_quiet {s : State} (h : s.late = []) (hr : s.raced = []) (inFill : Bool) : landStep inFill s = s := by
  cases s; cases inFill <;> simp_all [landStep, landAll]

/-- No late write lands in the script: it holds no landing, or there is none to land. -/
def Calm (as : List Action) (s : State) : Prop := (∀ f, Action.land f ∉ as) ∨ (s.late = [] ∧ s.raced = [])

theorem Calm.tail {a : Action} {as : List Action} {s t : State} (h : Calm (a :: as) s) (h1 : t.late = s.late)
    (h2 : t.raced = s.raced) : Calm as t :=
  h.imp (fun h f hf => h f (List.mem_cons_of_mem _ hf)) fun h => ⟨h1.trans h.1, h2.trans h.2⟩

/-- What a script's events say of the state it has reached. -/
structure Traced (as : List Action) (s t : State) (es : List Event) : Prop where
  pins : s.PinsFollow t es
  mem : Calm as s → MemFollows s t es

theorem Traced.refl (as : List Action) (s : State) : Traced as s s [] := ⟨⟨rfl, rfl, rfl⟩, fun _ => ⟨rfl, rfl, rfl, rfl⟩⟩

/-- An action of known effect, and then the rest. -/
theorem Traced.cons {a : Action} {as : List Action} {s t u : State} {es fs : List Event} (h : Follows s t es)
    (h' : Traced as t u fs) : Traced (a :: as) s u (es ++ fs) :=
  ⟨pinsFollow_trans h.pins h'.pins, fun hc => h.mem.trans (h'.mem (hc.tail h.mem.late h.mem.raced))⟩

/-- A landing, and then the rest. -/
theorem Traced.land {f : Bool} {as : List Action} {s u : State} {es : List Event} (h : Traced as (landStep f s) u es) :
    Traced (.land f :: as) s u es := by
  refine ⟨h.pins, fun hc => ?_⟩
  rcases hc with hc | hc
  · exact absurd (List.mem_cons_self) (hc f)
  · rw [landStep_quiet hc.1 hc.2] at h
    exact h.mem (.inr hc)

/-- A script without a pause. -/
def Unpaused (as : List Action) : Prop := ∀ a ∈ as, a ≠ .pause

@[simp] theorem unpaused_nil : Unpaused [] := by simp [Unpaused]
@[simp] theorem unpaused_cons {a : Action} {as : List Action} : Unpaused (a :: as) ↔ a ≠ .pause ∧ Unpaused as := by
  simp [Unpaused]
@[simp] theorem unpaused_append {as bs : List Action} : Unpaused (as ++ bs) ↔ Unpaused as ∧ Unpaused bs := by
  simp only [Unpaused, List.mem_append]
  exact ⟨fun h => ⟨fun a ha => h a (.inl ha), fun a ha => h a (.inr ha)⟩, fun h a ha => ha.elim (h.1 a) (h.2 a)⟩

/-- A script has run from `s` to its end in `t` with all its events and no disturbance. -/
structure RanFully (as : List Action) (s t : State) : Prop where
  run : runScript as s = .ok t
  trace : t.trace = s.trace ++ scriptEvents as
  follows : Traced as s t (scriptEvents as)
  kept : Kept s t
  txFail : t.txFail = s.txFail
  resetIn : t.resetIn = none

/-- Undisturbed, a script without a pause runs to its end with all its events. -/
theorem runScript_undisturbed {as : List Action} (ht : TameScript as) (hp : Unpaused as) {s : State}
    (hs : s.Undisturbed) : ∃ t, RanFully as s t := by
  induction as generalizing s with
  | nil => exact ⟨s, rfl, by simp, .refl _ s, .refl s, rfl, hs.1⟩
  | cons a as ih =>
    rw [tameScript_cons] at ht
    rw [unpaused_cons] at hp
    have key : ∀ u : State, a.run s = .ok u → u.trace = s.trace ++ a.events →
        (∀ t, Traced as u t (scriptEvents as) → Traced (a :: as) s t (a.events ++ scriptEvents as)) → Kept s u →
        u.txFail = s.txFail → u.resetIn = none → ∃ t, RanFully (a :: as) s t := fun u h1 h2 h3 h4 h5 h6 => by
      have hu : u.Undisturbed := ⟨h6, by rw [h4.cfg, h5]; exact hs.2⟩
      obtain ⟨t, r⟩ := ih ht.2 hp.2 hu
      exact ⟨t, by rw [runScript_cons, h1, Res.bind_ok, r.run], by rw [r.trace, h2]; simp, h3 t r.follows,
        h4.trans r.kept, r.txFail.trans h5, r.resetIn⟩
    cases a with
    | primitive ev upd =>
      obtain ⟨-, hk, hpin⟩ := ht.1
      refine key _ (primitive_undisturbed hs ev upd) ?_ ?_ ?_ ?_ ?_
      · rw [hk.trace]; rfl
      · exact fun t => .cons (hpin { s with trace := s.trace ++ [ev] }).of_event
      · exact (hk.kept_event s _ _ _)
      · rw [hk.txFail]
      · rw [hk.resetIn]; exact hs.1
    | tick ev upd =>
      obtain ⟨-, hk, hpin⟩ := ht.1
      refine key _ (tick_undisturbed hs.1 ev upd) ?_ ?_ ?_ ?_ ?_
      · rw [hk.trace]; rfl
      · exact fun t => .cons (hpin { s with trace := s.trace ++ [ev] }).of_event
      · exact (hk.kept_event s _ _ _)
      · rw [hk.txFail]
      · rw [hk.resetIn]; exact hs.1
    | silent upd =>
      obtain ⟨hk, hpin⟩ := ht.1
      exact key _ rfl (by rw [hk.trace]; simp [Action.events]) (fun t => .cons (hpin s)) (hk.kept s) (hk.txFail s)
        (by rw [hk.resetIn]; exact hs.1)
    | land f =>
      exact key (landStep f s) rfl (by simp [Action.events, landStep]) (fun t => .land) ((landStep_keeps f).kept s) rfl hs.1
    | barrier =>
      exact key s (by simp [Action.run, hs.1]) (by simp [Action.events]) (fun t => .cons (.refl s)) (.refl s) rfl hs.1
    | pause => exact absurd rfl hp.1

/-- A script that pauses after an unpaused part stops there. -/
theorem runScript_paused {as bs : List Action} (ht : TameScript as) (hp : Unpaused as) {s : State}
    (hs : s.Undisturbed) :
    ∃ t, runScript (as ++ .pause :: bs) s = .stop t ∧ RanFully as s t := by
  obtain ⟨t, r⟩ := runScript_undisturbed ht hp hs
  exact ⟨t, by rw [runScript_append, r.run]; rfl, r⟩

/-- A transport failure after `j` primitives cuts a script at that primitive (60_exceptions.md R172, R178). -/
theorem runScript_txCut {as : List Action} (ht : TameScript as) (hp : Unpaused as) {s : State} {j : Nat} {later : List Nat}
    (hr : s.resetIn = none) (he : s.cfg.hasTxErr = true) (htx : s.txFail = j :: later)
    (hj : j < primitiveCount (scriptEvents as)) :
    ∃ u, runScript as s = .stop (transportError u) ∧ u.trace = s.trace ++ cutAtPrimitive j (scriptEvents as) ∧
      Traced as s u (cutAtPrimitive j (scriptEvents as)) ∧ Kept s u ∧ u.txFail = later := by
  induction as generalizing s j with
  | nil => simp [primitiveCount] at hj
  | cons a as ih =>
    rw [tameScript_cons] at ht
    rw [unpaused_cons] at hp
    cases a with
    | primitive ev upd =>
      obtain ⟨hev, hk, hpin⟩ := ht.1
      cases j with
      | zero =>
        refine ⟨{ s with txFail := later }, ?_, ?_, ?_, ⟨rfl, rfl, rfl, rfl, rfl, rfl⟩, rfl⟩
        · simp [runScript_cons, Action.run, primitive, hr, State.txFails, he, htx]
        · simp [Action.events, cutAtPrimitive, hev]
        · simpa [Action.events, cutAtPrimitive, hev] using
            (⟨⟨rfl, rfl, rfl⟩, fun _ => ⟨rfl, rfl, rfl, rfl⟩⟩ :
              Traced (.primitive ev upd :: as) s { s with txFail := later } [])
      | succ j =>
        have h1 : (Action.primitive ev upd).run s =
            .ok (upd { s with trace := s.trace ++ [ev], txFail := j :: later }) := by
          simp [Action.run, primitive, hr, State.txFails, he, htx, State.countTx, tick]
        set v := upd { s with trace := s.trace ++ [ev], txFail := j :: later } with hv
        have hj' : j < primitiveCount (scriptEvents as) := by
          simp [primitiveCount, Action.events, hev] at hj ⊢; omega
        obtain ⟨u, r1, r2, r3, r4, r5⟩ := ih (s := v) (j := j) ht.2 hp.2 (by rw [hv, hk.resetIn]; exact hr)
          (by rw [hv, hk.cfg]; exact he) (by rw [hv, hk.txFail]) hj'
        refine ⟨u, by rw [runScript_cons, h1, Res.bind_ok, r1], ?_, ?_, ?_, r5⟩
        · rw [r2, hv, hk.trace]; simp [Action.events, cutAtPrimitive, hev]
        · have := Traced.cons (a := .primitive ev upd) (hpin { s with trace := s.trace ++ [ev], txFail := j :: later }).of_event r3
          simpa [Action.events, cutAtPrimitive, hev] using this
        · exact (hk.kept_event s _ _ _).trans r4
    | tick ev upd =>
      obtain ⟨hev, hk, hpin⟩ := ht.1
      set v := upd { s with trace := s.trace ++ [ev] } with hv
      have hj' : j < primitiveCount (scriptEvents as) := by
        simpa [primitiveCount, Action.events, List.countP_cons, hev] using hj
      obtain ⟨u, r1, r2, r3, r4, r5⟩ := ih (s := v) (j := j) ht.2 hp.2 (by rw [hv, hk.resetIn]; exact hr)
        (by rw [hv, hk.cfg]; exact he) (by rw [hv, hk.txFail]; exact htx) hj'
      refine ⟨u, by rw [runScript_cons, Action.run, tick_undisturbed hr, Res.bind_ok, r1], ?_, ?_, ?_, r5⟩
      · rw [r2, hv, hk.trace]; simp [Action.events, cutAtPrimitive, hev]
      · have := Traced.cons (a := .tick ev upd) (hpin { s with trace := s.trace ++ [ev] }).of_event r3
        simpa [Action.events, cutAtPrimitive, hev] using this
      · exact (hk.kept_event s _ _ _).trans r4
    | silent upd =>
      obtain ⟨hk, hpin⟩ := ht.1
      obtain ⟨u, r1, r2, r3, r4, r5⟩ := ih (s := upd s) (j := j) ht.2 hp.2 (by rw [hk.resetIn]; exact hr)
        (by rw [hk.cfg]; exact he) (by rw [hk.txFail]; exact htx) hj
      refine ⟨u, r1, by rw [r2, hk.trace]; rfl, ?_, (hk.kept s).trans r4, r5⟩
      simpa [Action.events] using Traced.cons (a := .silent upd) (hpin s) r3
    | land f =>
      obtain ⟨u, r1, r2, r3, r4, r5⟩ := ih (s := landStep f s) (j := j) ht.2 hp.2 hr he htx hj
      exact ⟨u, r1, r2, .land r3, ((landStep_keeps f).kept s).trans r4, r5⟩
    | barrier =>
      obtain ⟨u, r1, r2, r3, r4⟩ := ih (s := s) ht.2 hp.2 hr he htx hj
      exact ⟨u, by simp [runScript_cons, Action.run, hr, r1], r2, Traced.cons (.refl s) r3, r4⟩
    | pause => exact absurd rfl hp.1

/-- A hardware reset after `j` events cuts a script there (70_reset_and_hazards.md R196). -/
theorem runScript_resetCut {as : List Action} (ht : TameScript as) (hp : Unpaused as) {s : State} {j : Nat}
    (hs : s.cfg.hasTxErr = false ∨ s.txFail = []) (hr : s.resetIn = some j) (hj : j < (scriptEvents as).length) :
    ∃ u, runScript as s = .stop (hardReset u) ∧ u.trace = s.trace ++ (scriptEvents as).take j ∧ Kept s u := by
  induction as generalizing s j with
  | nil => simp at hj
  | cons a as ih =>
    rw [tameScript_cons] at ht
    rw [unpaused_cons] at hp
    have event : ∀ (ev : Event) (upd : State → State), UpdKeeps upd → a.events = [ev] →
        (j = 0 → a.run s = .stop (hardReset s)) →
        (∀ n, j = n + 1 → a.run s = .ok (upd { s with trace := s.trace ++ [ev], resetIn := some n })) →
        ∃ u, runScript (a :: as) s = .stop (hardReset u) ∧
          u.trace = s.trace ++ (scriptEvents (a :: as)).take j ∧ Kept s u := by
      intro ev upd hk hev h0 h1
      cases j with
      | zero => exact ⟨s, by rw [runScript_cons, h0 rfl]; rfl, by simp, .refl s⟩
      | succ n =>
        obtain ⟨u, r1, r2, r3⟩ := ih (s := upd { s with trace := s.trace ++ [ev], resetIn := some n }) (j := n) ht.2 hp.2
          (by rw [hk.cfg, hk.txFail]; exact hs) (by rw [hk.resetIn]) (by simp [hev] at hj; omega)
        refine ⟨u, by rw [runScript_cons, h1 n rfl, Res.bind_ok, r1], ?_, ?_⟩
        · rw [r2, hk.trace]; simp [hev]
        · exact (hk.kept_event s _ _ _).trans r3
    cases a with
    | primitive ev upd =>
      refine event ev upd ht.1.2.1 rfl (fun h => ?_) (fun n h => ?_)
      · simp [Action.run, primitive, hr, h]
      · simp [Action.run, primitive, hr, h, txFails_undisturbed hs, countTx_undisturbed hs, tick]
    | tick ev upd =>
      refine event ev upd ht.1.2.1 rfl (fun h => ?_) (fun n h => ?_)
      · simp [Action.run, tick, hr, h]
      · simp [Action.run, tick, hr, h]
    | silent upd =>
      obtain ⟨hk, -⟩ := ht.1
      obtain ⟨u, r1, r2, r3⟩ := ih (s := upd s) (j := j) ht.2 hp.2
        (by rw [hk.cfg, hk.txFail]; exact hs) (by rw [hk.resetIn]; exact hr) hj
      exact ⟨u, r1, by rw [r2, hk.trace]; rfl, (hk.kept s).trans r3⟩
    | land f =>
      obtain ⟨u, r1, r2, r3⟩ := ih (s := landStep f s) (j := j) ht.2 hp.2 hs hr hj
      exact ⟨u, r1, r2, ((landStep_keeps f).kept s).trans r3⟩
    | barrier =>
      cases j with
      | zero => exact ⟨s, by simp [runScript_cons, Action.run, hr], by simp, .refl s⟩
      | succ n =>
        obtain ⟨u, r1, r2⟩ := ih (s := s) ht.2 hp.2 hs hr hj
        exact ⟨u, by simp [runScript_cons, Action.run, hr, r1], r2⟩
    | pause => exact absurd rfl hp.1

/-! ## Every way a script can end -/

/-- A property every effect of an action keeps. -/
def Action.Respects (P : State → Prop) : Action → Prop
  | .primitive ev upd => ∀ s tx ri, P s → P (upd { s with trace := s.trace ++ [ev], txFail := tx, resetIn := ri })
  | .tick ev upd => ∀ s tx ri, P s → P (upd { s with trace := s.trace ++ [ev], txFail := tx, resetIn := ri })
  | .silent upd => ∀ s, P s → P (upd s)
  | .land f => ∀ s, P s → P (landStep f s)
  | .barrier => True
  | .pause => True

/-- How a script ends: it has run to its end in `u`, or stops at a state `u` it has reached, there as it stands (a pause), or
with a hardware reset or a TransportError taken. -/
def EndsAt (as : List Action) (s u : State) (es : List Event) : Prop :=
  (runScript as s = .ok u ∧ es = scriptEvents as) ∨ (runScript as s = .stop u ∧ .pause ∈ as) ∨
    (runScript as s = .stop (hardReset u) ∧ s.resetIn ≠ none) ∨ runScript as s = .stop (transportError u)

/-- What is known of the state a script has reached: `es`, a first part of the script's events, has happened. -/
structure Reached (as : List Action) (P : State → Prop) (s u : State) (es : List Event) : Prop where
  events : es <+: scriptEvents as
  trace : u.trace = s.trace ++ es
  prop : P u
  kept : Kept s u
  follows : Traced as s u es
  quiet : s.resetIn = none → u.resetIn = none
  ends : EndsAt as s u es

/-- Every end of a script. What every action respects holds of the state reached. -/
theorem runScript_ends {as : List Action} (ht : TameScript as) {P : State → Prop}
    (hP : ∀ s tx, P s → P { s with txFail := tx }) (hr : ∀ a ∈ as, a.Respects P) {s : State} (hs : P s) :
    ∃ u es, Reached as P s u es := by
  induction as generalizing s with
  | nil => exact ⟨s, [], by simp, by simp, hs, .refl s, .refl _ s, id, .inl ⟨rfl, rfl⟩⟩
  | cons a as ih =>
    rw [tameScript_cons] at ht
    have here : ∀ u : State, P u → u.trace = s.trace → Kept s u → Traced (a :: as) s u [] → u.resetIn = s.resetIn →
        EndsAt (a :: as) s u [] → ∃ u es, Reached (a :: as) P s u es := fun u hu h1 h2 h3 h4 h5 =>
      ⟨u, [], by simp, by simp [h1], hu, h2, h3, fun h => h4.trans h, h5⟩
    have next : ∀ v : State, a.run s = .ok v → P v → v.trace = s.trace ++ a.events → Kept s v →
        (∀ u es, Traced as v u es → Traced (a :: as) s u (a.events ++ es)) → (v.resetIn ≠ none → s.resetIn ≠ none) → ∃ u es, Reached (a :: as) P s u es := fun v h1 h2 h3 h4 h5 h6 => by
      obtain ⟨u, es, r⟩ := ih ht.2 (fun b hb => hr b (List.mem_cons_of_mem _ hb)) h2
      have hrun : runScript (a :: as) s = runScript as v := by rw [runScript_cons, h1, Res.bind_ok]
      refine ⟨u, a.events ++ es, ?_, by rw [r.trace, h3]; simp, r.prop, h4.trans r.kept, h5 _ _ r.follows, fun hn => r.quiet (Classical.byContradiction fun h => h6 h hn), ?_⟩
      · rw [scriptEvents_cons]; exact (List.prefix_append_right_inj _).2 r.events
      · unfold EndsAt
        rw [hrun]
        rcases r.ends with ⟨h, he⟩ | ⟨h, hm⟩ | ⟨h, hn⟩ | h
        · exact .inl ⟨h, by rw [he, scriptEvents_cons]⟩
        · exact .inr (.inl ⟨h, List.mem_cons_of_mem _ hm⟩)
        · exact .inr (.inr (.inl ⟨h, h6 hn⟩))
        · exact .inr (.inr (.inr h))
    have ha := hr a (by simp)
    cases a with
    | primitive ev upd =>
      obtain ⟨-, hk, hpin⟩ := ht.1
      rcases primitive_cases ev upd s with ⟨h0, h⟩ | ⟨-, -, h⟩ | ⟨h0, -, tx, ri, h⟩
      · exact here s hs rfl (.refl s) (.refl _ s) rfl (.inr (.inr (.inl ⟨by rw [runScript_cons, Action.run, h]; rfl, by simp [h0]⟩)))
      · exact here { s with txFail := s.txFail.tail } (hP s _ hs) rfl ⟨rfl, rfl, rfl, rfl, rfl, rfl⟩
          ⟨⟨rfl, rfl, rfl⟩, fun _ => ⟨rfl, rfl, rfl, rfl⟩⟩ rfl
          (.inr (.inr (.inr (by rw [runScript_cons, Action.run, h]; rfl))))
      · refine next _ h (ha s tx ri hs) (by rw [hk.trace]; rfl)
          (hk.kept_event s _ _ _)
          (fun u es => .cons (hpin { s with trace := s.trace ++ [ev], txFail := tx, resetIn := ri }).of_event) fun hne hn => hne ?_
        have hcfg : (s.countTx).resetIn = none := by
          rw [← hn]; unfold State.countTx; split <;> [split; skip] <;> rfl
        rw [primitive, hn] at h
        simp only [tick, hcfg] at h
        split at h
        · cases h
        · injection h with h; rw [← h, hk.resetIn]
    | tick ev upd =>
      obtain ⟨-, hk, hpin⟩ := ht.1
      rcases tick_cases ev upd s with ⟨h0, h⟩ | ⟨h0, ri, h⟩
      · exact here s hs rfl (.refl s) (.refl _ s) rfl (.inr (.inr (.inl ⟨by rw [runScript_cons, Action.run, h]; rfl, by simp [h0]⟩)))
      · refine next _ h (ha s s.txFail ri hs) (by rw [hk.trace]; rfl)
          (hk.kept_event s _ _ _)
          (fun u es => .cons (hpin { s with trace := s.trace ++ [ev], resetIn := ri }).of_event) fun hne hn => hne ?_
        rw [tick_undisturbed hn] at h
        injection h with h; rw [← h, hk.resetIn]; exact hn
    | silent upd =>
      obtain ⟨hk, hpin⟩ := ht.1
      exact next _ rfl (ha s hs) (by rw [hk.trace]; simp [Action.events]) (hk.kept s) (fun u es => .cons (hpin s))
        (by rw [hk.resetIn]; exact id)
    | land f =>
      exact next (landStep f s) rfl (ha s hs) (by simp [Action.events, landStep]) ((landStep_keeps f).kept s) (fun u es => .land) id
    | barrier =>
      by_cases h0 : s.resetIn = some 0
      · exact here s hs rfl (.refl s) (.refl _ s) rfl
          (.inr (.inr (.inl ⟨by simp [runScript_cons, Action.run, h0], by simp [h0]⟩)))
      · exact next s (by simp [Action.run, h0]) hs (by simp [Action.events]) (.refl s) (fun u es => .cons (.refl s)) id
    | pause => exact here s hs rfl (.refl s) (.refl _ s) rfl (.inr (.inl ⟨rfl, by simp⟩))

end Sys2Proof.Machine
end

