-- ==== Sys2Proof/Laws/Scripted.lean ====
section
/-! SUPPORT. What the shared operations do, said once: each is a script of actions, and so whatever ends it early, or nothing does,
is known from Laws/Script.lean. -/

namespace Sys2Proof.Machine

/-! ## What a panel command cannot touch -/

/-- The state without what a panel command may write: the trace, the countdowns, `sel`, `mode`, the working registers. -/
def State.view (s : State) : State :=
  { s with
    trace := [], txFail := [], resetIn := none, sel := false, mode := .cmd, ai := 0, k := 0, hpc := 0, vbc := 0
    timer := 0 }

/-- `s` has the view `v`. -/
abbrev Seen (v s : State) : Prop := s.view = v

/-- `s` has the view `v`, and its mapper stands at stream position `k`. -/
abbrev SeenAt (v : State) (k : Nat) (s : State) : Prop := s.view = v ∧ s.AtPosition k

theorem Seen.cfg {v s : State} (h : Seen v s) : s.cfg = v.cfg := by rw [← h]; rfl
theorem Seen.fb {v s : State} (h : Seen v s) : s.fb = v.fb := by rw [← h]; rfl
theorem Seen.raced {v s : State} (h : Seen v s) : s.raced = v.raced := by rw [← h]; rfl
theorem Seen.races {v s : State} (h : Seen v s) : s.races = v.races := by rw [← h]; rfl
theorem Seen.readByte {v s : State} (h : Seen v s) : s.readByte = v.readByte := by
  funext a; simp only [State.readByte, h.fb, h.raced]
theorem Seen.curFull {v s : State} (h : Seen v s) : s.curFull = v.curFull := by rw [← h]; rfl
theorem Seen.busyIn {v s : State} (h : Seen v s) : s.busyIn = v.busyIn := by rw [← h]; rfl
theorem Seen.busyDraws {v s : State} (h : Seen v s) : s.busyDraws = v.busyDraws := by rw [← h]; rfl

/-- Two states with the same view differ in what a panel command may write, and nowhere else. -/
theorem eq_of_view {s t : State} (h : t.view = s.view) :
    t = { s with
      trace := t.trace, txFail := t.txFail, resetIn := t.resetIn, sel := t.sel, mode := t.mode, ai := t.ai, k := t.k
      hpc := t.hpc, vbc := t.vbc, timer := t.timer } := by
  cases t; cases s
  simp only [State.view, State.mk.injEq] at h ⊢
  simp only [h, and_self]

/-- A property that the primitives of the Command Channel keep. -/
def Stable (P : State → Prop) : Prop :=
  ∀ (s : State) (es : List Event) (tx : List Nat) (ri : Option Nat) (b : Bool) (m : Mode) (a : Nat),
    P s → P { s with trace := es, txFail := tx, resetIn := ri, sel := b, mode := m, ai := a }

theorem seen_stable (v : State) : Stable (Seen v) := fun _ _ _ _ _ _ _ h => h
theorem seenAt_stable (v : State) (k : Nat) : Stable (SeenAt v k) := fun _ _ _ _ _ _ _ h => h

/-! ## Operations as scripts -/

/-- From states with `P`, `f` is the script `as`, and where it runs to its end it leaves a state with `Q`. -/
structure Scripted (f : State → Res) (as : List Action) (P Q : State → Prop) : Prop where
  eq : ∀ s, P s → f s = runScript as s
  post : ∀ s t, P s → runScript as s = .ok t → Q t
  tame : TameScript as

theorem Scripted.ok (P : State → Prop) : Scripted .ok [] P P :=
  ⟨fun _ _ => rfl, fun s t h e => by simp at e; exact e ▸ h, by simp⟩

theorem Scripted.bind {f g : State → Res} {as bs : List Action} {P Q R : State → Prop} (hf : Scripted f as P Q)
    (hg : Scripted g bs Q R) : Scripted (fun s => (f s).bind g) (as ++ bs) P R := by
  refine ⟨fun s h => ?_, fun s t h e => ?_, tameScript_append.2 ⟨hf.tame, hg.tame⟩⟩
  · rw [hf.eq s h, runScript_append]
    cases hr : runScript as s with
    | ok t => exact hg.eq t (hf.post s t h hr)
    | stop t => rfl
    | fault r => rfl
    | refused r => rfl
  · rw [runScript_append] at e
    cases hr : runScript as s with
    | ok u => rw [hr, Res.bind_ok] at e; exact hg.post u t (hf.post s u h hr) e
    | stop u => rw [hr] at e; cases e
    | fault r => rw [hr] at e; cases e
    | refused r => rw [hr] at e; cases e

theorem Scripted.congr {f g : State → Res} {as : List Action} {P Q : State → Prop} (h : Scripted f as P Q)
    (he : ∀ s, P s → g s = f s) : Scripted g as P Q :=
  ⟨fun s hs => (he s hs).trans (h.eq s hs), h.post, h.tame⟩

theorem Scripted.weaken {f : State → Res} {as : List Action} {P P' Q Q' : State → Prop} (h : Scripted f as P Q)
    (hp : ∀ s, P' s → P s) (hq : ∀ s, Q s → Q' s) : Scripted f as P' Q' :=
  ⟨fun s hs => h.eq s (hp s hs), fun s t hs e => hq t (h.post s t (hp s hs) e), h.tame⟩

theorem Scripted.silent {upd : State → State} {P Q : State → Prop} (hk : UpdKeeps upd)
    (hf : ∀ s, Follows s (upd s) []) (h : ∀ s, P s → Q (upd s)) : Scripted (fun s => .ok (upd s)) [.silent upd] P Q :=
  ⟨fun _ _ => rfl, fun s t hs e => by
    simp only [runScript_cons, Action.run, Res.bind_ok, runScript_nil, Res.ok.injEq] at e
    exact e ▸ h s hs, by simp [Action.Tame, hk, hf]⟩

/-- A silent update before an operation. -/
theorem Scripted.after {f : State → Res} {as : List Action} {upd : State → State} {P Q R : State → Prop}
    (h : Scripted f as Q R) (hk : UpdKeeps upd) (hf : ∀ s, Follows s (upd s) []) (hq : ∀ s, P s → Q (upd s)) :
    Scripted (fun s => f (upd s)) (.silent upd :: as) P R :=
  ((Scripted.silent hk hf hq).bind h).congr fun _ _ => rfl

theorem Scripted.primitive {ev : Event} {upd : State → State} {P Q : State → Prop} (ht : (Action.primitive ev upd).Tame)
    (h : ∀ s es tx ri, P s → Q (upd { s with trace := es, txFail := tx, resetIn := ri })) :
    Scripted (Machine.primitive ev upd) [.primitive ev upd] P Q := by
  refine ⟨fun s _ => by rw [runScript_cons]; exact (Res.bind_pure _).symm, fun s t hs e => ?_, by simpa using ht⟩
  rw [runScript_cons] at e
  rcases primitive_cases ev upd s with ⟨-, hr⟩ | ⟨-, -, hr⟩ | ⟨-, -, tx, ri, hr⟩ <;>
    simp only [Action.run, hr, Res.bind_ok, Res.bind_stop, runScript_nil, Res.ok.injEq, reduceCtorEq] at e
  exact e ▸ h s _ tx ri hs

theorem Scripted.tick {ev : Event} {upd : State → State} {P Q : State → Prop} (ht : (Action.tick ev upd).Tame)
    (h : ∀ s es ri, P s → Q (upd { s with trace := es, resetIn := ri })) :
    Scripted (Machine.tick ev upd) [.tick ev upd] P Q := by
  refine ⟨fun s _ => by rw [runScript_cons]; exact (Res.bind_pure _).symm, fun s t hs e => ?_, by simpa using ht⟩
  rw [runScript_cons] at e
  rcases tick_cases ev upd s with ⟨-, hr⟩ | ⟨-, ri, hr⟩ <;>
    simp only [Action.run, hr, Res.bind_ok, Res.bind_stop, runScript_nil, Res.ok.injEq, reduceCtorEq] at e
  exact e ▸ h s _ ri hs

/-! ## Transport primitives and delays -/

def selAct (b : Bool) : Action := .primitive (.sel b) fun s => { s with sel := b }
def modeAct (m : Mode) : Action := .primitive (.mode m) fun s => { s with mode := m }
def rstAct (high : Bool) : Action := .primitive (.rst high) fun s => { s with rstl := high }
def wrAct (bs : List Byte) : Action := .primitive (.wr bs) id
def busyAct (b : Bool) : Action := .primitive (.busy b) State.takeBusy
def aiAct (n : Nat) : Action := .silent fun s => { s with ai := n }

@[simp] theorem selAct_events (b : Bool) : (selAct b).events = [.sel b] := rfl
@[simp] theorem modeAct_events (m : Mode) : (modeAct m).events = [.mode m] := rfl
@[simp] theorem rstAct_events (b : Bool) : (rstAct b).events = [.rst b] := rfl
@[simp] theorem wrAct_events (bs : List Byte) : (wrAct bs).events = [.wr bs] := rfl
@[simp] theorem busyAct_events (b : Bool) : (busyAct b).events = [.busy b] := rfl
@[simp] theorem aiAct_events (n : Nat) : (aiAct n).events = [] := rfl
@[simp] theorem silent_events (upd : State → State) : (Action.silent upd).events = [] := rfl
@[simp] theorem tick_events (ev : Event) (upd : State → State) : (Action.tick ev upd).events = [ev] := rfl
@[simp] theorem land_events (f : Bool) : (Action.land f).events = [] := rfl
@[simp] theorem barrier_events : Action.barrier.events = [] := rfl
@[simp] theorem pause_events : Action.pause.events = [] := rfl
@[simp] theorem selAct_unpaused (b : Bool) : selAct b ≠ .pause := by simp [selAct]
@[simp] theorem modeAct_unpaused (m : Mode) : modeAct m ≠ .pause := by simp [modeAct]
@[simp] theorem rstAct_unpaused (b : Bool) : rstAct b ≠ .pause := by simp [rstAct]
@[simp] theorem wrAct_unpaused (bs : List Byte) : wrAct bs ≠ .pause := by simp [wrAct]
@[simp] theorem busyAct_unpaused (b : Bool) : busyAct b ≠ .pause := by simp [busyAct]
@[simp] theorem aiAct_unpaused (n : Nat) : aiAct n ≠ .pause := by simp [aiAct]

theorem updKeeps_id : UpdKeeps id := by constructor <;> intro _ <;> rfl

theorem selAct_tame (b : Bool) : (selAct b).Tame := ⟨rfl, by constructor <;> intro _ <;> rfl, fun _ => ⟨⟨rfl, rfl, rfl⟩, ⟨rfl, rfl, rfl, rfl⟩⟩⟩
theorem modeAct_tame (m : Mode) : (modeAct m).Tame := ⟨rfl, by constructor <;> intro _ <;> rfl, fun _ => ⟨⟨rfl, rfl, rfl⟩, ⟨rfl, rfl, rfl, rfl⟩⟩⟩
theorem rstAct_tame (b : Bool) : (rstAct b).Tame := ⟨rfl, by constructor <;> intro _ <;> rfl, fun _ => ⟨⟨rfl, rfl, rfl⟩, ⟨rfl, rfl, rfl, rfl⟩⟩⟩
theorem wrAct_tame (bs : List Byte) : (wrAct bs).Tame := ⟨rfl, updKeeps_id, fun _ => ⟨⟨rfl, rfl, rfl⟩, ⟨rfl, rfl, rfl, rfl⟩⟩⟩

theorem takeBusy_keeps : UpdKeeps State.takeBusy := by
  constructor <;> intro s <;> cases hb : s.busyIn <;> simp [State.takeBusy, hb]
theorem takeBusy_sel (s : State) : s.takeBusy.sel = s.sel ∧ s.takeBusy.mode = s.mode ∧ s.takeBusy.rstl = s.rstl ∧ s.takeBusy.fb = s.fb ∧
    s.takeBusy.raced = s.raced ∧ s.takeBusy.races = s.races ∧ s.takeBusy.late = s.late := by
  cases hb : s.busyIn <;> simp [State.takeBusy, hb]
theorem busyAct_tame (b : Bool) : (busyAct b).Tame := by
  refine ⟨rfl, takeBusy_keeps, fun s => ?_⟩
  obtain ⟨h1, h2, h3, h4, h5, h6, h7⟩ := takeBusy_sel s
  exact ⟨⟨h1, h2, h3⟩, ⟨h4, h5, h6, h7⟩⟩

section Channel

variable {P : State → Prop} (hP : Stable P)
include hP

theorem setSelect_scripted (b : Bool) : Scripted (setSelect b) [selAct b] P P :=
  .primitive (selAct_tame b) fun s es tx ri h => hP s es tx ri b s.mode s.ai h

theorem setMode_scripted (m : Mode) : Scripted (setMode m) [modeAct m] P P :=
  .primitive (modeAct_tame m) fun s es tx ri h => hP s es tx ri s.sel m s.ai h

theorem writeBytes_scripted (bs : List Byte) : Scripted (writeBytes bs) [wrAct bs] P P :=
  .primitive (wrAct_tame bs) fun s es tx ri h => hP s es tx ri s.sel s.mode s.ai h

/-- `sendCommand` is its four primitives (40_command_channel.md R91). -/
theorem sendCommand_scripted (c : Byte) :
    Scripted (sendCommand c) [selAct true, modeAct .cmd, wrAct [c], selAct false] P P :=
  (setSelect_scripted hP true).bind ((setMode_scripted hP .cmd).bind
    ((writeBytes_scripted hP [c]).bind (setSelect_scripted hP false)))

/-- `sendData` is its four primitives (R92). -/
theorem sendData_scripted (bs : List Byte) :
    Scripted (sendData bs) [selAct true, modeAct .data, wrAct bs, aiAct bs.length, selAct false] P P :=
  (setSelect_scripted hP true).bind ((setMode_scripted hP .data).bind ((writeBytes_scripted hP bs).bind
    ((setSelect_scripted hP false).after (by constructor <;> intro _ <;> rfl) (fun _ => ⟨⟨rfl, rfl, rfl⟩, ⟨rfl, rfl, rfl, rfl⟩⟩)
      fun s h => hP s s.trace s.txFail s.resetIn s.sel s.mode bs.length h)))

end Channel

/-- The script of `sendCommand`. -/
def cmdScript (c : Byte) : List Action := [selAct true, modeAct .cmd, wrAct [c], selAct false]

/-- The script of `sendData`. -/
def dataScript (bs : List Byte) : List Action := [selAct true, modeAct .data, wrAct bs, aiAct bs.length, selAct false]

/-- The script of `sendData` where nothing is sent for an empty sequence (R93). -/
def argScript : List Byte → List Action
  | [] => []
  | b :: bs => dataScript (b :: bs)

@[simp] theorem cmdScript_events (c : Byte) : scriptEvents (cmdScript c) = cmdEvents c := rfl
@[simp] theorem dataScript_events (bs : List Byte) : scriptEvents (dataScript bs) = dataEvents bs := rfl
@[simp] theorem argScript_events (bs : List Byte) : scriptEvents (argScript bs) = if bs = [] then [] else dataEvents bs := by
  cases bs <;> simp [argScript]
@[simp] theorem cmdScript_unpaused (c : Byte) : Unpaused (cmdScript c) := by simp [cmdScript]
@[simp] theorem dataScript_unpaused (bs : List Byte) : Unpaused (dataScript bs) := by simp [dataScript]
@[simp] theorem argScript_unpaused (bs : List Byte) : Unpaused (argScript bs) := by cases bs <;> simp [argScript]

theorem sendArgs_scripted {P : State → Prop} (hP : Stable P) (bs : List Byte) : Scripted (sendArgs bs) (argScript bs) P P := by
  cases bs with
  | nil => exact .ok P
  | cons b bs => exact sendData_scripted hP (b :: bs)

/-- `Frame(c, args)` (R94). -/
theorem frame_scripted {P : State → Prop} (hP : Stable P) (c : Byte) (args : List Byte) :
    Scripted (frame c args) (cmdScript c ++ argScript args) P P :=
  (sendCommand_scripted hP c).bind (sendArgs_scripted hP args)

/-- The script of a delay of `t` ms. -/
def waitScript (t : Nat) : List Action := [.silent (State.loadTimer t), .tick (.wait t) State.expireTimer]

@[simp] theorem waitScript_events (t : Nat) : scriptEvents (waitScript t) = [.wait t] := rfl
@[simp] theorem waitScript_unpaused (t : Nat) : Unpaused (waitScript t) := by simp [waitScript]

theorem loadTimer_keeps (t : Nat) : UpdKeeps (State.loadTimer t) := by constructor <;> intro _ <;> rfl
theorem expireTimer_keeps : UpdKeeps State.expireTimer := by constructor <;> intro _ <;> rfl

theorem wait_scripted (d : Delay) (v : State) : Scripted (wait d) (waitScript (v.cfg.delay d)) (Seen v) (Seen v) := by
  have h : Scripted (fun s => Machine.tick (.wait (v.cfg.delay d)) State.expireTimer (State.loadTimer (v.cfg.delay d) s))
      (waitScript (v.cfg.delay d)) (Seen v) (Seen v) :=
    Scripted.after (Q := Seen v) (.tick ⟨rfl, expireTimer_keeps, fun _ => ⟨⟨rfl, rfl, rfl⟩, ⟨rfl, rfl, rfl, rfl⟩⟩⟩ fun _ _ _ h => h)
      (loadTimer_keeps _) (fun _ => ⟨⟨rfl, rfl, rfl⟩, ⟨rfl, rfl, rfl, rfl⟩⟩) fun _ h => h
  exact h.congr fun s hs => by rw [wait, hs.cfg]

/-! ## The data loop and the fill -/

theorem mapStart_keeps : UpdKeeps State.mapStart := by
  constructor <;> intro s <;> cases ho : s.cfg.orient <;> simp [State.mapStart, ho]
theorem mapAdvance_keeps : UpdKeeps State.mapAdvance := by
  constructor <;> intro s <;> cases ho : s.cfg.orient <;> by_cases hv : s.vbc + 1 = s.cfg.tbc <;>
    simp [State.mapAdvance, ho, hv]
theorem mapStart_follows (s : State) : Follows s s.mapStart [] := by
  cases ho : s.cfg.orient <;> refine ⟨⟨?_, ?_, ?_⟩, ⟨?_, ?_, ?_, ?_⟩⟩ <;>
    simp [State.mapStart, ho, selAfter, modeAfter, rstAfter, memAfter]
theorem mapAdvance_follows (s : State) : Follows s s.mapAdvance [] := by
  cases ho : s.cfg.orient <;> by_cases hv : s.vbc + 1 = s.cfg.tbc <;> refine ⟨⟨?_, ?_, ?_⟩, ⟨?_, ?_, ?_, ?_⟩⟩ <;>
    simp [State.mapAdvance, ho, hv, selAfter, modeAfter, rstAfter, memAfter]
@[simp] theorem mapStart_view (s : State) : s.mapStart.view = s.view := by
  cases ho : s.cfg.orient <;> simp [State.mapStart, ho, State.view]
@[simp] theorem mapAdvance_view (s : State) : s.mapAdvance.view = s.view := by
  cases ho : s.cfg.orient <;> by_cases hv : s.vbc + 1 = s.cfg.tbc <;> simp [State.mapAdvance, ho, hv, State.view]

/-- The mapped bytes at `n` positions from `k` on. -/
def outRange (c : Cfg) (byteAt : Nat → Byte) (k n : Nat) : List Byte := (List.range' k n).map (outByte c byteAt)

theorem outRange_succ (c : Cfg) (byteAt : Nat → Byte) (k n : Nat) :
    outRange c byteAt k (n + 1) = outByte c byteAt k :: outRange c byteAt (k + 1) n := by
  simp [outRange, List.range'_succ]

theorem outRange_all (c : Cfg) (byteAt : Nat → Byte) : outRange c byteAt 0 c.numBytes = outBytes c byteAt := by
  simp [outRange, outBytes, List.range_eq_range']

/-- The script of the loop with one `sendData` a byte. -/
def perByteScript (bs : List Byte) : List Action := bs.flatMap fun b => dataScript [b] ++ [.silent State.mapAdvance]

@[simp] theorem perByteScript_events (bs : List Byte) :
    scriptEvents (perByteScript bs) = bs.flatMap fun b => dataEvents [b] := by
  induction bs with
  | nil => rfl
  | cons b bs ih =>
    have : perByteScript (b :: bs) = dataScript [b] ++ [.silent State.mapAdvance] ++ perByteScript bs := rfl
    rw [this, scriptEvents_append, scriptEvents_append, ih]; simp
@[simp] theorem perByteScript_unpaused (bs : List Byte) : Unpaused (perByteScript bs) := by
  induction bs with
  | nil => simp [perByteScript]
  | cons b bs ih =>
    have : perByteScript (b :: bs) = dataScript [b] ++ [.silent State.mapAdvance] ++ perByteScript bs := rfl
    rw [this]; simp [ih]

theorem perByteLoop_scripted (v : State) (n : Nat) : ∀ k, k + n ≤ v.cfg.numBytes →
    Scripted (perByteLoop n) (perByteScript (outRange v.cfg v.readByte k n)) (SeenAt v k) (SeenAt v (k + n)) := by
  induction n with
  | zero => intro k _; exact .ok _
  | succ n ih =>
    intro k hk
    have h := (sendData_scripted (seenAt_stable v k) [outByte v.cfg v.readByte k]).bind
      ((ih (k + 1) (by omega)).after (P := SeenAt v k) mapAdvance_keeps mapAdvance_follows
        fun s hs => ⟨by rw [mapAdvance_view]; exact hs.1, mapAdvance_atPosition hs.2⟩)
    rw [outRange_succ]
    rw [show k + 1 + n = k + (n + 1) by omega] at h
    refine h.congr fun s hs => ?_
    · rw [perByteLoop, mapByte_atPosition hs.2 (by rw [Seen.cfg hs.1]; omega), Seen.cfg hs.1, Seen.readByte hs.1]

theorem gather_atPosition (v : State) (n : Nat) : ∀ k s, k + n ≤ v.cfg.numBytes → SeenAt v k s →
    gather n s = .ok (outRange v.cfg v.readByte k n, State.mapAdvance^[n] s) := by
  induction n with
  | zero => intro k s _ _; rfl
  | succ n ih =>
    intro k s hk hs
    have hb := mapByte_atPosition hs.2 (by rw [Seen.cfg hs.1]; omega)
    rw [Seen.cfg hs.1, Seen.readByte hs.1] at hb
    rw [gather, hb]
    simp only
    rw [ih (k + 1) s.mapAdvance (by omega) ⟨by rw [mapAdvance_view]; exact hs.1, mapAdvance_atPosition hs.2⟩, outRange_succ]
    rfl

theorem mapAdvance_iterate_keeps (n : Nat) : UpdKeeps (State.mapAdvance^[n]) := by
  induction n with
  | zero => constructor <;> intro _ <;> rfl
  | succ n ih =>
    rw [Function.iterate_succ']
    have h := mapAdvance_keeps
    constructor <;> intro s <;> simp only [Function.comp_apply, h.trace, h.cfg, h.txFail, h.resetIn, h.host, h.skip, h.err,
      h.ill, h.cause, ih.trace, ih.cfg, ih.txFail, ih.resetIn, ih.host, ih.skip, ih.err, ih.ill, ih.cause]

theorem mapAdvance_iterate_follows (n : Nat) (s : State) : Follows s (State.mapAdvance^[n] s) [] := by
  induction n generalizing s with
  | zero => exact .refl s
  | succ n ih => rw [Function.iterate_succ_apply]; exact (mapAdvance_follows s).trans (ih _)

@[simp] theorem mapAdvance_iterate_view (n : Nat) (s : State) : (State.mapAdvance^[n] s).view = s.view := by
  induction n generalizing s with
  | zero => rfl
  | succ n ih => rw [Function.iterate_succ_apply, ih, mapAdvance_view]

theorem burstLoop_scripted (v : State) (n : Nat) (h : n ≤ v.cfg.numBytes) :
    Scripted (burstLoop n) (.silent State.mapAdvance^[n] :: argScript (outRange v.cfg v.readByte 0 n)) (SeenAt v 0)
      (SeenAt v n) := by
  refine Scripted.congr ((sendArgs_scripted (seenAt_stable v n) (outRange v.cfg v.readByte 0 n)).after
    (mapAdvance_iterate_keeps n) (mapAdvance_iterate_follows n)
    fun s hs => ⟨by rw [mapAdvance_iterate_view]; exact hs.1, by simpa using mapAdvance_iterate_atPosition hs.2 n⟩) fun s hs => ?_
  rw [burstLoop, gather_atPosition v n 0 s (by omega) hs]

/-- The script of `DataLoop()` (42_controller_operations.md R130). -/
def dataLoopScript (v : State) : List Action :=
  .silent State.mapStart ::
    match v.cfg.ramFraming with
    | .perByte => perByteScript (outBytes v.cfg v.readByte)
    | .burst => .silent State.mapAdvance^[v.cfg.numBytes] :: argScript (outBytes v.cfg v.readByte)

@[simp] theorem dataLoopScript_events (v : State) : scriptEvents (dataLoopScript v) = dataLoopEvents v.cfg v.readByte := by
  unfold dataLoopScript dataLoopEvents
  cases v.cfg.ramFraming <;> simp [outBytes]
@[simp] theorem dataLoopScript_unpaused (v : State) : Unpaused (dataLoopScript v) := by
  unfold dataLoopScript
  split <;> simp

theorem dataLoop_scripted (v : State) :
    Scripted dataLoop (dataLoopScript v) (Seen v) (SeenAt v v.cfg.numBytes) := by
  have hs : ∀ s, Seen v s → SeenAt v 0 s.mapStart := fun s hs => ⟨by rw [mapStart_view]; exact hs, mapStart_atPosition s⟩
  unfold dataLoopScript
  rw [← outRange_all]
  cases hf : v.cfg.ramFraming with
  | perByte =>
    refine Scripted.congr (((perByteLoop_scripted v v.cfg.numBytes 0 (by omega)).after mapStart_keeps mapStart_follows hs).weaken
      (fun _ h => h) (fun s h => by simpa using h)) fun s hs => ?_
    rw [dataLoop, hs.cfg, hf]
  | burst =>
    refine Scripted.congr ((burstLoop_scripted v v.cfg.numBytes (Nat.le_refl _)).after mapStart_keeps mapStart_follows hs)
      fun s hs => ?_
    rw [dataLoop, hs.cfg, hf]

/-- One step of the fill. -/
def fillAct (a : Nat) : List Action :=
  [.tick (.fbWr a 0xFF) (fun s => { s with fb := s.fb.write a (s.writtenByte 0xFF a) }), .silent fun s => { s with k := s.k + 1 }]

/-- The script of the fill from address `k` on. -/
def fillScript (k n : Nat) : List Action := (List.range' k n).flatMap fillAct

@[simp] theorem fillScript_events (k n : Nat) :
    scriptEvents (fillScript k n) = (List.range' k n).map fun a => .fbWr a 0xFF := by
  induction n generalizing k with
  | zero => rfl
  | succ n ih => rw [fillScript, List.range'_succ, List.flatMap_cons, scriptEvents_append, List.map_cons, ← ih]; rfl
@[simp] theorem fillScript_unpaused (k n : Nat) : Unpaused (fillScript k n) := by
  intro a ha
  simp only [fillScript, fillAct, List.mem_flatMap, List.mem_cons, List.not_mem_nil, or_false] at ha
  obtain ⟨x, -, rfl | rfl⟩ := ha <;> simp

theorem fillLoop_scripted (v : State) (n : Nat) : ∀ (k : Nat) (m : Memory), k + n ≤ v.cfg.numBytes →
    (∀ a, k ≤ a → m.written a = v.fb.written a) →
    Scripted (fillLoop n) (fillScript k n) (fun s => Seen { v with fb := m } s ∧ s.k = k)
      (fun s => Seen { v with fb := m.fillFrom k (v.writtenByte 0xFF) n } s ∧ s.k = k + n) := by
  induction n with
  | zero => intro k m _ _; exact .ok _
  | succ n ih =>
    intro k m hk hm
    have h1 : Scripted (Machine.tick (.fbWr k 0xFF) fun s => { s with fb := s.fb.write k (s.writtenByte 0xFF k) }) [(fillAct k).head (by simp [fillAct])]
        (fun s => Seen { v with fb := m } s ∧ s.k = k) (fun s => Seen { v with fb := m.write k (v.writtenByte 0xFF k) } s ∧ s.k = k) := by
      refine .tick ⟨rfl, by constructor <;> intro _ <;> rfl, fun _ => ⟨⟨rfl, rfl, rfl⟩, ⟨rfl, rfl, rfl, rfl⟩⟩⟩ fun s es ri hs => ⟨?_, hs.2⟩
      have hfb : s.fb = m := hs.1.fb
      have : s.view = { v with fb := m } := hs.1
      have hw : s.writtenByte 0xFF k = v.writtenByte 0xFF k := by
        rw [State.writtenByte, hs.1.raced, hs.1.races, hfb]
        exact settle_congr (hm k (Nat.le_refl k))
      show { s.view with fb := s.fb.write k (s.writtenByte 0xFF k) } = _
      rw [this, hfb, hw]
    have h := h1.bind ((ih (k + 1) (m.write k (v.writtenByte 0xFF k)) (by omega) fun a ha => by
        rw [Memory.written_write, if_neg (by omega)]; exact hm a (by omega)).after (upd := fun s => { s with k := s.k + 1 })
      (P := fun s => Seen { v with fb := m.write k (v.writtenByte 0xFF k) } s ∧ s.k = k)
      (by constructor <;> intro _ <;> rfl) (fun _ => ⟨⟨rfl, rfl, rfl⟩, ⟨rfl, rfl, rfl, rfl⟩⟩) fun s hs => ⟨hs.1, by simp [hs.2]⟩)
    rw [show k + 1 + n = k + (n + 1) by omega] at h
    refine Scripted.congr (f := fun s => (Machine.tick (.fbWr k 0xFF) (fun s => { s with fb := s.fb.write k (s.writtenByte 0xFF k) }) s).bind
      fun s => fillLoop n { s with k := s.k + 1 }) ?_ ?_
    · rw [fillScript, List.range'_succ]; exact h
    · intro s hs
      have hc : s.cfg = v.cfg := hs.1.cfg
      rw [fillLoop, memWrite, hs.2, if_pos (by rw [hc]; omega)]

theorem fillAllLight_scripted (v : State) :
    Scripted fillAllLight (.silent (fun s => { s with k := 0 }) :: fillScript 0 v.cfg.numBytes) (Seen v)
      (Seen { v with fb := v.fb.fillFrom 0 (v.writtenByte 0xFF) v.cfg.numBytes }) := by
  refine Scripted.congr (((fillLoop_scripted v v.cfg.numBytes 0 v.fb (by omega) fun _ _ => rfl).after (P := Seen v)
    (upd := fun s => { s with k := 0 }) (by constructor <;> intro _ <;> rfl) (fun _ => ⟨⟨rfl, rfl, rfl⟩, ⟨rfl, rfl, rfl, rfl⟩⟩)
    fun s hs => ⟨hs, rfl⟩).weaken (fun _ h => h) fun s h => h.1) fun s hs => ?_
  rw [fillAllLight, hs.cfg]

end Sys2Proof.Machine
end

