-- ==== Sys2Proof/Laws/Sequence.lean ====
section
/-! SUPPORT. The panel commands and the steps of the sequencer's lists as scripts, and from them the run of a whole list. -/

namespace Sys2Proof.Machine

/-! ## Panel commands -/

/-- The script of each panel command (spec/41_panel_commands.md R101 to R113), for a block seen as `v`. -/
def panelScript (i : Instr) (v : State) : List Action :=
  match i with
  | .driverOutput => cmdScript 0x01 ++ argScript v.cfg.argDriverOutput
  | .dataEntry => cmdScript 0x11 ++ argScript v.cfg.argDataEntry
  | .ramXWindow => cmdScript 0x44 ++ argScript v.cfg.argRamXWindow
  | .ramYWindow => cmdScript 0x45 ++ argScript v.cfg.argRamYWindow
  | .border => cmdScript 0x3C ++ argScript v.cfg.argBorder
  | .updateCtrl1 => cmdScript 0x21 ++ argScript v.cfg.argUpdateCtrl1
  | .tempSensor => cmdScript 0x18 ++ argScript v.cfg.argTempSensor
  | .ramXCounter => cmdScript 0x4E ++ argScript v.cfg.argRamXCounter
  | .ramYCounter => cmdScript 0x4F ++ argScript v.cfg.argRamYCounter
  | .writeRam => cmdScript 0x24 ++ dataLoopScript v
  | .updateCtrl2 => cmdScript 0x22 ++ argScript [updateCode v.curFull]
  | .activate => cmdScript 0x20 ++ argScript []
  | .deepSleep => cmdScript 0x10 ++ argScript [sleepArg]
  | .init _ => []
  | .refresh _ => []
  | .sleep _ => []
  | .wake _ => []
  | .reserved0 _ => []
  | .reserved5 _ => []
  | .reserved6 _ => []
  | .reserved7 _ => []

@[simp] theorem panelScript_unpaused (i : Instr) (v : State) : Unpaused (panelScript i v) := by
  cases i <;> simp [panelScript]

theorem panelScript_events (i : Instr) (v : State) : scriptEvents (panelScript i v) = panelEvents i v := by
  cases i <;> simp [panelScript, panelEvents, frameEvents, updateCode, fullCode, partialCode, sleepArg]

/-- The codes the wire decoder knows. -/
theorem decodeWire_encode {c : Byte} {i : Instr} (h : decodeWire c = .ok i) : encode i = c ∧ i.format = .wire8 := by
  unfold decodeWire at h
  split at h <;> cases h <;> refine ⟨BitVec.eq_of_toNat_eq ?_, rfl⟩ <;> simp [encode, *]

theorem frame_seen (v : State) (c : Byte) (args : State → List Byte) (h : ∀ s, Seen v s → args s = args v) :
    Scripted (fun s => frame c (args s) s) (cmdScript c ++ argScript (args v)) (Seen v) (Seen v) :=
  (frame_scripted (seen_stable v) c (args v)).congr fun s hs => by rw [h s hs]

/-- Each panel command is its script, and leaves what the block sees as it was. -/
theorem issue_scripted {c : Byte} {i : Instr} (h : decodeWire c = .ok i) (v : State) :
    Scripted (issue c) (panelScript i v) (Seen v) (Seen v) := by
  have hi : ∀ s, issue c s = issue (encode i) s := fun s => by rw [(decodeWire_encode h).1]
  have hw := (decodeWire_encode h).2
  refine Scripted.congr ?_ fun s _ => hi s
  cases i with
  | driverOutput => exact frame_seen v 0x01 (fun s => s.cfg.argDriverOutput) fun s hs => by rw [hs.cfg]
  | dataEntry => exact frame_seen v 0x11 (fun s => s.cfg.argDataEntry) fun s hs => by rw [hs.cfg]
  | ramXWindow => exact frame_seen v 0x44 (fun s => s.cfg.argRamXWindow) fun s hs => by rw [hs.cfg]
  | ramYWindow => exact frame_seen v 0x45 (fun s => s.cfg.argRamYWindow) fun s hs => by rw [hs.cfg]
  | border => exact frame_seen v 0x3C (fun s => s.cfg.argBorder) fun s hs => by rw [hs.cfg]
  | updateCtrl1 => exact frame_seen v 0x21 (fun s => s.cfg.argUpdateCtrl1) fun s hs => by rw [hs.cfg]
  | tempSensor => exact frame_seen v 0x18 (fun s => s.cfg.argTempSensor) fun s hs => by rw [hs.cfg]
  | ramXCounter => exact frame_seen v 0x4E (fun s => s.cfg.argRamXCounter) fun s hs => by rw [hs.cfg]
  | ramYCounter => exact frame_seen v 0x4F (fun s => s.cfg.argRamYCounter) fun s hs => by rw [hs.cfg]
  | writeRam =>
    exact ((sendCommand_scripted (seen_stable v) 0x24).bind (dataLoop_scripted v)).weaken (fun _ h => h) fun s h => h.1
  | updateCtrl2 => exact frame_seen v 0x22 (fun s => [updateCode s.curFull]) fun s hs => by rw [hs.curFull]
  | activate => exact frame_seen v 0x20 (fun _ => []) fun s hs => rfl
  | deepSleep => exact frame_seen v 0x10 (fun _ => [sleepArg]) fun s hs => rfl
  | _ => cases hw

/-- The meaning of a panel command is the issue of its own byte. -/
theorem exec_panel {i : Instr} (h : i.format = .wire8) (s : State) : exec i s = (issue (encode i) s).toOutcome := by
  cases i <;> first | rfl | cases h

theorem decodeWire_of_format {i : Instr} (h : i.format = .wire8) : decodeWire (encode i) = .ok i := by
  cases i <;> first | rfl | cases h

/-! ## The steps of a list -/

/-- The script of one turn of the polling loop. -/
def turnScript (t : Nat) (b : Bool) : List Action :=
  busyAct b :: if b then waitScript t else [.silent State.advance]

/-- The script of the polling loop over scheduled answers. -/
def pollScript (t : Nat) : List Bool → List Action
  | [] => [.pause]
  | b :: bs => turnScript t b ++ if b then pollScript t bs else []

/-- The answers left after the first that is false. -/
def afterFalse : List Bool → List Bool
  | [] => []
  | b :: bs => if b then afterFalse bs else bs

/-- The script of one step of a list. -/
def itemScript (it : Item) (v : State) : List Action :=
  match it with
  | .setReset high => [.silent State.advance, rstAct high]
  | .wait d => .silent State.advance :: waitScript (v.cfg.delay d)
  | .startConfigure => [.silent fun s => { s.advance with ctl := .configuring }]
  | .cmd c =>
    match decodeWire c with
    | .ok i => .silent State.advance :: panelScript i v
    | .error _ => []
  | .fill => .silent State.advance :: .silent (fun s => { s with k := 0 }) :: fillScript 0 v.cfg.numBytes
  | .startSeed => [.silent fun s => { s.advance with ctl := .busy, ret := .idle, curFull := true }]
  | .poll => pollScript (v.cfg.delay .tPoll) v.busyIn
  | .initDone => [.silent fun s => initDone s.advance]
  | .refreshDone => [.silent fun s => refreshDone s.advance]
  | .sleepDone => [.silent fun s => sleepDone s.advance]

/-- What one step makes of what the block sees, where it runs to its end. -/
def itemView (it : Item) (v : State) : State :=
  match it with
  | .setReset high => { v.advance with rstl := high }
  | .wait _ => v.advance
  | .startConfigure => { v.advance with ctl := .configuring }
  | .cmd _ => v.advance
  | .fill => { v.advance with fb := v.fb.fillFrom 0 (v.writtenByte 0xFF) v.cfg.numBytes }
  | .startSeed => { v.advance with ctl := .busy, ret := .idle, curFull := true }
  | .poll => { v.advance with busyIn := afterFalse v.busyIn }
  | .initDone => initDone v.advance
  | .refreshDone => refreshDone v.advance
  | .sleepDone => sleepDone v.advance

/-- The command bytes of a step decode. -/
def Item.Known : Item → Prop
  | .cmd c => ∃ i, decodeWire c = .ok i
  | _ => True

theorem advance_keeps : UpdKeeps State.advance := by constructor <;> intro _ <;> rfl
theorem advance_follows (s : State) : Follows s s.advance [] := ⟨⟨rfl, rfl, rfl⟩, ⟨rfl, rfl, rfl, rfl⟩⟩
theorem advance_seen {v s : State} (h : Seen v s) : Seen v.advance s.advance := by
  show { s.view with seq := s.view.seq + 1 } = v.advance
  rw [show s.view = v from h]; rfl

theorem takeBusy_seen {v s : State} (h : Seen v s) : Seen v.takeBusy s.takeBusy := by
  have hv : s.view = v := h
  subst hv
  cases hc : s.busyIn with
  | nil => simp only [State.takeBusy, State.view, hc]; rfl
  | cons b bs => simp only [State.takeBusy, State.view, hc]; rfl
theorem Seen.busyAnswer {v s : State} (h : Seen v s) : s.busyAnswer = v.busyAnswer := by
  unfold State.busyAnswer; rw [h.busyIn, h.busyDraws]
@[simp] theorem takeBusy_cfg (v : State) : v.takeBusy.cfg = v.cfg := takeBusy_keeps.cfg v

/-- One turn of the polling loop. -/
theorem pollOnce_scripted (v : State) :
    Scripted pollOnce (turnScript (v.cfg.delay .tPoll) v.busyAnswer) (Seen v)
      (Seen (if v.busyAnswer then v.takeBusy else v.takeBusy.advance)) := by
  have h1 : Scripted readBusy [busyAct v.busyAnswer] (Seen v) (Seen v.takeBusy) :=
    Scripted.congr (.primitive (busyAct_tame v.busyAnswer) fun s es tx ri hs => takeBusy_seen (s := { s with trace := es, txFail := tx, resetIn := ri }) hs)
      fun s hs => by rw [readBusy, hs.busyAnswer]
  cases hb : v.busyAnswer with
  | true =>
    rw [hb] at h1
    have h2 := h1.bind (wait_scripted .tPoll v.takeBusy)
    rw [takeBusy_cfg] at h2
    exact h2.congr fun s hs => by rw [pollOnce, hs.busyAnswer, hb]; rfl
  | false =>
    rw [hb] at h1
    exact (h1.bind (Scripted.silent (Q := Seen v.takeBusy.advance) advance_keeps advance_follows
      fun s hs => advance_seen hs)).congr fun s hs => by rw [pollOnce, hs.busyAnswer, hb]; rfl

/-- The end of a transition in the busy-wait. -/
theorem pause_scripted (P Q : State → Prop) : Scripted .stop [.pause] P Q :=
  ⟨fun _ _ => rfl, fun s t _ e => by simp [runScript_cons, Action.run] at e, by simp [Action.Tame]⟩

theorem pollScheduled_scripted (bs : List Bool) : ∀ v : State, v.busyIn = bs →
    Scripted (pollScheduled bs) (pollScript (v.cfg.delay .tPoll) bs) (Seen v)
      (Seen { v.advance with busyIn := afterFalse bs }) := by
  induction bs with
  | nil => intro v _; exact pause_scripted _ _
  | cons b bs ih =>
    intro v hv
    have hb : v.busyAnswer = b := by simp [State.busyAnswer, hv]
    have ht : v.takeBusy = { v with busyIn := bs } := by simp [State.takeBusy, hv]
    have h1 := pollOnce_scripted v
    rw [hb] at h1
    cases b with
    | true =>
      have h2 := ih v.takeBusy (by rw [ht])
      rw [takeBusy_cfg] at h2
      refine ((h1.bind h2).weaken (fun _ h => h) fun s h => ?_).congr fun s _ => rfl
      have h' : s.view = _ := h
      show s.view = _
      rw [h', ht]; rfl
    | false =>
      rw [if_neg (by decide)] at h1
      refine ((h1.bind (Scripted.ok _)).weaken (fun _ h => h) fun s h => ?_).congr fun s _ => rfl
      have h' : s.view = _ := h
      show s.view = _
      rw [h', ht]; rfl

theorem silent_item {upd : State → State} (hk : UpdKeeps upd) (hf : ∀ s, Follows s (upd s) [])
    (hv : ∀ s, (upd s).view = upd s.view) (v : State) :
    Scripted (fun s => .ok (upd s)) [.silent upd] (Seen v) (Seen (upd v)) :=
  .silent hk hf fun s hs => by show (upd s).view = _; rw [hv, show s.view = v from hs]

/-- Every step of a list is its script. -/
theorem runItem_scripted (it : Item) (hk : it.Known) (v : State) :
    Scripted (runItem it) (itemScript it v) (Seen v) (Seen (itemView it v)) := by
  cases it with
  | setReset high =>
    refine Scripted.after (f := setReset high) (Q := Seen v.advance) ?_ advance_keeps advance_follows fun s => advance_seen
    refine .primitive (rstAct_tame high) fun s es tx ri hs => ?_
    show { s.view with rstl := high } = _
    rw [show s.view = _ from hs]; rfl
  | wait d => exact (wait_scripted d v.advance).after advance_keeps advance_follows fun s => advance_seen
  | startConfigure =>
    exact silent_item (upd := fun s => { s.advance with ctl := .configuring }) (by constructor <;> intro _ <;> rfl) (fun _ => ⟨⟨rfl, rfl, rfl⟩, ⟨rfl, rfl, rfl, rfl⟩⟩) (fun _ => rfl) v
  | cmd c =>
    obtain ⟨i, hi⟩ := hk
    have : itemScript (.cmd c) v = .silent State.advance :: panelScript i v.advance := by
      simp only [itemScript, hi]; cases i <;> rfl
    rw [this]
    exact (issue_scripted hi v.advance).after advance_keeps advance_follows fun s => advance_seen
  | fill => exact (fillAllLight_scripted v.advance).after advance_keeps advance_follows fun s => advance_seen
  | startSeed =>
    exact silent_item (upd := fun s => { s.advance with ctl := .busy, ret := .idle, curFull := true }) (by constructor <;> intro _ <;> rfl) (fun _ => ⟨⟨rfl, rfl, rfl⟩, ⟨rfl, rfl, rfl, rfl⟩⟩) (fun _ => rfl) v
  | poll => exact (pollScheduled_scripted v.busyIn v rfl).congr fun s hs => by rw [runItem, hs.busyIn]
  | initDone =>
    exact silent_item (upd := fun s => Machine.initDone s.advance) (by constructor <;> intro _ <;> rfl) (fun _ => ⟨⟨rfl, rfl, rfl⟩, ⟨rfl, rfl, rfl, rfl⟩⟩) (fun _ => rfl) v
  | refreshDone =>
    exact silent_item (upd := fun s => Machine.refreshDone s.advance) (by constructor <;> intro _ <;> rfl) (fun _ => ⟨⟨rfl, rfl, rfl⟩, ⟨rfl, rfl, rfl, rfl⟩⟩) (fun _ => rfl) v
  | sleepDone =>
    exact silent_item (upd := fun s => Machine.sleepDone s.advance) (by constructor <;> intro _ <;> rfl) (fun _ => ⟨⟨rfl, rfl, rfl⟩, ⟨rfl, rfl, rfl, rfl⟩⟩) (fun _ => rfl) v

/-! ## Lists -/

/-- What the block sees does not decide what lands. -/
theorem land_seen {v s : State} (h : Seen v s) (it : Item) : Seen (v.land it) (s.land it) := by
  show (s.view).land it = _; rw [show s.view = v from h]

/-- The end of a transition before the polling loop, where no answer is scheduled. -/
def pauseScript (it : Item) (v : State) : List Action := if v.awaits it then [.pause] else []

@[simp] theorem pauseScript_of_ne {it : Item} (h : it ≠ .poll) (v : State) : pauseScript it v = [] := by
  have : (it == .poll) = false := by simpa using h
  simp [pauseScript, State.awaits, this]

@[simp] theorem pauseScript_of_answer {v : State} (h : v.busyIn ≠ []) (it : Item) : pauseScript it v = [] := by
  have : v.busyIn.isEmpty = false := by simpa using h
  simp [pauseScript, State.awaits, this]

/-- The script of a list of steps, each behind the reset check and the host's late writes. -/
def itemsScript : List Item → State → List Action
  | [], _ => []
  | it :: rest, v =>
    .barrier :: pauseScript it v ++ .land (it == .fill) :: itemScript it (v.land it) ++ itemsScript rest (itemView it (v.land it))

/-- What a list makes of what the block sees, where it runs to its end. -/
def itemsView : List Item → State → State
  | [], v => v
  | it :: rest, v => itemsView rest (itemView it (v.land it))

theorem itemsScript_append (xs ys : List Item) (v : State) :
    itemsScript (xs ++ ys) v = itemsScript xs v ++ itemsScript ys (itemsView xs v) := by
  induction xs generalizing v with
  | nil => rfl
  | cons it xs ih => simp [itemsScript, itemsView, ih]

theorem itemsView_append (xs ys : List Item) (v : State) : itemsView (xs ++ ys) v = itemsView ys (itemsView xs v) := by
  induction xs generalizing v with
  | nil => rfl
  | cons it xs ih => simp [itemsView, ih]

theorem runItems_append (xs ys : List Item) (s : State) : runItems (xs ++ ys) s = (runItems xs s).bind (runItems ys) := by
  induction xs generalizing s with
  | nil => rfl
  | cons it xs ih =>
    simp only [List.cons_append, runItems]
    split <;> [rfl; split <;> [rfl; (rw [Res.bind_assoc]; congr 1; funext t; exact ih t)]]

/-- The run of a list is its script. -/
theorem runItems_scripted (its : List Item) (hk : ∀ it ∈ its, it.Known) : ∀ v : State,
    Scripted (runItems its) (itemsScript its v) (Seen v) (Seen (itemsView its v)) := by
  induction its with
  | nil => intro v; exact .ok _
  | cons it rest ih =>
    intro v
    have h := (runItem_scripted it (hk it (by simp)) (v.land it)).bind
      (ih (fun x hx => hk x (List.mem_cons_of_mem _ hx)) (itemView it (v.land it)))
    have hw : ∀ s, Seen v s → s.awaits it = v.awaits it := fun s hs => by simp only [State.awaits, hs.busyIn]
    have he : itemsScript (it :: rest) v = .barrier :: (pauseScript it v ++ .land (it == .fill) ::
        (itemScript it (v.land it) ++ itemsScript rest (itemView it (v.land it)))) := by simp [itemsScript]
    refine ⟨fun s hs => ?_, fun s t hs e => ?_, ?_⟩
    · rw [he, runScript_cons, runItems, Action.run, hw s hs, pauseScript]
      split <;> [rfl; split <;> [rfl; exact h.eq (s.land it) (land_seen hs it)]]
    · rw [he, runScript_cons, Action.run, pauseScript] at e
      split at e <;> [cases e; split at e <;> [cases e; exact h.post (s.land it) t (land_seen hs it) e]]
    · rw [he, tameScript_cons, tameScript_append, tameScript_cons]
      refine ⟨trivial, ?_, trivial, h.tame⟩
      unfold pauseScript
      split <;> simp [Action.Tame]

/-- Every command byte in a step list is one the decoder knows. -/
theorem program_known (c : Cfg) (op : HostOp) : ∀ it ∈ program c op, it.Known := by
  have h1 : ∀ it ∈ refreshSeq c, it.Known := by
    intro it h
    simp only [refreshSeq, counterItems, List.mem_append, List.mem_cons, List.not_mem_nil, or_false] at h
    rcases h with h | rfl | rfl | rfl | rfl | rfl
    · split at h
      · simp only [List.mem_cons, List.not_mem_nil, or_false] at h
        rcases h with rfl | rfl
        · exact ⟨.ramXCounter, rfl⟩
        · exact ⟨.ramYCounter, rfl⟩
      · cases h
    · exact ⟨.writeRam, rfl⟩
    · exact ⟨.updateCtrl2, rfl⟩
    · exact ⟨.activate, rfl⟩
    · trivial
    · trivial
  have h2 : ∀ it ∈ initSequence c, it.Known := by
    intro it h
    simp only [initSequence, resetPulse, configure, List.mem_append, List.mem_cons, List.not_mem_nil, or_false] at h
    rcases h with ((((h | rfl) | h) | rfl | rfl) | h) | rfl
    · rcases h with rfl | rfl | rfl | rfl | rfl | rfl <;> trivial
    · trivial
    · rcases h with rfl | rfl | rfl | rfl | rfl | rfl | rfl | rfl | rfl <;> exact ⟨_, rfl⟩
    · trivial
    · trivial
    · exact h1 it h
    · trivial
  cases op with
  | init => exact h2
  | wake => exact h2
  | refresh =>
    intro it h
    rcases List.mem_append.1 h with h | h
    · exact h1 it h
    · simp only [List.mem_cons, List.not_mem_nil, or_false] at h; subst h; trivial
  | sleep =>
    intro it h
    simp only [program, List.mem_cons, List.not_mem_nil, or_false] at h
    rcases h with rfl | rfl | rfl
    · exact ⟨.deepSleep, rfl⟩
    · trivial
    · trivial

end Sys2Proof.Machine
end

