-- ==== Sys2Proof/Laws/State.lean ====
section
/-! SUPPORT. One lemma per field per named update of the state, so that no proof unfolds a record update. -/

namespace Sys2Proof.Machine

/-! ## State.advance -/

@[simp] theorem advance_cfg (s : State) : s.advance.cfg = s.cfg := rfl
@[simp] theorem advance_ctl (s : State) : s.advance.ctl = s.ctl := rfl
@[simp] theorem advance_active (s : State) : s.advance.active = s.active := rfl
@[simp] theorem advance_seq (s : State) : s.advance.seq = s.seq + 1 := rfl
@[simp] theorem advance_curOp (s : State) : s.advance.curOp = s.curOp := rfl
@[simp] theorem advance_curFull (s : State) : s.advance.curFull = s.curFull := rfl
@[simp] theorem advance_ret (s : State) : s.advance.ret = s.ret := rfl
@[simp] theorem advance_initialized (s : State) : s.advance.initialized = s.initialized := rfl
@[simp] theorem advance_poweredOn (s : State) : s.advance.poweredOn = s.poweredOn := rfl
@[simp] theorem advance_skip (s : State) : s.advance.skip = s.skip := rfl
@[simp] theorem advance_err (s : State) : s.advance.err = s.err := rfl
@[simp] theorem advance_ill (s : State) : s.advance.ill = s.ill := rfl
@[simp] theorem advance_cause (s : State) : s.advance.cause = s.cause := rfl
@[simp] theorem advance_hpc (s : State) : s.advance.hpc = s.hpc := rfl
@[simp] theorem advance_vbc (s : State) : s.advance.vbc = s.vbc := rfl
@[simp] theorem advance_k (s : State) : s.advance.k = s.k := rfl
@[simp] theorem advance_ai (s : State) : s.advance.ai = s.ai := rfl
@[simp] theorem advance_timer (s : State) : s.advance.timer = s.timer := rfl
@[simp] theorem advance_sel (s : State) : s.advance.sel = s.sel := rfl
@[simp] theorem advance_mode (s : State) : s.advance.mode = s.mode := rfl
@[simp] theorem advance_rstl (s : State) : s.advance.rstl = s.rstl := rfl
@[simp] theorem advance_opDone (s : State) : s.advance.opDone = s.opDone := rfl
@[simp] theorem advance_fb (s : State) : s.advance.fb = s.fb := rfl
@[simp] theorem advance_trace (s : State) : s.advance.trace = s.trace := rfl
@[simp] theorem advance_late (s : State) : s.advance.late = s.late := rfl
@[simp] theorem advance_raced (s : State) : s.advance.raced = s.raced := rfl
@[simp] theorem advance_races (s : State) : s.advance.races = s.races := rfl
@[simp] theorem advance_host (s : State) : s.advance.host = s.host := rfl
@[simp] theorem advance_busyIn (s : State) : s.advance.busyIn = s.busyIn := rfl
@[simp] theorem advance_busyDraws (s : State) : s.advance.busyDraws = s.busyDraws := rfl
@[simp] theorem advance_txFail (s : State) : s.advance.txFail = s.txFail := rfl
@[simp] theorem advance_resetIn (s : State) : s.advance.resetIn = s.resetIn := rfl

/-! ## State.clearDone -/

@[simp] theorem clearDone_cfg (s : State) : s.clearDone.cfg = s.cfg := rfl
@[simp] theorem clearDone_ctl (s : State) : s.clearDone.ctl = s.ctl := rfl
@[simp] theorem clearDone_active (s : State) : s.clearDone.active = s.active := rfl
@[simp] theorem clearDone_seq (s : State) : s.clearDone.seq = s.seq := rfl
@[simp] theorem clearDone_curOp (s : State) : s.clearDone.curOp = s.curOp := rfl
@[simp] theorem clearDone_curFull (s : State) : s.clearDone.curFull = s.curFull := rfl
@[simp] theorem clearDone_ret (s : State) : s.clearDone.ret = s.ret := rfl
@[simp] theorem clearDone_initialized (s : State) : s.clearDone.initialized = s.initialized := rfl
@[simp] theorem clearDone_poweredOn (s : State) : s.clearDone.poweredOn = s.poweredOn := rfl
@[simp] theorem clearDone_skip (s : State) : s.clearDone.skip = s.skip := rfl
@[simp] theorem clearDone_err (s : State) : s.clearDone.err = s.err := rfl
@[simp] theorem clearDone_ill (s : State) : s.clearDone.ill = s.ill := rfl
@[simp] theorem clearDone_cause (s : State) : s.clearDone.cause = s.cause := rfl
@[simp] theorem clearDone_hpc (s : State) : s.clearDone.hpc = s.hpc := rfl
@[simp] theorem clearDone_vbc (s : State) : s.clearDone.vbc = s.vbc := rfl
@[simp] theorem clearDone_k (s : State) : s.clearDone.k = s.k := rfl
@[simp] theorem clearDone_ai (s : State) : s.clearDone.ai = s.ai := rfl
@[simp] theorem clearDone_timer (s : State) : s.clearDone.timer = s.timer := rfl
@[simp] theorem clearDone_sel (s : State) : s.clearDone.sel = s.sel := rfl
@[simp] theorem clearDone_mode (s : State) : s.clearDone.mode = s.mode := rfl
@[simp] theorem clearDone_rstl (s : State) : s.clearDone.rstl = s.rstl := rfl
@[simp] theorem clearDone_opDone (s : State) : s.clearDone.opDone = false := rfl
@[simp] theorem clearDone_fb (s : State) : s.clearDone.fb = s.fb := rfl
@[simp] theorem clearDone_trace (s : State) : s.clearDone.trace = s.trace := rfl
@[simp] theorem clearDone_late (s : State) : s.clearDone.late = s.late := rfl
@[simp] theorem clearDone_raced (s : State) : s.clearDone.raced = s.raced := rfl
@[simp] theorem clearDone_races (s : State) : s.clearDone.races = s.races := rfl
@[simp] theorem clearDone_host (s : State) : s.clearDone.host = s.host := rfl
@[simp] theorem clearDone_busyIn (s : State) : s.clearDone.busyIn = s.busyIn := rfl
@[simp] theorem clearDone_busyDraws (s : State) : s.clearDone.busyDraws = s.busyDraws := rfl
@[simp] theorem clearDone_txFail (s : State) : s.clearDone.txFail = s.txFail := rfl
@[simp] theorem clearDone_resetIn (s : State) : s.clearDone.resetIn = s.resetIn := rfl

/-! ## State.pulseDone -/

@[simp] theorem pulseDone_cfg (s : State) : s.pulseDone.cfg = s.cfg := rfl
@[simp] theorem pulseDone_ctl (s : State) : s.pulseDone.ctl = s.ctl := rfl
@[simp] theorem pulseDone_active (s : State) : s.pulseDone.active = s.active := rfl
@[simp] theorem pulseDone_seq (s : State) : s.pulseDone.seq = s.seq := rfl
@[simp] theorem pulseDone_curOp (s : State) : s.pulseDone.curOp = s.curOp := rfl
@[simp] theorem pulseDone_curFull (s : State) : s.pulseDone.curFull = s.curFull := rfl
@[simp] theorem pulseDone_ret (s : State) : s.pulseDone.ret = s.ret := rfl
@[simp] theorem pulseDone_initialized (s : State) : s.pulseDone.initialized = s.initialized := rfl
@[simp] theorem pulseDone_poweredOn (s : State) : s.pulseDone.poweredOn = s.poweredOn := rfl
@[simp] theorem pulseDone_skip (s : State) : s.pulseDone.skip = s.skip := rfl
@[simp] theorem pulseDone_err (s : State) : s.pulseDone.err = s.err := rfl
@[simp] theorem pulseDone_ill (s : State) : s.pulseDone.ill = s.ill := rfl
@[simp] theorem pulseDone_cause (s : State) : s.pulseDone.cause = s.cause := rfl
@[simp] theorem pulseDone_hpc (s : State) : s.pulseDone.hpc = s.hpc := rfl
@[simp] theorem pulseDone_vbc (s : State) : s.pulseDone.vbc = s.vbc := rfl
@[simp] theorem pulseDone_k (s : State) : s.pulseDone.k = s.k := rfl
@[simp] theorem pulseDone_ai (s : State) : s.pulseDone.ai = s.ai := rfl
@[simp] theorem pulseDone_timer (s : State) : s.pulseDone.timer = s.timer := rfl
@[simp] theorem pulseDone_sel (s : State) : s.pulseDone.sel = s.sel := rfl
@[simp] theorem pulseDone_mode (s : State) : s.pulseDone.mode = s.mode := rfl
@[simp] theorem pulseDone_rstl (s : State) : s.pulseDone.rstl = s.rstl := rfl
@[simp] theorem pulseDone_opDone (s : State) : s.pulseDone.opDone = true := rfl
@[simp] theorem pulseDone_fb (s : State) : s.pulseDone.fb = s.fb := rfl
@[simp] theorem pulseDone_trace (s : State) : s.pulseDone.trace = s.trace := rfl
@[simp] theorem pulseDone_late (s : State) : s.pulseDone.late = s.late := rfl
@[simp] theorem pulseDone_raced (s : State) : s.pulseDone.raced = s.raced := rfl
@[simp] theorem pulseDone_races (s : State) : s.pulseDone.races = s.races := rfl
@[simp] theorem pulseDone_host (s : State) : s.pulseDone.host = s.host := rfl
@[simp] theorem pulseDone_busyIn (s : State) : s.pulseDone.busyIn = s.busyIn := rfl
@[simp] theorem pulseDone_busyDraws (s : State) : s.pulseDone.busyDraws = s.busyDraws := rfl
@[simp] theorem pulseDone_txFail (s : State) : s.pulseDone.txFail = s.txFail := rfl
@[simp] theorem pulseDone_resetIn (s : State) : s.pulseDone.resetIn = s.resetIn := rfl

/-! ## State.setSkip -/

@[simp] theorem setSkip_cfg (s : State) : s.setSkip.cfg = s.cfg := rfl
@[simp] theorem setSkip_ctl (s : State) : s.setSkip.ctl = s.ctl := rfl
@[simp] theorem setSkip_active (s : State) : s.setSkip.active = s.active := rfl
@[simp] theorem setSkip_seq (s : State) : s.setSkip.seq = s.seq := rfl
@[simp] theorem setSkip_curOp (s : State) : s.setSkip.curOp = s.curOp := rfl
@[simp] theorem setSkip_curFull (s : State) : s.setSkip.curFull = s.curFull := rfl
@[simp] theorem setSkip_ret (s : State) : s.setSkip.ret = s.ret := rfl
@[simp] theorem setSkip_initialized (s : State) : s.setSkip.initialized = s.initialized := rfl
@[simp] theorem setSkip_poweredOn (s : State) : s.setSkip.poweredOn = s.poweredOn := rfl
@[simp] theorem setSkip_skip (s : State) : s.setSkip.skip = true := rfl
@[simp] theorem setSkip_err (s : State) : s.setSkip.err = s.err := rfl
@[simp] theorem setSkip_ill (s : State) : s.setSkip.ill = s.ill := rfl
@[simp] theorem setSkip_cause (s : State) : s.setSkip.cause = s.cause := rfl
@[simp] theorem setSkip_hpc (s : State) : s.setSkip.hpc = s.hpc := rfl
@[simp] theorem setSkip_vbc (s : State) : s.setSkip.vbc = s.vbc := rfl
@[simp] theorem setSkip_k (s : State) : s.setSkip.k = s.k := rfl
@[simp] theorem setSkip_ai (s : State) : s.setSkip.ai = s.ai := rfl
@[simp] theorem setSkip_timer (s : State) : s.setSkip.timer = s.timer := rfl
@[simp] theorem setSkip_sel (s : State) : s.setSkip.sel = s.sel := rfl
@[simp] theorem setSkip_mode (s : State) : s.setSkip.mode = s.mode := rfl
@[simp] theorem setSkip_rstl (s : State) : s.setSkip.rstl = s.rstl := rfl
@[simp] theorem setSkip_opDone (s : State) : s.setSkip.opDone = s.opDone := rfl
@[simp] theorem setSkip_fb (s : State) : s.setSkip.fb = s.fb := rfl
@[simp] theorem setSkip_trace (s : State) : s.setSkip.trace = s.trace := rfl
@[simp] theorem setSkip_late (s : State) : s.setSkip.late = s.late := rfl
@[simp] theorem setSkip_raced (s : State) : s.setSkip.raced = s.raced := rfl
@[simp] theorem setSkip_races (s : State) : s.setSkip.races = s.races := rfl
@[simp] theorem setSkip_host (s : State) : s.setSkip.host = s.host := rfl
@[simp] theorem setSkip_busyIn (s : State) : s.setSkip.busyIn = s.busyIn := rfl
@[simp] theorem setSkip_busyDraws (s : State) : s.setSkip.busyDraws = s.busyDraws := rfl
@[simp] theorem setSkip_txFail (s : State) : s.setSkip.txFail = s.txFail := rfl
@[simp] theorem setSkip_resetIn (s : State) : s.setSkip.resetIn = s.resetIn := rfl

/-! ## State.setIll -/

@[simp] theorem setIll_cfg (s : State) : s.setIll.cfg = s.cfg := rfl
@[simp] theorem setIll_ctl (s : State) : s.setIll.ctl = s.ctl := rfl
@[simp] theorem setIll_active (s : State) : s.setIll.active = s.active := rfl
@[simp] theorem setIll_seq (s : State) : s.setIll.seq = s.seq := rfl
@[simp] theorem setIll_curOp (s : State) : s.setIll.curOp = s.curOp := rfl
@[simp] theorem setIll_curFull (s : State) : s.setIll.curFull = s.curFull := rfl
@[simp] theorem setIll_ret (s : State) : s.setIll.ret = s.ret := rfl
@[simp] theorem setIll_initialized (s : State) : s.setIll.initialized = s.initialized := rfl
@[simp] theorem setIll_poweredOn (s : State) : s.setIll.poweredOn = s.poweredOn := rfl
@[simp] theorem setIll_skip (s : State) : s.setIll.skip = s.skip := rfl
@[simp] theorem setIll_err (s : State) : s.setIll.err = s.err := rfl
@[simp] theorem setIll_ill (s : State) : s.setIll.ill = true := rfl
@[simp] theorem setIll_cause (s : State) : s.setIll.cause = s.cause := rfl
@[simp] theorem setIll_hpc (s : State) : s.setIll.hpc = s.hpc := rfl
@[simp] theorem setIll_vbc (s : State) : s.setIll.vbc = s.vbc := rfl
@[simp] theorem setIll_k (s : State) : s.setIll.k = s.k := rfl
@[simp] theorem setIll_ai (s : State) : s.setIll.ai = s.ai := rfl
@[simp] theorem setIll_timer (s : State) : s.setIll.timer = s.timer := rfl
@[simp] theorem setIll_sel (s : State) : s.setIll.sel = s.sel := rfl
@[simp] theorem setIll_mode (s : State) : s.setIll.mode = s.mode := rfl
@[simp] theorem setIll_rstl (s : State) : s.setIll.rstl = s.rstl := rfl
@[simp] theorem setIll_opDone (s : State) : s.setIll.opDone = s.opDone := rfl
@[simp] theorem setIll_fb (s : State) : s.setIll.fb = s.fb := rfl
@[simp] theorem setIll_trace (s : State) : s.setIll.trace = s.trace := rfl
@[simp] theorem setIll_late (s : State) : s.setIll.late = s.late := rfl
@[simp] theorem setIll_raced (s : State) : s.setIll.raced = s.raced := rfl
@[simp] theorem setIll_races (s : State) : s.setIll.races = s.races := rfl
@[simp] theorem setIll_host (s : State) : s.setIll.host = s.host := rfl
@[simp] theorem setIll_busyIn (s : State) : s.setIll.busyIn = s.busyIn := rfl
@[simp] theorem setIll_busyDraws (s : State) : s.setIll.busyDraws = s.busyDraws := rfl
@[simp] theorem setIll_txFail (s : State) : s.setIll.txFail = s.txFail := rfl
@[simp] theorem setIll_resetIn (s : State) : s.setIll.resetIn = s.resetIn := rfl

/-! ## State.setErr -/

@[simp] theorem setErr_cfg (c : BitVec 2) (s : State) : (State.setErr c s).cfg = s.cfg := rfl
@[simp] theorem setErr_ctl (c : BitVec 2) (s : State) : (State.setErr c s).ctl = s.ctl := rfl
@[simp] theorem setErr_active (c : BitVec 2) (s : State) : (State.setErr c s).active = s.active := rfl
@[simp] theorem setErr_seq (c : BitVec 2) (s : State) : (State.setErr c s).seq = s.seq := rfl
@[simp] theorem setErr_curOp (c : BitVec 2) (s : State) : (State.setErr c s).curOp = s.curOp := rfl
@[simp] theorem setErr_curFull (c : BitVec 2) (s : State) : (State.setErr c s).curFull = s.curFull := rfl
@[simp] theorem setErr_ret (c : BitVec 2) (s : State) : (State.setErr c s).ret = s.ret := rfl
@[simp] theorem setErr_initialized (c : BitVec 2) (s : State) : (State.setErr c s).initialized = s.initialized := rfl
@[simp] theorem setErr_poweredOn (c : BitVec 2) (s : State) : (State.setErr c s).poweredOn = s.poweredOn := rfl
@[simp] theorem setErr_skip (c : BitVec 2) (s : State) : (State.setErr c s).skip = s.skip := rfl
@[simp] theorem setErr_err (c : BitVec 2) (s : State) : (State.setErr c s).err = true := rfl
@[simp] theorem setErr_ill (c : BitVec 2) (s : State) : (State.setErr c s).ill = s.ill := rfl
@[simp] theorem setErr_cause (c : BitVec 2) (s : State) : (State.setErr c s).cause = c := rfl
@[simp] theorem setErr_hpc (c : BitVec 2) (s : State) : (State.setErr c s).hpc = s.hpc := rfl
@[simp] theorem setErr_vbc (c : BitVec 2) (s : State) : (State.setErr c s).vbc = s.vbc := rfl
@[simp] theorem setErr_k (c : BitVec 2) (s : State) : (State.setErr c s).k = s.k := rfl
@[simp] theorem setErr_ai (c : BitVec 2) (s : State) : (State.setErr c s).ai = s.ai := rfl
@[simp] theorem setErr_timer (c : BitVec 2) (s : State) : (State.setErr c s).timer = s.timer := rfl
@[simp] theorem setErr_sel (c : BitVec 2) (s : State) : (State.setErr c s).sel = s.sel := rfl
@[simp] theorem setErr_mode (c : BitVec 2) (s : State) : (State.setErr c s).mode = s.mode := rfl
@[simp] theorem setErr_rstl (c : BitVec 2) (s : State) : (State.setErr c s).rstl = s.rstl := rfl
@[simp] theorem setErr_opDone (c : BitVec 2) (s : State) : (State.setErr c s).opDone = s.opDone := rfl
@[simp] theorem setErr_fb (c : BitVec 2) (s : State) : (State.setErr c s).fb = s.fb := rfl
@[simp] theorem setErr_trace (c : BitVec 2) (s : State) : (State.setErr c s).trace = s.trace := rfl
@[simp] theorem setErr_late (c : BitVec 2) (s : State) : (State.setErr c s).late = s.late := rfl
@[simp] theorem setErr_raced (c : BitVec 2) (s : State) : (State.setErr c s).raced = s.raced := rfl
@[simp] theorem setErr_races (c : BitVec 2) (s : State) : (State.setErr c s).races = s.races := rfl
@[simp] theorem setErr_host (c : BitVec 2) (s : State) : (State.setErr c s).host = s.host := rfl
@[simp] theorem setErr_busyIn (c : BitVec 2) (s : State) : (State.setErr c s).busyIn = s.busyIn := rfl
@[simp] theorem setErr_busyDraws (c : BitVec 2) (s : State) : (State.setErr c s).busyDraws = s.busyDraws := rfl
@[simp] theorem setErr_txFail (c : BitVec 2) (s : State) : (State.setErr c s).txFail = s.txFail := rfl
@[simp] theorem setErr_resetIn (c : BitVec 2) (s : State) : (State.setErr c s).resetIn = s.resetIn := rfl

/-! ## State.loadTimer -/

@[simp] theorem loadTimer_cfg (n : Nat) (s : State) : (State.loadTimer n s).cfg = s.cfg := rfl
@[simp] theorem loadTimer_ctl (n : Nat) (s : State) : (State.loadTimer n s).ctl = s.ctl := rfl
@[simp] theorem loadTimer_active (n : Nat) (s : State) : (State.loadTimer n s).active = s.active := rfl
@[simp] theorem loadTimer_seq (n : Nat) (s : State) : (State.loadTimer n s).seq = s.seq := rfl
@[simp] theorem loadTimer_curOp (n : Nat) (s : State) : (State.loadTimer n s).curOp = s.curOp := rfl
@[simp] theorem loadTimer_curFull (n : Nat) (s : State) : (State.loadTimer n s).curFull = s.curFull := rfl
@[simp] theorem loadTimer_ret (n : Nat) (s : State) : (State.loadTimer n s).ret = s.ret := rfl
@[simp] theorem loadTimer_initialized (n : Nat) (s : State) : (State.loadTimer n s).initialized = s.initialized := rfl
@[simp] theorem loadTimer_poweredOn (n : Nat) (s : State) : (State.loadTimer n s).poweredOn = s.poweredOn := rfl
@[simp] theorem loadTimer_skip (n : Nat) (s : State) : (State.loadTimer n s).skip = s.skip := rfl
@[simp] theorem loadTimer_err (n : Nat) (s : State) : (State.loadTimer n s).err = s.err := rfl
@[simp] theorem loadTimer_ill (n : Nat) (s : State) : (State.loadTimer n s).ill = s.ill := rfl
@[simp] theorem loadTimer_cause (n : Nat) (s : State) : (State.loadTimer n s).cause = s.cause := rfl
@[simp] theorem loadTimer_hpc (n : Nat) (s : State) : (State.loadTimer n s).hpc = s.hpc := rfl
@[simp] theorem loadTimer_vbc (n : Nat) (s : State) : (State.loadTimer n s).vbc = s.vbc := rfl
@[simp] theorem loadTimer_k (n : Nat) (s : State) : (State.loadTimer n s).k = s.k := rfl
@[simp] theorem loadTimer_ai (n : Nat) (s : State) : (State.loadTimer n s).ai = s.ai := rfl
@[simp] theorem loadTimer_timer (n : Nat) (s : State) : (State.loadTimer n s).timer = s.cfg.ticks n := rfl
@[simp] theorem loadTimer_sel (n : Nat) (s : State) : (State.loadTimer n s).sel = s.sel := rfl
@[simp] theorem loadTimer_mode (n : Nat) (s : State) : (State.loadTimer n s).mode = s.mode := rfl
@[simp] theorem loadTimer_rstl (n : Nat) (s : State) : (State.loadTimer n s).rstl = s.rstl := rfl
@[simp] theorem loadTimer_opDone (n : Nat) (s : State) : (State.loadTimer n s).opDone = s.opDone := rfl
@[simp] theorem loadTimer_fb (n : Nat) (s : State) : (State.loadTimer n s).fb = s.fb := rfl
@[simp] theorem loadTimer_trace (n : Nat) (s : State) : (State.loadTimer n s).trace = s.trace := rfl
@[simp] theorem loadTimer_late (n : Nat) (s : State) : (State.loadTimer n s).late = s.late := rfl
@[simp] theorem loadTimer_raced (n : Nat) (s : State) : (State.loadTimer n s).raced = s.raced := rfl
@[simp] theorem loadTimer_races (n : Nat) (s : State) : (State.loadTimer n s).races = s.races := rfl
@[simp] theorem loadTimer_host (n : Nat) (s : State) : (State.loadTimer n s).host = s.host := rfl
@[simp] theorem loadTimer_busyIn (n : Nat) (s : State) : (State.loadTimer n s).busyIn = s.busyIn := rfl
@[simp] theorem loadTimer_busyDraws (n : Nat) (s : State) : (State.loadTimer n s).busyDraws = s.busyDraws := rfl
@[simp] theorem loadTimer_txFail (n : Nat) (s : State) : (State.loadTimer n s).txFail = s.txFail := rfl
@[simp] theorem loadTimer_resetIn (n : Nat) (s : State) : (State.loadTimer n s).resetIn = s.resetIn := rfl

/-! ## State.expireTimer -/

@[simp] theorem expireTimer_cfg (s : State) : s.expireTimer.cfg = s.cfg := rfl
@[simp] theorem expireTimer_ctl (s : State) : s.expireTimer.ctl = s.ctl := rfl
@[simp] theorem expireTimer_active (s : State) : s.expireTimer.active = s.active := rfl
@[simp] theorem expireTimer_seq (s : State) : s.expireTimer.seq = s.seq := rfl
@[simp] theorem expireTimer_curOp (s : State) : s.expireTimer.curOp = s.curOp := rfl
@[simp] theorem expireTimer_curFull (s : State) : s.expireTimer.curFull = s.curFull := rfl
@[simp] theorem expireTimer_ret (s : State) : s.expireTimer.ret = s.ret := rfl
@[simp] theorem expireTimer_initialized (s : State) : s.expireTimer.initialized = s.initialized := rfl
@[simp] theorem expireTimer_poweredOn (s : State) : s.expireTimer.poweredOn = s.poweredOn := rfl
@[simp] theorem expireTimer_skip (s : State) : s.expireTimer.skip = s.skip := rfl
@[simp] theorem expireTimer_err (s : State) : s.expireTimer.err = s.err := rfl
@[simp] theorem expireTimer_ill (s : State) : s.expireTimer.ill = s.ill := rfl
@[simp] theorem expireTimer_cause (s : State) : s.expireTimer.cause = s.cause := rfl
@[simp] theorem expireTimer_hpc (s : State) : s.expireTimer.hpc = s.hpc := rfl
@[simp] theorem expireTimer_vbc (s : State) : s.expireTimer.vbc = s.vbc := rfl
@[simp] theorem expireTimer_k (s : State) : s.expireTimer.k = s.k := rfl
@[simp] theorem expireTimer_ai (s : State) : s.expireTimer.ai = s.ai := rfl
@[simp] theorem expireTimer_timer (s : State) : s.expireTimer.timer = 0 := rfl
@[simp] theorem expireTimer_sel (s : State) : s.expireTimer.sel = s.sel := rfl
@[simp] theorem expireTimer_mode (s : State) : s.expireTimer.mode = s.mode := rfl
@[simp] theorem expireTimer_rstl (s : State) : s.expireTimer.rstl = s.rstl := rfl
@[simp] theorem expireTimer_opDone (s : State) : s.expireTimer.opDone = s.opDone := rfl
@[simp] theorem expireTimer_fb (s : State) : s.expireTimer.fb = s.fb := rfl
@[simp] theorem expireTimer_trace (s : State) : s.expireTimer.trace = s.trace := rfl
@[simp] theorem expireTimer_late (s : State) : s.expireTimer.late = s.late := rfl
@[simp] theorem expireTimer_raced (s : State) : s.expireTimer.raced = s.raced := rfl
@[simp] theorem expireTimer_races (s : State) : s.expireTimer.races = s.races := rfl
@[simp] theorem expireTimer_host (s : State) : s.expireTimer.host = s.host := rfl
@[simp] theorem expireTimer_busyIn (s : State) : s.expireTimer.busyIn = s.busyIn := rfl
@[simp] theorem expireTimer_busyDraws (s : State) : s.expireTimer.busyDraws = s.busyDraws := rfl
@[simp] theorem expireTimer_txFail (s : State) : s.expireTimer.txFail = s.txFail := rfl
@[simp] theorem expireTimer_resetIn (s : State) : s.expireTimer.resetIn = s.resetIn := rfl

/-! ## beginInit -/

@[simp] theorem beginInit_cfg (op : HostOp) (s : State) : (beginInit op s).cfg = s.cfg := rfl
@[simp] theorem beginInit_ctl (op : HostOp) (s : State) : (beginInit op s).ctl = .resetting := rfl
@[simp] theorem beginInit_active (op : HostOp) (s : State) : (beginInit op s).active = true := rfl
@[simp] theorem beginInit_seq (op : HostOp) (s : State) : (beginInit op s).seq = 0 := rfl
@[simp] theorem beginInit_curOp (op : HostOp) (s : State) : (beginInit op s).curOp = op := rfl
@[simp] theorem beginInit_curFull (op : HostOp) (s : State) : (beginInit op s).curFull = s.curFull := rfl
@[simp] theorem beginInit_ret (op : HostOp) (s : State) : (beginInit op s).ret = s.ret := rfl
@[simp] theorem beginInit_initialized (op : HostOp) (s : State) : (beginInit op s).initialized = s.initialized := rfl
@[simp] theorem beginInit_poweredOn (op : HostOp) (s : State) : (beginInit op s).poweredOn = s.poweredOn := rfl
@[simp] theorem beginInit_skip (op : HostOp) (s : State) : (beginInit op s).skip = s.skip := rfl
@[simp] theorem beginInit_err (op : HostOp) (s : State) : (beginInit op s).err = s.err := rfl
@[simp] theorem beginInit_ill (op : HostOp) (s : State) : (beginInit op s).ill = s.ill := rfl
@[simp] theorem beginInit_cause (op : HostOp) (s : State) : (beginInit op s).cause = s.cause := rfl
@[simp] theorem beginInit_hpc (op : HostOp) (s : State) : (beginInit op s).hpc = s.hpc := rfl
@[simp] theorem beginInit_vbc (op : HostOp) (s : State) : (beginInit op s).vbc = s.vbc := rfl
@[simp] theorem beginInit_k (op : HostOp) (s : State) : (beginInit op s).k = s.k := rfl
@[simp] theorem beginInit_ai (op : HostOp) (s : State) : (beginInit op s).ai = s.ai := rfl
@[simp] theorem beginInit_timer (op : HostOp) (s : State) : (beginInit op s).timer = s.timer := rfl
@[simp] theorem beginInit_sel (op : HostOp) (s : State) : (beginInit op s).sel = s.sel := rfl
@[simp] theorem beginInit_mode (op : HostOp) (s : State) : (beginInit op s).mode = s.mode := rfl
@[simp] theorem beginInit_rstl (op : HostOp) (s : State) : (beginInit op s).rstl = s.rstl := rfl
@[simp] theorem beginInit_opDone (op : HostOp) (s : State) : (beginInit op s).opDone = false := rfl
@[simp] theorem beginInit_fb (op : HostOp) (s : State) : (beginInit op s).fb = s.fb := rfl
@[simp] theorem beginInit_trace (op : HostOp) (s : State) : (beginInit op s).trace = s.trace := rfl
@[simp] theorem beginInit_late (op : HostOp) (s : State) : (beginInit op s).late = s.late := rfl
@[simp] theorem beginInit_raced (op : HostOp) (s : State) : (beginInit op s).raced = [] := rfl
@[simp] theorem beginInit_races (op : HostOp) (s : State) : (beginInit op s).races = s.races := rfl
@[simp] theorem beginInit_host (op : HostOp) (s : State) : (beginInit op s).host = s.host := rfl
@[simp] theorem beginInit_busyIn (op : HostOp) (s : State) : (beginInit op s).busyIn = s.busyIn := rfl
@[simp] theorem beginInit_busyDraws (op : HostOp) (s : State) : (beginInit op s).busyDraws = s.busyDraws := rfl
@[simp] theorem beginInit_txFail (op : HostOp) (s : State) : (beginInit op s).txFail = s.txFail := rfl
@[simp] theorem beginInit_resetIn (op : HostOp) (s : State) : (beginInit op s).resetIn = s.resetIn := rfl

/-! ## beginRefresh -/

@[simp] theorem beginRefresh_cfg (full : Bool) (s : State) : (beginRefresh full s).cfg = s.cfg := rfl
@[simp] theorem beginRefresh_ctl (full : Bool) (s : State) : (beginRefresh full s).ctl = .busy := rfl
@[simp] theorem beginRefresh_active (full : Bool) (s : State) : (beginRefresh full s).active = true := rfl
@[simp] theorem beginRefresh_seq (full : Bool) (s : State) : (beginRefresh full s).seq = 0 := rfl
@[simp] theorem beginRefresh_curOp (full : Bool) (s : State) : (beginRefresh full s).curOp = .refresh := rfl
@[simp] theorem beginRefresh_curFull (full : Bool) (s : State) : (beginRefresh full s).curFull = full := rfl
@[simp] theorem beginRefresh_ret (full : Bool) (s : State) : (beginRefresh full s).ret = s.ctl := rfl
@[simp] theorem beginRefresh_initialized (full : Bool) (s : State) : (beginRefresh full s).initialized = s.initialized := rfl
@[simp] theorem beginRefresh_poweredOn (full : Bool) (s : State) : (beginRefresh full s).poweredOn = s.poweredOn := rfl
@[simp] theorem beginRefresh_skip (full : Bool) (s : State) : (beginRefresh full s).skip = s.skip := rfl
@[simp] theorem beginRefresh_err (full : Bool) (s : State) : (beginRefresh full s).err = s.err := rfl
@[simp] theorem beginRefresh_ill (full : Bool) (s : State) : (beginRefresh full s).ill = s.ill := rfl
@[simp] theorem beginRefresh_cause (full : Bool) (s : State) : (beginRefresh full s).cause = s.cause := rfl
@[simp] theorem beginRefresh_hpc (full : Bool) (s : State) : (beginRefresh full s).hpc = s.hpc := rfl
@[simp] theorem beginRefresh_vbc (full : Bool) (s : State) : (beginRefresh full s).vbc = s.vbc := rfl
@[simp] theorem beginRefresh_k (full : Bool) (s : State) : (beginRefresh full s).k = s.k := rfl
@[simp] theorem beginRefresh_ai (full : Bool) (s : State) : (beginRefresh full s).ai = s.ai := rfl
@[simp] theorem beginRefresh_timer (full : Bool) (s : State) : (beginRefresh full s).timer = s.timer := rfl
@[simp] theorem beginRefresh_sel (full : Bool) (s : State) : (beginRefresh full s).sel = s.sel := rfl
@[simp] theorem beginRefresh_mode (full : Bool) (s : State) : (beginRefresh full s).mode = s.mode := rfl
@[simp] theorem beginRefresh_rstl (full : Bool) (s : State) : (beginRefresh full s).rstl = s.rstl := rfl
@[simp] theorem beginRefresh_opDone (full : Bool) (s : State) : (beginRefresh full s).opDone = false := rfl
@[simp] theorem beginRefresh_fb (full : Bool) (s : State) : (beginRefresh full s).fb = s.fb := rfl
@[simp] theorem beginRefresh_trace (full : Bool) (s : State) : (beginRefresh full s).trace = s.trace := rfl
@[simp] theorem beginRefresh_late (full : Bool) (s : State) : (beginRefresh full s).late = s.late := rfl
@[simp] theorem beginRefresh_raced (full : Bool) (s : State) : (beginRefresh full s).raced = [] := rfl
@[simp] theorem beginRefresh_races (full : Bool) (s : State) : (beginRefresh full s).races = s.races := rfl
@[simp] theorem beginRefresh_host (full : Bool) (s : State) : (beginRefresh full s).host = s.host := rfl
@[simp] theorem beginRefresh_busyIn (full : Bool) (s : State) : (beginRefresh full s).busyIn = s.busyIn := rfl
@[simp] theorem beginRefresh_busyDraws (full : Bool) (s : State) : (beginRefresh full s).busyDraws = s.busyDraws := rfl
@[simp] theorem beginRefresh_txFail (full : Bool) (s : State) : (beginRefresh full s).txFail = s.txFail := rfl
@[simp] theorem beginRefresh_resetIn (full : Bool) (s : State) : (beginRefresh full s).resetIn = s.resetIn := rfl

/-! ## beginSleep -/

@[simp] theorem beginSleep_cfg (s : State) : (beginSleep s).cfg = s.cfg := rfl
@[simp] theorem beginSleep_ctl (s : State) : (beginSleep s).ctl = .sleeping := rfl
@[simp] theorem beginSleep_active (s : State) : (beginSleep s).active = true := rfl
@[simp] theorem beginSleep_seq (s : State) : (beginSleep s).seq = 0 := rfl
@[simp] theorem beginSleep_curOp (s : State) : (beginSleep s).curOp = .sleep := rfl
@[simp] theorem beginSleep_curFull (s : State) : (beginSleep s).curFull = s.curFull := rfl
@[simp] theorem beginSleep_ret (s : State) : (beginSleep s).ret = s.ret := rfl
@[simp] theorem beginSleep_initialized (s : State) : (beginSleep s).initialized = s.initialized := rfl
@[simp] theorem beginSleep_poweredOn (s : State) : (beginSleep s).poweredOn = s.poweredOn := rfl
@[simp] theorem beginSleep_skip (s : State) : (beginSleep s).skip = s.skip := rfl
@[simp] theorem beginSleep_err (s : State) : (beginSleep s).err = s.err := rfl
@[simp] theorem beginSleep_ill (s : State) : (beginSleep s).ill = s.ill := rfl
@[simp] theorem beginSleep_cause (s : State) : (beginSleep s).cause = s.cause := rfl
@[simp] theorem beginSleep_hpc (s : State) : (beginSleep s).hpc = s.hpc := rfl
@[simp] theorem beginSleep_vbc (s : State) : (beginSleep s).vbc = s.vbc := rfl
@[simp] theorem beginSleep_k (s : State) : (beginSleep s).k = s.k := rfl
@[simp] theorem beginSleep_ai (s : State) : (beginSleep s).ai = s.ai := rfl
@[simp] theorem beginSleep_timer (s : State) : (beginSleep s).timer = s.timer := rfl
@[simp] theorem beginSleep_sel (s : State) : (beginSleep s).sel = s.sel := rfl
@[simp] theorem beginSleep_mode (s : State) : (beginSleep s).mode = s.mode := rfl
@[simp] theorem beginSleep_rstl (s : State) : (beginSleep s).rstl = s.rstl := rfl
@[simp] theorem beginSleep_opDone (s : State) : (beginSleep s).opDone = false := rfl
@[simp] theorem beginSleep_fb (s : State) : (beginSleep s).fb = s.fb := rfl
@[simp] theorem beginSleep_trace (s : State) : (beginSleep s).trace = s.trace := rfl
@[simp] theorem beginSleep_late (s : State) : (beginSleep s).late = s.late := rfl
@[simp] theorem beginSleep_raced (s : State) : (beginSleep s).raced = [] := rfl
@[simp] theorem beginSleep_races (s : State) : (beginSleep s).races = s.races := rfl
@[simp] theorem beginSleep_host (s : State) : (beginSleep s).host = s.host := rfl
@[simp] theorem beginSleep_busyIn (s : State) : (beginSleep s).busyIn = s.busyIn := rfl
@[simp] theorem beginSleep_busyDraws (s : State) : (beginSleep s).busyDraws = s.busyDraws := rfl
@[simp] theorem beginSleep_txFail (s : State) : (beginSleep s).txFail = s.txFail := rfl
@[simp] theorem beginSleep_resetIn (s : State) : (beginSleep s).resetIn = s.resetIn := rfl

/-! ## initDone -/

@[simp] theorem initDone_cfg (s : State) : (initDone s).cfg = s.cfg := rfl
@[simp] theorem initDone_ctl (s : State) : (initDone s).ctl = .idle := rfl
@[simp] theorem initDone_active (s : State) : (initDone s).active = false := rfl
@[simp] theorem initDone_seq (s : State) : (initDone s).seq = s.seq := rfl
@[simp] theorem initDone_curOp (s : State) : (initDone s).curOp = s.curOp := rfl
@[simp] theorem initDone_curFull (s : State) : (initDone s).curFull = s.curFull := rfl
@[simp] theorem initDone_ret (s : State) : (initDone s).ret = s.ret := rfl
@[simp] theorem initDone_initialized (s : State) : (initDone s).initialized = true := rfl
@[simp] theorem initDone_poweredOn (s : State) : (initDone s).poweredOn = true := rfl
@[simp] theorem initDone_skip (s : State) : (initDone s).skip = s.skip := rfl
@[simp] theorem initDone_err (s : State) : (initDone s).err = s.err := rfl
@[simp] theorem initDone_ill (s : State) : (initDone s).ill = s.ill := rfl
@[simp] theorem initDone_cause (s : State) : (initDone s).cause = s.cause := rfl
@[simp] theorem initDone_hpc (s : State) : (initDone s).hpc = s.hpc := rfl
@[simp] theorem initDone_vbc (s : State) : (initDone s).vbc = s.vbc := rfl
@[simp] theorem initDone_k (s : State) : (initDone s).k = s.k := rfl
@[simp] theorem initDone_ai (s : State) : (initDone s).ai = s.ai := rfl
@[simp] theorem initDone_timer (s : State) : (initDone s).timer = s.timer := rfl
@[simp] theorem initDone_sel (s : State) : (initDone s).sel = s.sel := rfl
@[simp] theorem initDone_mode (s : State) : (initDone s).mode = s.mode := rfl
@[simp] theorem initDone_rstl (s : State) : (initDone s).rstl = s.rstl := rfl
@[simp] theorem initDone_opDone (s : State) : (initDone s).opDone = true := rfl
@[simp] theorem initDone_fb (s : State) : (initDone s).fb = s.fb := rfl
@[simp] theorem initDone_trace (s : State) : (initDone s).trace = s.trace := rfl
@[simp] theorem initDone_late (s : State) : (initDone s).late = s.late := rfl
@[simp] theorem initDone_raced (s : State) : (initDone s).raced = s.raced := rfl
@[simp] theorem initDone_races (s : State) : (initDone s).races = s.races := rfl
@[simp] theorem initDone_host (s : State) : (initDone s).host = s.host := rfl
@[simp] theorem initDone_busyIn (s : State) : (initDone s).busyIn = s.busyIn := rfl
@[simp] theorem initDone_busyDraws (s : State) : (initDone s).busyDraws = s.busyDraws := rfl
@[simp] theorem initDone_txFail (s : State) : (initDone s).txFail = s.txFail := rfl
@[simp] theorem initDone_resetIn (s : State) : (initDone s).resetIn = s.resetIn := rfl

/-! ## refreshDone -/

@[simp] theorem refreshDone_cfg (s : State) : (refreshDone s).cfg = s.cfg := rfl
@[simp] theorem refreshDone_ctl (s : State) : (refreshDone s).ctl = s.ret := rfl
@[simp] theorem refreshDone_active (s : State) : (refreshDone s).active = false := rfl
@[simp] theorem refreshDone_seq (s : State) : (refreshDone s).seq = s.seq := rfl
@[simp] theorem refreshDone_curOp (s : State) : (refreshDone s).curOp = s.curOp := rfl
@[simp] theorem refreshDone_curFull (s : State) : (refreshDone s).curFull = s.curFull := rfl
@[simp] theorem refreshDone_ret (s : State) : (refreshDone s).ret = s.ret := rfl
@[simp] theorem refreshDone_initialized (s : State) : (refreshDone s).initialized = s.initialized := rfl
@[simp] theorem refreshDone_poweredOn (s : State) : (refreshDone s).poweredOn = s.poweredOn := rfl
@[simp] theorem refreshDone_skip (s : State) : (refreshDone s).skip = s.skip := rfl
@[simp] theorem refreshDone_err (s : State) : (refreshDone s).err = s.err := rfl
@[simp] theorem refreshDone_ill (s : State) : (refreshDone s).ill = s.ill := rfl
@[simp] theorem refreshDone_cause (s : State) : (refreshDone s).cause = s.cause := rfl
@[simp] theorem refreshDone_hpc (s : State) : (refreshDone s).hpc = s.hpc := rfl
@[simp] theorem refreshDone_vbc (s : State) : (refreshDone s).vbc = s.vbc := rfl
@[simp] theorem refreshDone_k (s : State) : (refreshDone s).k = s.k := rfl
@[simp] theorem refreshDone_ai (s : State) : (refreshDone s).ai = s.ai := rfl
@[simp] theorem refreshDone_timer (s : State) : (refreshDone s).timer = s.timer := rfl
@[simp] theorem refreshDone_sel (s : State) : (refreshDone s).sel = s.sel := rfl
@[simp] theorem refreshDone_mode (s : State) : (refreshDone s).mode = s.mode := rfl
@[simp] theorem refreshDone_rstl (s : State) : (refreshDone s).rstl = s.rstl := rfl
@[simp] theorem refreshDone_opDone (s : State) : (refreshDone s).opDone = true := rfl
@[simp] theorem refreshDone_fb (s : State) : (refreshDone s).fb = s.fb := rfl
@[simp] theorem refreshDone_trace (s : State) : (refreshDone s).trace = s.trace := rfl
@[simp] theorem refreshDone_late (s : State) : (refreshDone s).late = s.late := rfl
@[simp] theorem refreshDone_raced (s : State) : (refreshDone s).raced = s.raced := rfl
@[simp] theorem refreshDone_races (s : State) : (refreshDone s).races = s.races := rfl
@[simp] theorem refreshDone_host (s : State) : (refreshDone s).host = s.host := rfl
@[simp] theorem refreshDone_busyIn (s : State) : (refreshDone s).busyIn = s.busyIn := rfl
@[simp] theorem refreshDone_busyDraws (s : State) : (refreshDone s).busyDraws = s.busyDraws := rfl
@[simp] theorem refreshDone_txFail (s : State) : (refreshDone s).txFail = s.txFail := rfl
@[simp] theorem refreshDone_resetIn (s : State) : (refreshDone s).resetIn = s.resetIn := rfl

/-! ## sleepDone -/

@[simp] theorem sleepDone_cfg (s : State) : (sleepDone s).cfg = s.cfg := rfl
@[simp] theorem sleepDone_ctl (s : State) : (sleepDone s).ctl = s.ctl := rfl
@[simp] theorem sleepDone_active (s : State) : (sleepDone s).active = false := rfl
@[simp] theorem sleepDone_seq (s : State) : (sleepDone s).seq = s.seq := rfl
@[simp] theorem sleepDone_curOp (s : State) : (sleepDone s).curOp = s.curOp := rfl
@[simp] theorem sleepDone_curFull (s : State) : (sleepDone s).curFull = s.curFull := rfl
@[simp] theorem sleepDone_ret (s : State) : (sleepDone s).ret = s.ret := rfl
@[simp] theorem sleepDone_initialized (s : State) : (sleepDone s).initialized = s.initialized := rfl
@[simp] theorem sleepDone_poweredOn (s : State) : (sleepDone s).poweredOn = false := rfl
@[simp] theorem sleepDone_skip (s : State) : (sleepDone s).skip = s.skip := rfl
@[simp] theorem sleepDone_err (s : State) : (sleepDone s).err = s.err := rfl
@[simp] theorem sleepDone_ill (s : State) : (sleepDone s).ill = s.ill := rfl
@[simp] theorem sleepDone_cause (s : State) : (sleepDone s).cause = s.cause := rfl
@[simp] theorem sleepDone_hpc (s : State) : (sleepDone s).hpc = s.hpc := rfl
@[simp] theorem sleepDone_vbc (s : State) : (sleepDone s).vbc = s.vbc := rfl
@[simp] theorem sleepDone_k (s : State) : (sleepDone s).k = s.k := rfl
@[simp] theorem sleepDone_ai (s : State) : (sleepDone s).ai = s.ai := rfl
@[simp] theorem sleepDone_timer (s : State) : (sleepDone s).timer = s.timer := rfl
@[simp] theorem sleepDone_sel (s : State) : (sleepDone s).sel = s.sel := rfl
@[simp] theorem sleepDone_mode (s : State) : (sleepDone s).mode = s.mode := rfl
@[simp] theorem sleepDone_rstl (s : State) : (sleepDone s).rstl = s.rstl := rfl
@[simp] theorem sleepDone_opDone (s : State) : (sleepDone s).opDone = true := rfl
@[simp] theorem sleepDone_fb (s : State) : (sleepDone s).fb = s.fb := rfl
@[simp] theorem sleepDone_trace (s : State) : (sleepDone s).trace = s.trace := rfl
@[simp] theorem sleepDone_late (s : State) : (sleepDone s).late = s.late := rfl
@[simp] theorem sleepDone_raced (s : State) : (sleepDone s).raced = s.raced := rfl
@[simp] theorem sleepDone_races (s : State) : (sleepDone s).races = s.races := rfl
@[simp] theorem sleepDone_host (s : State) : (sleepDone s).host = s.host := rfl
@[simp] theorem sleepDone_busyIn (s : State) : (sleepDone s).busyIn = s.busyIn := rfl
@[simp] theorem sleepDone_busyDraws (s : State) : (sleepDone s).busyDraws = s.busyDraws := rfl
@[simp] theorem sleepDone_txFail (s : State) : (sleepDone s).txFail = s.txFail := rfl
@[simp] theorem sleepDone_resetIn (s : State) : (sleepDone s).resetIn = s.resetIn := rfl

/-! ## transportError -/

@[simp] theorem transportError_cfg (s : State) : (transportError s).cfg = s.cfg := rfl
@[simp] theorem transportError_ctl (s : State) : (transportError s).ctl = .uninitialized := rfl
@[simp] theorem transportError_active (s : State) : (transportError s).active = false := rfl
@[simp] theorem transportError_seq (s : State) : (transportError s).seq = s.seq := rfl
@[simp] theorem transportError_curOp (s : State) : (transportError s).curOp = s.curOp := rfl
@[simp] theorem transportError_curFull (s : State) : (transportError s).curFull = s.curFull := rfl
@[simp] theorem transportError_ret (s : State) : (transportError s).ret = s.ret := rfl
@[simp] theorem transportError_initialized (s : State) : (transportError s).initialized = false := rfl
@[simp] theorem transportError_poweredOn (s : State) : (transportError s).poweredOn = false := rfl
@[simp] theorem transportError_skip (s : State) : (transportError s).skip = s.skip := rfl
@[simp] theorem transportError_err (s : State) : (transportError s).err = true := rfl
@[simp] theorem transportError_ill (s : State) : (transportError s).ill = s.ill := rfl
@[simp] theorem transportError_cause (s : State) : (transportError s).cause = 1 := rfl
@[simp] theorem transportError_hpc (s : State) : (transportError s).hpc = s.hpc := rfl
@[simp] theorem transportError_vbc (s : State) : (transportError s).vbc = s.vbc := rfl
@[simp] theorem transportError_k (s : State) : (transportError s).k = s.k := rfl
@[simp] theorem transportError_ai (s : State) : (transportError s).ai = s.ai := rfl
@[simp] theorem transportError_timer (s : State) : (transportError s).timer = s.timer := rfl
@[simp] theorem transportError_sel (s : State) : (transportError s).sel = s.sel := rfl
@[simp] theorem transportError_mode (s : State) : (transportError s).mode = s.mode := rfl
@[simp] theorem transportError_rstl (s : State) : (transportError s).rstl = s.rstl := rfl
@[simp] theorem transportError_opDone (s : State) : (transportError s).opDone = true := rfl
@[simp] theorem transportError_fb (s : State) : (transportError s).fb = s.fb := rfl
@[simp] theorem transportError_trace (s : State) : (transportError s).trace = s.trace := rfl
@[simp] theorem transportError_late (s : State) : (transportError s).late = s.late := rfl
@[simp] theorem transportError_raced (s : State) : (transportError s).raced = s.raced := rfl
@[simp] theorem transportError_races (s : State) : (transportError s).races = s.races := rfl
@[simp] theorem transportError_host (s : State) : (transportError s).host = s.host := rfl
@[simp] theorem transportError_busyIn (s : State) : (transportError s).busyIn = s.busyIn := rfl
@[simp] theorem transportError_busyDraws (s : State) : (transportError s).busyDraws = s.busyDraws := rfl
@[simp] theorem transportError_txFail (s : State) : (transportError s).txFail = s.txFail := rfl
@[simp] theorem transportError_resetIn (s : State) : (transportError s).resetIn = s.resetIn := rfl

/-! ## geometryError -/

@[simp] theorem geometryError_cfg (s : State) : (geometryError s).cfg = s.cfg := rfl
@[simp] theorem geometryError_ctl (s : State) : (geometryError s).ctl = s.ctl := rfl
@[simp] theorem geometryError_active (s : State) : (geometryError s).active = s.active := rfl
@[simp] theorem geometryError_seq (s : State) : (geometryError s).seq = s.seq := rfl
@[simp] theorem geometryError_curOp (s : State) : (geometryError s).curOp = s.curOp := rfl
@[simp] theorem geometryError_curFull (s : State) : (geometryError s).curFull = s.curFull := rfl
@[simp] theorem geometryError_ret (s : State) : (geometryError s).ret = s.ret := rfl
@[simp] theorem geometryError_initialized (s : State) : (geometryError s).initialized = s.initialized := rfl
@[simp] theorem geometryError_poweredOn (s : State) : (geometryError s).poweredOn = s.poweredOn := rfl
@[simp] theorem geometryError_skip (s : State) : (geometryError s).skip = s.skip := rfl
@[simp] theorem geometryError_err (s : State) : (geometryError s).err = true := rfl
@[simp] theorem geometryError_ill (s : State) : (geometryError s).ill = s.ill := rfl
@[simp] theorem geometryError_cause (s : State) : (geometryError s).cause = 2 := rfl
@[simp] theorem geometryError_hpc (s : State) : (geometryError s).hpc = s.hpc := rfl
@[simp] theorem geometryError_vbc (s : State) : (geometryError s).vbc = s.vbc := rfl
@[simp] theorem geometryError_k (s : State) : (geometryError s).k = s.k := rfl
@[simp] theorem geometryError_ai (s : State) : (geometryError s).ai = s.ai := rfl
@[simp] theorem geometryError_timer (s : State) : (geometryError s).timer = s.timer := rfl
@[simp] theorem geometryError_sel (s : State) : (geometryError s).sel = s.sel := rfl
@[simp] theorem geometryError_mode (s : State) : (geometryError s).mode = s.mode := rfl
@[simp] theorem geometryError_rstl (s : State) : (geometryError s).rstl = s.rstl := rfl
@[simp] theorem geometryError_opDone (s : State) : (geometryError s).opDone = true := rfl
@[simp] theorem geometryError_fb (s : State) : (geometryError s).fb = s.fb := rfl
@[simp] theorem geometryError_trace (s : State) : (geometryError s).trace = s.trace := rfl
@[simp] theorem geometryError_late (s : State) : (geometryError s).late = s.late := rfl
@[simp] theorem geometryError_raced (s : State) : (geometryError s).raced = s.raced := rfl
@[simp] theorem geometryError_races (s : State) : (geometryError s).races = s.races := rfl
@[simp] theorem geometryError_host (s : State) : (geometryError s).host = s.host := rfl
@[simp] theorem geometryError_busyIn (s : State) : (geometryError s).busyIn = s.busyIn := rfl
@[simp] theorem geometryError_busyDraws (s : State) : (geometryError s).busyDraws = s.busyDraws := rfl
@[simp] theorem geometryError_txFail (s : State) : (geometryError s).txFail = s.txFail := rfl
@[simp] theorem geometryError_resetIn (s : State) : (geometryError s).resetIn = s.resetIn := rfl

/-! ## hardReset -/

@[simp] theorem hardReset_cfg (s : State) : (hardReset s).cfg = s.cfg := rfl
@[simp] theorem hardReset_ctl (s : State) : (hardReset s).ctl = .uninitialized := rfl
@[simp] theorem hardReset_active (s : State) : (hardReset s).active = false := rfl
@[simp] theorem hardReset_seq (s : State) : (hardReset s).seq = 0 := rfl
@[simp] theorem hardReset_curOp (s : State) : (hardReset s).curOp = .init := rfl
@[simp] theorem hardReset_curFull (s : State) : (hardReset s).curFull = false := rfl
@[simp] theorem hardReset_ret (s : State) : (hardReset s).ret = .idle := rfl
@[simp] theorem hardReset_initialized (s : State) : (hardReset s).initialized = false := rfl
@[simp] theorem hardReset_poweredOn (s : State) : (hardReset s).poweredOn = false := rfl
@[simp] theorem hardReset_skip (s : State) : (hardReset s).skip = false := rfl
@[simp] theorem hardReset_err (s : State) : (hardReset s).err = false := rfl
@[simp] theorem hardReset_ill (s : State) : (hardReset s).ill = false := rfl
@[simp] theorem hardReset_cause (s : State) : (hardReset s).cause = 0 := rfl
@[simp] theorem hardReset_hpc (s : State) : (hardReset s).hpc = 0 := rfl
@[simp] theorem hardReset_vbc (s : State) : (hardReset s).vbc = 0 := rfl
@[simp] theorem hardReset_k (s : State) : (hardReset s).k = 0 := rfl
@[simp] theorem hardReset_ai (s : State) : (hardReset s).ai = 0 := rfl
@[simp] theorem hardReset_timer (s : State) : (hardReset s).timer = 0 := rfl
@[simp] theorem hardReset_sel (s : State) : (hardReset s).sel = false := rfl
@[simp] theorem hardReset_mode (s : State) : (hardReset s).mode = .cmd := rfl
@[simp] theorem hardReset_rstl (s : State) : (hardReset s).rstl = false := rfl
@[simp] theorem hardReset_opDone (s : State) : (hardReset s).opDone = false := rfl
@[simp] theorem hardReset_fb (s : State) : (hardReset s).fb = s.fb := rfl
@[simp] theorem hardReset_trace (s : State) : (hardReset s).trace = s.trace := rfl
@[simp] theorem hardReset_late (s : State) : (hardReset s).late = s.late := rfl
@[simp] theorem hardReset_raced (s : State) : (hardReset s).raced = [] := rfl
@[simp] theorem hardReset_races (s : State) : (hardReset s).races = s.races := rfl
@[simp] theorem hardReset_host (s : State) : (hardReset s).host = s.host := rfl
@[simp] theorem hardReset_busyIn (s : State) : (hardReset s).busyIn = s.busyIn := rfl
@[simp] theorem hardReset_busyDraws (s : State) : (hardReset s).busyDraws = s.busyDraws := rfl
@[simp] theorem hardReset_txFail (s : State) : (hardReset s).txFail = s.txFail := rfl
@[simp] theorem hardReset_resetIn (s : State) : (hardReset s).resetIn = none := rfl

/-! ## State.land: all but the memory and the late writes -/

@[simp] theorem land_cfg (it : Item) (s : State) : (s.land it).cfg = s.cfg := rfl
@[simp] theorem land_ctl (it : Item) (s : State) : (s.land it).ctl = s.ctl := rfl
@[simp] theorem land_active (it : Item) (s : State) : (s.land it).active = s.active := rfl
@[simp] theorem land_seq (it : Item) (s : State) : (s.land it).seq = s.seq := rfl
@[simp] theorem land_curOp (it : Item) (s : State) : (s.land it).curOp = s.curOp := rfl
@[simp] theorem land_curFull (it : Item) (s : State) : (s.land it).curFull = s.curFull := rfl
@[simp] theorem land_ret (it : Item) (s : State) : (s.land it).ret = s.ret := rfl
@[simp] theorem land_initialized (it : Item) (s : State) : (s.land it).initialized = s.initialized := rfl
@[simp] theorem land_poweredOn (it : Item) (s : State) : (s.land it).poweredOn = s.poweredOn := rfl
@[simp] theorem land_skip (it : Item) (s : State) : (s.land it).skip = s.skip := rfl
@[simp] theorem land_err (it : Item) (s : State) : (s.land it).err = s.err := rfl
@[simp] theorem land_ill (it : Item) (s : State) : (s.land it).ill = s.ill := rfl
@[simp] theorem land_cause (it : Item) (s : State) : (s.land it).cause = s.cause := rfl
@[simp] theorem land_hpc (it : Item) (s : State) : (s.land it).hpc = s.hpc := rfl
@[simp] theorem land_vbc (it : Item) (s : State) : (s.land it).vbc = s.vbc := rfl
@[simp] theorem land_k (it : Item) (s : State) : (s.land it).k = s.k := rfl
@[simp] theorem land_ai (it : Item) (s : State) : (s.land it).ai = s.ai := rfl
@[simp] theorem land_timer (it : Item) (s : State) : (s.land it).timer = s.timer := rfl
@[simp] theorem land_sel (it : Item) (s : State) : (s.land it).sel = s.sel := rfl
@[simp] theorem land_mode (it : Item) (s : State) : (s.land it).mode = s.mode := rfl
@[simp] theorem land_rstl (it : Item) (s : State) : (s.land it).rstl = s.rstl := rfl
@[simp] theorem land_opDone (it : Item) (s : State) : (s.land it).opDone = s.opDone := rfl
@[simp] theorem land_trace (it : Item) (s : State) : (s.land it).trace = s.trace := rfl
@[simp] theorem land_host (it : Item) (s : State) : (s.land it).host = s.host := rfl
@[simp] theorem land_busyIn (it : Item) (s : State) : (s.land it).busyIn = s.busyIn := rfl
@[simp] theorem land_busyDraws (it : Item) (s : State) : (s.land it).busyDraws = s.busyDraws := rfl
@[simp] theorem land_txFail (it : Item) (s : State) : (s.land it).txFail = s.txFail := rfl
@[simp] theorem land_resetIn (it : Item) (s : State) : (s.land it).resetIn = s.resetIn := rfl

end Sys2Proof.Machine
end

