-- ==== Sys2Proof/Laws/Operations.lean ====
section
/-! SUPPORT. The whole operations: the script of each, its events as the spec lists them, and what it leaves. -/

namespace Sys2Proof.Machine

/-! ## The busy-wait -/

theorem afterFalse_settles (p : Nat) (rest : List Bool) : afterFalse (List.replicate p true ++ false :: rest) = rest := by
  induction p with
  | zero => rfl
  | succ p ih => simpa [List.replicate_succ, afterFalse] using ih

theorem pollScript_settles (t p : Nat) (rest : List Bool) :
    Unpaused (pollScript t (List.replicate p true ++ false :: rest)) ∧
      scriptEvents (pollScript t (List.replicate p true ++ false :: rest)) =
        (List.replicate p [Event.busy true, .wait t]).flatten ++ [.busy false] := by
  induction p with
  | zero => exact ⟨by simp [pollScript, turnScript], rfl⟩
  | succ p ih => simp [List.replicate_succ, pollScript, turnScript, ih.1, ih.2]

/-- Answers that are all true, and nothing scheduled after them. -/
theorem pollScript_busy (t n : Nat) :
    ∃ as, pollScript t (List.replicate n true) = as ++ [.pause] ∧ Unpaused as ∧
      scriptEvents as = (List.replicate n [Event.busy true, .wait t]).flatten := by
  induction n with
  | zero => exact ⟨[], rfl, by simp, rfl⟩
  | succ n ih =>
    obtain ⟨as, h1, h2, h3⟩ := ih
    exact ⟨turnScript t true ++ as, by simp [List.replicate_succ, pollScript, h1], by simp [turnScript, h2],
      by simp [List.replicate_succ, turnScript, h3]⟩

/-! ## The parts of a list -/

/-- The list of `RefreshSeq` before its polling loop. -/
def refreshFront (c : Cfg) : List Item := counterItems c ++ [.cmd 0x24, .cmd 0x22, .cmd 0x20, .wait .tSettle]

/-- The list of `InitSequence` before its polling loop. -/
def initFront (c : Cfg) : List Item := resetPulse ++ [.startConfigure] ++ configure ++ [.fill, .startSeed] ++ refreshFront c

theorem refresh_program (c : Cfg) : program c .refresh = refreshFront c ++ [.poll, .refreshDone] := by
  simp [program, refreshSeq, refreshFront]

theorem init_program (c : Cfg) : initSequence c = initFront c ++ [.poll, .initDone] := by
  simp [initSequence, refreshSeq, initFront, refreshFront]

/-- The data loop reads only bytes of the framebuffer (20_memory.md R56). -/
theorem dataLoopEvents_congr {c : Cfg} {f g : Nat → Byte} (h : ∀ a < c.numBytes, f a = g a) :
    dataLoopEvents c f = dataLoopEvents c g := by
  have : outBytes c f = outBytes c g := by
    refine List.map_congr_left fun k hk => ?_
    simp only [outByte, h _ (srcIndex_lt (List.mem_range.1 hk))]
  simp only [dataLoopEvents, this]

/-- Steps other than the fill land as `Late` says. -/
theorem itemView_late {it : Item} (h : it ≠ .fill) (v : State) : Late v (itemView it (v.land it)) := by
  have hl : Late v (v.land it) := by
    have : (it == .fill) = false := by simpa using h
    unfold State.land; rw [this]; exact landStep_late v
  exact hl.trans (by cases it <;> first | exact absurd rfl h | exact .of_eq rfl rfl rfl rfl)

theorem itemsView_late {its : List Item} (h : ∀ it ∈ its, it ≠ .fill) (v : State) : Late v (itemsView its v) := by
  induction its generalizing v with
  | nil => exact .refl v
  | cons it its ih =>
    exact (itemView_late (h it (by simp)) v).trans (ih (fun x hx => h x (List.mem_cons_of_mem _ hx)) _)

/-- The steps of `RefreshSeq` before 0x24. -/
theorem counterItems_late (v : State) : Late v (itemsView (counterItems v.cfg) v) :=
  itemsView_late (by cases hc : v.cfg.counterReset <;> simp [counterItems, hc]) v

/-- What a list leaves where no memory is concerned. -/
def stillAfter : List Item → State → State
  | [], v => v.still
  | it :: its, v => stillAfter its (itemView it v)

theorem itemsView_still (its : List Item) {u v : State} (h : u.still = v.still) : (itemsView its u).still = stillAfter its v := by
  induction its generalizing u v with
  | nil => exact h
  | cons it its ih =>
    refine ih ?_
    have e := eq_of_still h
    generalize u.fb = m at e; generalize u.raced = m' at e; generalize u.races = n at e; generalize u.late = l at e
    subst e
    cases it <;> rfl

/-- The command frames of `RefreshSeq` and its settle delay: the data bytes are those of a memory in which each byte is old
or new (70_reset_and_hazards.md R207). -/
theorem refreshFront_script (v : State) :
    Unpaused (itemsScript (refreshFront v.cfg) v) ∧
    (∃ w, Late v w ∧ scriptEvents (itemsScript (refreshFront v.cfg) v) =
      refreshCommandEvents v.cfg w.readByte v.curFull ++ [.wait v.cfg.tSettle]) ∧
    Late v (itemsView (refreshFront v.cfg) v) ∧
    (itemsView (refreshFront v.cfg) v).still = { v with seq := v.seq + (refreshFront v.cfg).length }.still := by
  have d1 : decodeWire 0x4E#8 = .ok .ramXCounter := rfl
  have d2 : decodeWire 0x4F#8 = .ok .ramYCounter := rfl
  have d3 : decodeWire 0x24#8 = .ok .writeRam := rfl
  have d4 : decodeWire 0x22#8 = .ok .updateCtrl2 := rfl
  have d5 : decodeWire 0x20#8 = .ok .activate := rfl
  refine ⟨?_, ⟨(itemsView (counterItems v.cfg) v).land (.cmd 0x24), ?_, ?_⟩, ?_, ?_⟩
  · cases hc : v.cfg.counterReset <;>
      simp [refreshFront, counterItems, hc, itemsScript, itemScript, itemView, d1, d2, d3, d4, d5, State.advance]
  · exact (counterItems_late v).trans (landStep_late _)
  · cases hc : v.cfg.counterReset <;>
      simp [refreshFront, counterItems, hc, itemsScript, itemScript, itemsView, itemView, d1, d2, d3, d4, d5,
        panelScript_events, panelEvents, refreshCommandEvents, State.advance, Cfg.delay, frameEvents] <;> rfl
  · refine itemsView_late ?_ v
    cases hc : v.cfg.counterReset <;> simp [refreshFront, counterItems, hc]
  · rw [itemsView_still _ rfl]
    cases hc : v.cfg.counterReset <;> simp [refreshFront, counterItems, hc, stillAfter, itemView, State.advance]

/-- The seed refresh sends the all-light buffer, but that an address the host writes meanwhile may hold, and send, what the
host has written (20_memory.md R57, R207). -/
structure Filled (v t : State) : Prop where
  late : ∀ w ∈ t.late, w ∈ v.late
  fb : ∀ a, (t.fb.written a = if a < v.cfg.numBytes then some 0xFF else v.fb.written a) ∨
    ∃ w ∈ v.late, w.addr = a ∧ t.fb.written a = some w.val
  read : ∀ a < v.cfg.numBytes, t.readByte a = 0xFF ∨ ∃ w ∈ v.late, w.addr = a ∧ t.readByte a = w.val
  quiet : v.late = [] → t.fb = v.fb.fillFrom 0 (fun _ => 0xFF) v.cfg.numBytes ∧ t.races = v.races

/-- The fill, after what landed before it. -/
theorem filled_fill {v u : State} (h : Late v u) (hc : u.cfg = v.cfg) : Filled v (itemView .fill (u.land .fill)) := by
  have host {x : Byte} {m : Memory} {a : Nat} : (∃ w ∈ u.late, w.addr = a ∧ m.written a = some w.val) → m.byteAt a = x →
      ∃ w ∈ v.late, w.addr = a ∧ x = w.val := fun ⟨w, hw, ha, e⟩ hx => ⟨w, h.late w hw, ha, hx ▸ Memory.byteAt_of_written e⟩
  have fb : ∀ a, (itemView .fill (u.land .fill)).fb.written a =
      if a < v.cfg.numBytes then some ((u.land .fill).writtenByte 0xFF a) else (u.land .fill).fb.written a := fun a => by
    show ((u.land .fill).fb.fillFrom 0 ((u.land .fill).writtenByte 0xFF) u.cfg.numBytes).written a = _
    rw [Memory.written_fillFrom, hc]
    simp
  have wr : ∀ a, (u.land .fill).writtenByte 0xFF a = 0xFF ∨
      ∃ w ∈ v.late, w.addr = a ∧ (u.land .fill).writtenByte 0xFF a = w.val := fun a =>
    (settle_or _ _ _ 0xFF a).imp id fun ⟨h1, h2⟩ => by
      obtain ⟨b, hb⟩ := Option.isSome_iff_exists.1 h1
      exact host ((landStep_fill u a).2 b hb).2 h2.symm
  have fb' : ∀ a, ((itemView .fill (u.land .fill)).fb.written a = if a < v.cfg.numBytes then some 0xFF else v.fb.written a) ∨
      ∃ w ∈ v.late, w.addr = a ∧ (itemView .fill (u.land .fill)).fb.written a = some w.val := fun a => by
    rw [fb]
    split
    · exact (wr a).imp (congrArg some) fun ⟨w, hw, ha, e⟩ => ⟨w, hw, ha, congrArg some e⟩
    · have hl : (u.land .fill).fb = (landStep true u).fb := rfl
      rw [hl]
      rcases (landStep_fill u a).1 with e | ⟨w, hw, e⟩
      · rw [e]; exact h.fb a
      · exact .inr ⟨w, h.late w hw, e⟩
  refine ⟨fun w hw => h.late w (landStep_late_sub (inFill := true) hw), fb', fun a hn => ?_, fun hq => ?_⟩
  · show (landStep true u).raced.over (itemView .fill (u.land .fill)).fb a = 0xFF ∨
      ∃ w ∈ v.late, w.addr = a ∧ (landStep true u).raced.over (itemView .fill (u.land .fill)).fb a = w.val
    cases hr : (landStep true u).raced.written a with
    | none =>
      rw [Memory.over_of_none hr]
      have := fb a
      rw [if_pos hn] at this
      rw [Memory.byteAt_of_written this]
      exact wr a
    | some b =>
      rw [Memory.over, hr]
      exact ((landStep_fill u a).2 b hr).1.imp id fun ⟨w, hw, e⟩ => ⟨w, h.late w hw, e⟩
  · obtain ⟨h1, -, h3⟩ := h.quiet hq
    have hn := landStep_none (s := u) (by simp [h.nil hq]) true
    have hl : u.land .fill = { u with raced := [] } := hn
    rw [hl]
    exact ⟨by simp only [itemView, State.advance]; rw [h1, hc]; rfl, h3⟩

theorem Filled.trans {v t u : State} (h : Filled v t) (h' : Late t u) : Filled v u := by
  refine ⟨fun w hw => h.late w (h'.late w hw), fun a => ?_, fun a hn => ?_, fun hq => ?_⟩
  · rcases h'.fb a with e | ⟨w, hw, e⟩
    · rw [e]; exact h.fb a
    · exact .inr ⟨w, h.late w hw, e⟩
  · rcases h'.read a with e | ⟨w, hw, e⟩
    · rw [e]; exact h.read a hn
    · exact .inr ⟨w, h.late w hw, e⟩
  · obtain ⟨h1, h2⟩ := h.quiet hq
    have ht : t.late = [] := List.eq_nil_iff_forall_not_mem.2 fun w hw => by have := h.late w hw; simp [hq] at this
    obtain ⟨h3, -, h4⟩ := h'.quiet ht
    exact ⟨h3.trans h1, h4.trans h2⟩

/-- Everything of `InitSequence` before its polling loop. -/
theorem initFront_script (v : State) :
    Unpaused (itemsScript (initFront v.cfg) v) ∧
    (∃ w, Filled v w ∧ scriptEvents (itemsScript (initFront v.cfg) v) =
      resetPulseEvents v.cfg ++ configureEvents v.cfg ++ fillEvents v.cfg
        ++ refreshCommandEvents v.cfg w.readByte true ++ [.wait v.cfg.tSettle]) ∧
    Filled v (itemsView (initFront v.cfg) v) ∧
    (itemsView (initFront v.cfg) v).still =
      { v with
        seq := v.seq + (initFront v.cfg).length, ctl := .busy, ret := .idle, curFull := true, rstl := true }.still := by
  have d1 : decodeWire 0x01#8 = .ok .driverOutput := rfl
  have d2 : decodeWire 0x11#8 = .ok .dataEntry := rfl
  have d3 : decodeWire 0x44#8 = .ok .ramXWindow := rfl
  have d4 : decodeWire 0x45#8 = .ok .ramYWindow := rfl
  have d5 : decodeWire 0x3C#8 = .ok .border := rfl
  have d6 : decodeWire 0x21#8 = .ok .updateCtrl1 := rfl
  have d7 : decodeWire 0x18#8 = .ok .tempSensor := rfl
  have d8 : decodeWire 0x4E#8 = .ok .ramXCounter := rfl
  have d9 : decodeWire 0x4F#8 = .ok .ramYCounter := rfl
  obtain ⟨u, hu⟩ : ∃ u, u = itemsView (resetPulse ++ [.startConfigure] ++ configure) v := ⟨_, rfl⟩
  have hul : Late v u := hu ▸ itemsView_late (by simp [resetPulse, configure]) v
  obtain ⟨w, hw⟩ : ∃ w, w = itemsView (resetPulse ++ [.startConfigure] ++ configure ++ [.fill, .startSeed]) v := ⟨_, rfl⟩
  have hwu : w = itemsView [.fill, .startSeed] u := by rw [hw, itemsView_append, ← hu]
  have huc : u.cfg = v.cfg := by
    have : u.still.cfg = v.cfg := by
      rw [hu, itemsView_still _ rfl]
      simp [resetPulse, configure, stillAfter, itemView, State.advance, State.still]
    exact this
  have hf : Filled v w := by
    rw [hwu]
    exact (filled_fill hul huc).trans (itemView_late (it := .startSeed) (by simp) _)
  have hws : w.still = { v with
      seq := v.seq + 18, ctl := .busy, ret := .idle, curFull := true, rstl := true }.still := by
    rw [hw, itemsView_still _ rfl]
    simp [resetPulse, configure, stillAfter, itemView, State.advance, State.still]
  have hc : w.cfg = v.cfg := (congrArg State.cfg hws : w.still.cfg = _)
  have hcf : w.curFull = true := (congrArg State.curFull hws : w.still.curFull = _)
  obtain ⟨h1, ⟨x, hx, h2⟩, h3, h4⟩ := refreshFront_script w
  rw [hc] at h1 h2 h3
  rw [hcf] at h2
  refine ⟨?_, ⟨x, hf.trans hx, ?_⟩, ?_, ?_⟩
  · rw [initFront, itemsScript_append, ← hw, unpaused_append]
    refine ⟨?_, h1⟩
    simp [resetPulse, configure, itemsScript, itemScript, d1, d2, d3, d4, d5, d6, d7, d8, d9]
  · rw [initFront, itemsScript_append, ← hw, scriptEvents_append, h2]
    simp [resetPulse, configure, itemsScript, itemScript, itemView, d1, d2, d3, d4, d5, d6, d7, d8, d9, panelScript_events,
      panelEvents, resetPulseEvents, configureEvents, fillEvents, State.advance, Cfg.delay, List.range_eq_range']
  · rw [initFront, itemsView_append, ← hw]; exact hf.trans h3
  · have hseq : w.seq = v.seq + 18 := (congrArg State.seq hws : w.still.seq = _)
    have hn := congrArg (fun s : State => { s with seq := w.seq + (refreshFront w.cfg).length }) hws
    rw [initFront, itemsView_append, ← hw, ← hc, h4]
    refine Eq.trans hn ?_
    simp [State.still, resetPulse, configure, hseq, hc]
    omega

end Sys2Proof.Machine
end

