-- ==== Sys2Proof/Laws/PerInstr.lean ====
section
/-! SUPPORT. Statements made of every instruction, one lemma per constructor. -/

namespace Sys2Proof.Laws.TableWord

/-- The bits of a table word (spec/30_encoding.md R73, R78). -/
def wordBits : Format → Nat
  | .host4 => 4
  | .wire8 => 8

/-- The instruction's word has the width of its table row, and the row's word is read as the instruction. -/
def Statement (i : Instr) : Prop :=
  (encode i).toNat < 2 ^ wordBits i.format ∧ decodeTableWord (wordBits i.format) (encode i).toNat = some i

theorem init (f : Bool) : Statement (.init f) := by cases f <;> exact ⟨by decide, by decide⟩
theorem refresh (f : Bool) : Statement (.refresh f) := by cases f <;> exact ⟨by decide, by decide⟩
theorem sleep (f : Bool) : Statement (.sleep f) := by cases f <;> exact ⟨by decide, by decide⟩
theorem wake (f : Bool) : Statement (.wake f) := by cases f <;> exact ⟨by decide, by decide⟩
theorem reserved0 (f : Bool) : Statement (.reserved0 f) := by cases f <;> exact ⟨by decide, by decide⟩
theorem reserved5 (f : Bool) : Statement (.reserved5 f) := by cases f <;> exact ⟨by decide, by decide⟩
theorem reserved6 (f : Bool) : Statement (.reserved6 f) := by cases f <;> exact ⟨by decide, by decide⟩
theorem reserved7 (f : Bool) : Statement (.reserved7 f) := by cases f <;> exact ⟨by decide, by decide⟩
theorem driverOutput : Statement .driverOutput := ⟨by decide, by decide⟩
theorem dataEntry : Statement .dataEntry := ⟨by decide, by decide⟩
theorem ramXWindow : Statement .ramXWindow := ⟨by decide, by decide⟩
theorem ramYWindow : Statement .ramYWindow := ⟨by decide, by decide⟩
theorem border : Statement .border := ⟨by decide, by decide⟩
theorem updateCtrl1 : Statement .updateCtrl1 := ⟨by decide, by decide⟩
theorem tempSensor : Statement .tempSensor := ⟨by decide, by decide⟩
theorem ramXCounter : Statement .ramXCounter := ⟨by decide, by decide⟩
theorem ramYCounter : Statement .ramYCounter := ⟨by decide, by decide⟩
theorem writeRam : Statement .writeRam := ⟨by decide, by decide⟩
theorem updateCtrl2 : Statement .updateCtrl2 := ⟨by decide, by decide⟩
theorem activate : Statement .activate := ⟨by decide, by decide⟩
theorem deepSleep : Statement .deepSleep := ⟨by decide, by decide⟩

end Sys2Proof.Laws.TableWord
end

