-- ==== Sys2Proof/Laws/Step.lean ====
section
/-! SUPPORT. A step by its cases. -/

namespace Sys2Proof.Machine

theorem step_reset {s : State} (h : s.resetIn = some 0) : step s = .next (hardReset s) := by simp [step, cycle, h]

theorem step_active {s : State} (h : s.resetIn ≠ some 0) (ha : s.active = true) : step s = stepActive s.clearDone := by
  simp [step, cycle, h, ha]

theorem step_ready {s : State} (h : s.resetIn ≠ some 0) (ha : s.active = false) : step s = stepReady s.clearDone := by
  simp [step, cycle, h, ha]

@[simp] theorem clearDone_nextItem (s : State) : s.clearDone.nextItem = s.nextItem := rfl

theorem stepReady_idle {s : State} (h : s.host = []) : stepReady s = .next s := by simp [stepReady, h]

theorem stepReady_op {s : State} {w : OpWord} {rest : List HostAction} (h : s.host = .op w :: rest) :
    stepReady s = exec (decodeHost w) { s with host := rest } := by simp [stepReady, h]

theorem stepReady_act {s : State} {a : HostAction} {rest : List HostAction} (h : s.host = a :: rest) (ha : ∀ w, a ≠ .op w) :
    stepReady s = (hostAct a { s with host := rest }).toOutcome := by
  cases a <;> simp_all [stepReady]

/-- While an operation is in progress, the host's late writes land, and then a step is `runItem` of the next item, but for the
polling loop. -/
theorem stepActive_item {s : State} {it : Item} (h : s.nextItem = some it) (hk : it.Known) :
    stepActive s = (stepItem it (s.land it)).toOutcome := by
  cases it with
  | cmd c =>
    obtain ⟨i, hi⟩ := hk
    simp only [stepActive, h, hi, stepItem, runItem]
    rw [exec_panel (decodeWire_encode hi).2, (decodeWire_encode hi).1]
  | _ => simp only [stepActive, h]

theorem stepActive_none {s : State} (h : s.nextItem = none) : stepActive s = .fault (.seqOutOfRange s.seq) := by
  simp [stepActive, h]

theorem nextItem_known {s : State} {it : Item} (h : s.nextItem = some it) : it.Known :=
  program_known s.cfg s.curOp it (List.mem_of_getElem? h)

/-! ## Runs of steps -/

theorem run_of_next (M : Host.Core) {s t : M.State} (h : M.step s = .next t) (n : Nat) : M.run (n + 1) s = M.run n t := by
  simp [Host.Core.run, h]

theorem run_next {s t : State} (h : step s = .next t) (n : Nat) : Host.Core.run core (n + 1) s = Host.Core.run core n t :=
  run_of_next core h n

/-! ## The item of a step as a script -/

/-- The script of an item at the head of a transition. -/
def stepScript (it : Item) (v : State) : List Action :=
  match it with
  | .poll => turnScript (v.cfg.delay .tPoll) v.busyAnswer
  | it => itemScript it v

/-- What it makes of what the block sees. -/
def stepView (it : Item) (v : State) : State :=
  match it with
  | .poll => if v.busyAnswer then v.takeBusy else v.takeBusy.advance
  | it => itemView it v

theorem stepItem_scripted (it : Item) (hk : it.Known) (v : State) :
    Scripted (stepItem it) (stepScript it v) (Seen v) (Seen (stepView it v)) := by
  cases it with
  | poll => exact pollOnce_scripted v
  | _ => exact runItem_scripted _ hk v

@[simp] theorem turnScript_unpaused (t : Nat) (b : Bool) : Unpaused (turnScript t b) := by cases b <;> simp [turnScript]

theorem stepScript_unpaused (it : Item) (v : State) : Unpaused (stepScript it v) := by
  cases it with
  | cmd c => simp only [stepScript, itemScript]; split <;> simp
  | _ => simp [stepScript, itemScript]

/-! ## Every end of a transition -/

/-- The ways a transition that runs a script can end in a next state: with the script's last state, at a pause, with a
hardware reset taken, or with a TransportError taken. -/
theorem toOutcome_ends {as : List Action} (ht : TameScript as) {P : State → Prop}
    (hP : ∀ s tx, P s → P { s with txFail := tx }) (hr : ∀ a ∈ as, a.Respects P) {s t : State} (hs : P s)
    (h : (runScript as s).toOutcome = .next t) :
    ∃ u es, Reached as P s u es ∧
      ((t = u ∧ ((runScript as s = .ok u ∧ es = scriptEvents as) ∨ (runScript as s = .stop u ∧ .pause ∈ as))) ∨
        (t = hardReset u ∧ s.resetIn ≠ none) ∨ t = transportError u) := by
  obtain ⟨u, es, r⟩ := runScript_ends ht hP hr hs
  refine ⟨u, es, r, ?_⟩
  rcases r.ends with ⟨e, he⟩ | ⟨e, hp⟩ | ⟨e, hn⟩ | e <;> rw [e] at h <;> cases h
  · exact .inl ⟨rfl, .inl ⟨e, he⟩⟩
  · exact .inl ⟨rfl, .inr ⟨e, hp⟩⟩
  · exact .inr (.inl ⟨rfl, hn⟩)
  · exact .inr (.inr rfl)

/-- A script never faults and never refuses (60_exceptions.md R170). -/
theorem runScript_next {as : List Action} (ht : TameScript as) (s : State) : ∃ t, (runScript as s).toOutcome = .next t := by
  obtain ⟨u, es, r⟩ := runScript_ends (P := fun _ => True) ht (fun _ _ _ => trivial)
    (fun a _ => by cases a <;> simp [Action.Respects]) (s := s) trivial
  rcases r.ends with ⟨e, -⟩ | ⟨e, -⟩ | ⟨e, -⟩ | e <;> exact ⟨_, by rw [e]; rfl⟩

/-! ## The rest of an operation -/

theorem rest_known (s : State) : ∀ it ∈ s.program.drop s.seq, it.Known :=
  fun it h => program_known s.cfg s.curOp it (List.mem_of_mem_drop h)

/-- The rest of the operation in progress is a script. -/
theorem runRest_script (s : State) :
    runRest s = runScript (itemsScript (s.program.drop s.seq) s.view) s ∧
      TameScript (itemsScript (s.program.drop s.seq) s.view) ∧
      ∀ t, runScript (itemsScript (s.program.drop s.seq) s.view) s = .ok t →
        t.view = itemsView (s.program.drop s.seq) s.view := by
  have h := runItems_scripted _ (rest_known s) s.view
  exact ⟨h.eq s rfl, h.tame, fun t e => h.post s t rfl e⟩

/-- A host word that starts its sequence runs the list of its operation from the start. -/
theorem exec_started {i : Instr} {s : State} (h : startsSequence i s) :
    ∃ b : State, exec i s = (runRest b).toOutcome ∧ b.active = true ∧ b.seq = 0 ∧
      (match i with
        | .init _ => b = beginInit .init s
        | .wake _ => b = beginInit .wake s
        | .refresh f => b = beginRefresh f s
        | .sleep _ => b = beginSleep s
        | _ => False) := by
  obtain ⟨ha, h⟩ := h
  cases i <;> simp only at h
  case init f => exact ⟨_, by simp [exec, execInit, initOp, whenReady, ha, h], rfl, rfl, rfl⟩
  case wake f => exact ⟨_, by simp [exec, execWake, initOp, whenReady, ha, h], rfl, rfl, rfl⟩
  case refresh f => exact ⟨_, by simp [exec, execRefresh, gated, whenReady, ha, h], rfl, rfl, rfl⟩
  case sleep f => exact ⟨_, by simp [exec, execSleep, gated, whenReady, ha, h], rfl, rfl, rfl⟩

/-- The script of a step of its own holds no landing. -/
theorem stepScript_calm (it : Item) (v s : State) : Calm (stepScript it v) s := by
  refine .inl fun f hf => ?_
  have h1 : ∀ bs : List Byte, Action.land f ∉ argScript bs := fun bs => by
    cases bs <;> simp [argScript, dataScript, selAct, modeAct, wrAct, aiAct]
  have h2 : ∀ bs : List Byte, Action.land f ∉ perByteScript bs := fun bs => by
    simp [perByteScript, dataScript, selAct, modeAct, wrAct, aiAct]
  have h3 : ∀ n k, Action.land f ∉ fillScript k n := fun n k => by simp [fillScript, fillAct]
  have h4 : ∀ c, Action.land f ∉ cmdScript c := fun c => by simp [cmdScript, selAct, modeAct, wrAct]
  have h5 : ∀ t, Action.land f ∉ waitScript t := fun t => by simp [waitScript]
  have h6 : Action.land f ∉ dataLoopScript v := by
    unfold dataLoopScript; cases v.cfg.ramFraming <;> simp [h1, h2]
  revert hf
  cases it with
  | cmd c =>
    simp only [stepScript, itemScript]
    cases hd : decodeWire c with
    | error e => simp
    | ok i => cases i <;> simp [panelScript, h1, h4, h6]
  | poll => cases hb : v.busyAnswer <;> simp [stepScript, turnScript, busyAct, h5, hb]
  | _ => simp [stepScript, itemScript, rstAct, h3, h5]

end Sys2Proof.Machine
end

