-- ==== Sys2Proof/Tests/Slice0.lean ====
section
/-! SUPPORT. Tests of the model against vectors written out in spec/95_test_vectors.md, words written out from
spec/30_encoding.md, and a witness for the hypotheses of each statement. -/

open Sys2Proof Sys2Proof.Machine

namespace Sys2Proof.Tests

/-! ## Helpers -/

def next? : Host.Outcome State Fault Refusal → Option State
  | .next s => some s
  | .fault _ => none
  | .refused _ => none

theorem next_of {o : Host.Outcome State Fault Refusal} (h : (next? o).isSome = true) : ∃ t, o = .next t := by
  cases o with
  | next t => exact ⟨t, rfl⟩
  | fault _ => cases h
  | refused _ => cases h

/-- What `f` sees of the next state. -/
def after {α : Type} (o : Host.Outcome State Fault Refusal) (f : State → α) : Option α := (next? o).map f

def listed (bs : List Byte) : Memory := bs.zipIdx.map fun p => (p.2, p.1)

/-- `FB[i] = i`, 16 bytes. -/
def ramp : Memory := listed ((List.range 16).map (BitVec.ofNat 8))

/-- TP-S, Idle, `FB[i] = i`. -/
def idle : State :=
  { State.reset with ctl := .idle, initialized := true, poweredOn := true, rstl := true, fb := ramp }

/-- TP-S, Sleeping, `FB[i] = i`. -/
def asleep : State := { idle with ctl := .sleeping, poweredOn := false }

/-- The configuration with its geometry replaced. -/
def geom (o : Orient) (w h : Nat) : Cfg := { Cfg.tpS with orient := o, pw := w, ph := h }

/-- After reset with the geometry replaced and a framebuffer. -/
def blank (o : Orient) (w h : Nat) (fb : Memory) : State := { State.reset with cfg := geom o w h, fb := fb }

/-- The transport primitive after `j` successful ones fails. -/
def failing (s : State) (j : Nat) : State := { s with cfg := { s.cfg with hasTxErr := true }, txFail := [j] }

/-- TP-L after reset. -/
def large : State := { State.reset with cfg := Cfg.tpL }

/-! ## Well-formedness: each check refuses an ill-formed term -/

theorem test_wf_panel_command_on_host_port : Placed.wellFormed ⟨.driverOutput, .host4⟩ = false := by decide
theorem test_wf_host_word_on_wire : Placed.wellFormed ⟨.init true, .wire8⟩ = false := by decide
theorem test_wf_instructions_in_place :
    Placed.wellFormed ⟨.writeRam, .wire8⟩ = true ∧ Placed.wellFormed ⟨.wake false, .host4⟩ = true := by decide
theorem test_wf_geometry :
    (geom .rotated 12 8).geometryLegal = false ∧ (geom .rotated 4 8).geometryLegal = false ∧
    (geom .rotated 16 0).geometryLegal = false ∧ (geom .native 8 1).geometryLegal = true := by decide
theorem test_wf_delays :
    { Cfg.tpS with tRst := 199 }.delaysLegal = false ∧ { Cfg.tpS with tSettle := 49 }.delaysLegal = false ∧
    { Cfg.tpS with tPoll := 99 }.delaysLegal = false := by decide
theorem test_wf_clock : { Cfg.tpS with clkHz := 0 }.clockLegal = false := by decide
theorem test_wf_cfg :
    Cfg.tpS.wellFormed = true ∧ Cfg.tpL.wellFormed = true ∧ Cfg.tpN.wellFormed = true ∧
    { Cfg.tpS with tRst := 0 }.wellFormed = false := by decide

/-! ## Decoding: the 16 host words (R74 to R76) and the 13 command bytes (R78), bit by bit -/

theorem test_decode_host_words_F0 :
    [0b0000#4, 0b0001#4, 0b0010#4, 0b0011#4, 0b0100#4, 0b0101#4, 0b0110#4, 0b0111#4].map decodeHost =
      [.reserved0 false, .init false, .refresh false, .sleep false, .wake false, .reserved5 false, .reserved6 false,
       .reserved7 false] := by decide
theorem test_decode_host_words_F1 :
    [0b1000#4, 0b1001#4, 0b1010#4, 0b1011#4, 0b1100#4, 0b1101#4, 0b1110#4, 0b1111#4].map decodeHost =
      [.reserved0 true, .init true, .refresh true, .sleep true, .wake true, .reserved5 true, .reserved6 true,
       .reserved7 true] := by decide
theorem test_decode_wire_bytes_configuration :
    [0b00000001#8, 0b00010001#8, 0b01000100#8, 0b01000101#8, 0b00111100#8, 0b00100001#8, 0b00011000#8, 0b01001110#8,
     0b01001111#8].map (decodeOn .wire8) =
      [some .driverOutput, some .dataEntry, some .ramXWindow, some .ramYWindow, some .border, some .updateCtrl1,
       some .tempSensor, some .ramXCounter, some .ramYCounter] := by decide
theorem test_decode_wire_bytes_refresh_and_sleep :
    [0b00100100#8, 0b00100010#8, 0b00100000#8, 0b00010000#8].map (decodeOn .wire8) =
      [some .writeRam, some .updateCtrl2, some .activate, some .deepSleep] := by decide
theorem test_decode_rejects :
    decodeWire 0x12 = .error (.neverEmitted 0x12) ∧ decodeOn .wire8 0x00 = none ∧ decodeOn .host4 0x10 = none := by decide
theorem test_decode_table_words :
    decodeTableWord 4 0x1 = some (.init false) ∧ decodeTableWord 8 0x9 = some (.init true) ∧
    decodeTableWord 8 0x01 = some .driverOutput ∧ decodeTableWord 8 0x24 = some .writeRam ∧
    decodeTableWord 16 0x24 = none := by decide

/-! ## Host operations -/

/-- V-OP-1: 178 events, status 03, FB = 16 x FF, and the last four events. -/
theorem test_init_V_OP_1 :
    after (exec (.init false) { State.reset with busyIn := [true, false] })
      (fun t => (t.trace.length, t.status, t.fb, t.trace.drop 174)) =
    some (178, 0x03, listed (List.replicate 16 0xFF), [.wait 50, .busy true, .wait 100, .busy false]) := by
  decide +kernel
/-- V-EX-8: the second `setReset` fails. -/
theorem test_init_V_EX_8 :
    after (exec (.init false) (failing State.reset 1)) (fun t => (t.trace, t.status, t.ctl, t.rstl)) =
    some ([.rst true, .wait 200], 0x50, .uninitialized, true) := by decide
/-- V-OP-10: the drawing is lost, and the command bytes of V-PC-14. -/
theorem test_wake_V_OP_10 :
    after (exec (.wake false) { asleep with busyIn := [false] })
      (fun t => (t.trace.length, t.status, t.fb.byteAt 3, commandBytes t.trace)) =
    some (176, 0x03, 0xFF, [0x01, 0x11, 0x44, 0x45, 0x3C, 0x21, 0x18, 0x4E, 0x4F, 0x24, 0x22, 0x20]) := by decide +kernel
/-- V-EX-3, PH = 0. -/
theorem test_wake_V_EX_3 :
    after (exec (.wake false) (blank .rotated 16 0 [])) (fun t => (t.trace, t.status, t.ctl, t.opDone)) =
    some ([], 0x90, .uninitialized, true) := by decide
/-- V-OP-5: partial refresh of `FB[i] = i`. -/
theorem test_refresh_V_OP_5 :
    after (exec (.refresh false) { idle with busyIn := [false] })
      (fun t => (t.trace.length, t.ctl, t.mode, dataBytes t.trace)) =
    some (82, .idle, .cmd, [0xF7, 0xFF, 0xF6, 0xFE, 0xF5, 0xFD, 0xF4, 0xFC, 0xF3, 0xFB, 0xF2, 0xFA, 0xF1, 0xF9, 0xF0,
      0xF8, 0xFF]) := by decide +kernel
/-- V-EX-5: the `writeBytes` of the third data byte fails (12 primitives and its `Sel`, `Mode` succeed). -/
theorem test_refresh_V_EX_5 :
    after (exec (.refresh false) (failing idle 14))
      (fun t => (t.trace.length, t.status, t.sel, stream t.trace)) =
    some (14, 0x50, true, [(.cmd, 0x24), (.data, 0xF7), (.data, 0xFF)]) := by decide +kernel
/-- V-OP-7. -/
theorem test_sleep_V_OP_7 :
    after (exec (.sleep false) idle) (fun t => (t.trace, t.status, t.sel, t.mode, t.rstl)) =
    some ([.sel true, .mode .cmd, .wr [0x10], .sel false, .sel true, .mode .data, .wr [0x01], .sel false, .wait 50],
      0x01, false, .data, true) := by decide
/-- V-OP-3. -/
theorem test_sleep_V_OP_3 :
    after (exec (.sleep false) State.reset) (fun t => (t.trace, t.status, t.ctl)) = some ([], 0x08, .uninitialized) := by
  decide
/-- V-OP-13, V-OP-12, program P6. -/
theorem test_reserved0_V_OP_13 :
    after (exec (.reserved0 true) State.reset) (fun t => (t.trace, t.status)) = some ([], 0x20) := by decide
theorem test_reserved5_V_OP_12 :
    after (exec (.reserved5 false) idle) (fun t => (t.trace, t.status)) = some ([], 0x23) := by decide
theorem test_reserved6_P6 :
    after (exec (.reserved6 false) idle) (fun t => (t.trace, t.status)) = some ([], 0x23) := by decide
theorem test_reserved7_V_OP_13 :
    after (exec (.reserved7 true) State.reset) (fun t => (t.trace, t.status)) = some ([], 0x20) := by decide

/-! ## Panel commands, profile TP-L (V-PC-01 to V-PC-13) -/

def panelStream (i : Instr) (s : State) : Option (List (Mode × Byte)) := after (exec i s) fun t => stream t.trace

theorem test_V_PC_01 : panelStream .driverOutput large = some [(.cmd, 0x01), (.data, 0x27), (.data, 0x01), (.data, 0x00)] := by
  decide
theorem test_V_PC_02 : panelStream .dataEntry large = some [(.cmd, 0x11), (.data, 0x03)] := by decide
theorem test_V_PC_03 : panelStream .ramXWindow large = some [(.cmd, 0x44), (.data, 0x00), (.data, 0x0F)] := by decide
theorem test_V_PC_04 :
    panelStream .ramYWindow large =
      some [(.cmd, 0x45), (.data, 0x00), (.data, 0x00), (.data, 0x27), (.data, 0x01)] := by decide
theorem test_V_PC_05 : panelStream .border large = some [(.cmd, 0x3C), (.data, 0x05)] := by decide
theorem test_V_PC_06 : panelStream .updateCtrl1 large = some [(.cmd, 0x21), (.data, 0x00), (.data, 0x80)] := by decide
theorem test_V_PC_07 : panelStream .tempSensor large = some [(.cmd, 0x18), (.data, 0x80)] := by decide
theorem test_V_PC_08 : panelStream .ramXCounter large = some [(.cmd, 0x4E), (.data, 0x00)] := by decide
theorem test_V_PC_09 : panelStream .ramYCounter large = some [(.cmd, 0x4F), (.data, 0x00), (.data, 0x00)] := by decide
/-- V-PC-10 with V-MAP-2, three byte-rows. -/
theorem test_V_PC_10_V_MAP_2 :
    after (exec .writeRam (blank .rotated 24 2 (listed [0x10, 0x21, 0x32, 0x43, 0x54, 0x65]))) (fun t =>
      (t.trace.length, dataBytes t.trace)) = some (28, [0xAB, 0xCD, 0xEF, 0x9A, 0xBC, 0xDE]) := by decide
/-- V-PC-10, Burst, with V-MAP-8 (Native): one `Wr` for all bytes. -/
theorem test_V_PC_10_burst_V_MAP_8 :
    after (exec .writeRam
        { State.reset with
          cfg := { Cfg.tpN with ramFraming := .burst }
          fb := listed [0x00, 0xFF, 0x12, 0x80, 0x01, 0x7F, 0xAA, 0x55] }) (fun t => t.trace.drop 4) =
    some [.sel true, .mode .data, .wr [0xFF, 0x00, 0xED, 0x7F, 0xFE, 0x80, 0x55, 0xAA], .sel false] := by decide
theorem test_V_PC_11 :
    panelStream .updateCtrl2 { large with curFull := true } = some [(.cmd, 0x22), (.data, 0xF7)] ∧
    panelStream .updateCtrl2 { large with curFull := false } = some [(.cmd, 0x22), (.data, 0xFF)] := by decide
/-- V-PC-12 and V-CC-5: no empty `Wr`. -/
theorem test_V_PC_12 :
    after (exec .activate large) (fun t => t.trace) = some [.sel true, .mode .cmd, .wr [0x20], .sel false] := by decide
theorem test_V_PC_13 : panelStream .deepSleep large = some [(.cmd, 0x10), (.data, 0x01)] := by decide

/-! ## Mapper -/

theorem test_V_MAP_1 :
    (List.range 16).map (srcIndex Cfg.tpS) = [8, 0, 9, 1, 10, 2, 11, 3, 12, 4, 13, 5, 14, 6, 15, 7] := by decide
theorem test_V_MAP_7 :
    [0, 1, 15, 16, 4720, 4735].map (srcIndex Cfg.tpL) = [4440, 4144, 0, 4441, 4735, 295] := by decide
theorem test_V_MAP_11 :
    (List.range 6).map (sentAt (geom .rotated 24 2)) = [2, 5, 1, 4, 0, 3] := by decide
theorem test_V_MAP_12 :
    (List.range 7).map (fun n =>
        let s := State.mapAdvance^[n] (blank .rotated 24 2 []).mapStart
        (s.hpc, s.vbc, s.mapIndex)) =
      [(0, 0, 4), (0, 1, 2), (0, 2, 0), (1, 0, 5), (1, 1, 3), (1, 2, 1), (2, 0, 6)] := by decide
/-- V-MAP-13. -/
theorem test_V_MAP_13 : complementByte 0x01 = 0xFE ∧ complementByte 0x80 = 0x7F ∧ complementByte 0x12 = 0xED := by decide

/-! ## Reset, memory, busy-wait, fetch -/

theorem test_V_RST_1 : State.reset.status = 0x00 ∧ State.reset.opReady = true ∧ State.reset.rstl = false := by decide
/-- V-MEM-2: the byte written last in `FB[15]` is sent at `k = 14`. -/
theorem test_V_MEM_2 : sentAt Cfg.tpS 15 = 14 ∧ (Memory.write ramp 15 0x00).byteAt 15 = 0x00 := by decide
/-- V-BW-3, the polls after `Wait(T_SETTLE)`. -/
theorem test_V_BW_3 :
    after (pollScheduled [true, true, false] { idle with busyIn := [true, true, false] }).toOutcome (fun t => t.trace) =
    some [.busy true, .wait 100, .busy true, .wait 100, .busy false] := by decide
/-- R71: an accepted word leaves the script; `op_done` is up in the state it completes in. -/
theorem test_step_accepts :
    after (step { idle with host := [.op 0x5, .op 0x1] }) (fun t => (t.host, t.ill, t.opDone)) =
    some ([.op 0x1], true, true) := by decide
/-- `withFetchWord`: the next step runs the word placed. -/
theorem test_step_fetches_placed_words :
    after (step (State.reset.withFetchWord 8 0x24)) (fun t => commandBytes t.trace) = some [0x24] ∧
    after (step (State.reset.withFetchWord 4 0x7)) (fun t => t.ill) = some true := by decide +kernel
/-- V-MEM-5: the framebuffer has the byte the host writes during a refresh, and the refresh ends as otherwise. -/
theorem test_V_MEM_5 :
    after (exec (.refresh false) { idle with busyIn := [false], late := [⟨0, 15, 0x00⟩] })
      (fun t => (t.fb.written 15, t.late, t.trace.length, t.ctl)) = some (some 0x00, [], 82, .idle) := by decide +kernel
/-- V-MEM-5: the byte sent for that address, at `k = 14`, is the complement of the old or of the new value. -/
theorem test_V_MEM_5_old_or_new :
    after (exec .writeRam ({ idle with late := [⟨0, 15, 0x00⟩] }.land (.cmd 0x24))) (fun t => (dataBytes t.trace).getD 14 0) ∈
      [some 0xF0, some 0xFF] := by
  have h : State.land (.cmd 0x24) { idle with late := [⟨0, 15, 0x00⟩] } =
      { idle with
        fb := ramp.write 15 0x00, raced := [(15, if Config.raceNew 0 then 0x00 else 0x0F)], races := 1 } := rfl
  rw [h]
  cases Config.raceNew 0 <;> decide +kernel
/-- R57, D21: an address the host writes during the fill ends with the fill's byte or the host's. -/
theorem test_fill_old_or_new :
    ({ idle with seq := 16, late := [⟨16, 3, 0x5A⟩] }.land .fill).writtenByte 0xFF 3 ∈ [0xFF, 0x5A] := by
  have h : ∀ b, (if (true && !b) = true then 0x5A#8 else 0xFF#8) ∈ [0xFF#8, 0x5A#8] := by decide
  exact h (Config.fillLast 1 3)
/-- R82, bit 7 first. -/
theorem test_pin_bits : PinCfg.bits {} 0b10100000#8 = [true, false, true, false, false, false, false, false] := by decide
/-- R82: the reset line is a parameter too. -/
theorem test_pin_reset_inverted :
    State.pinReset { idle with cfg := { Cfg.tpS with pins := { resetHighIsHigh := false } } } = false ∧
    idle.pinReset = true := by decide

theorem valid_tpS : Cfg.tpS.valid = true := by decide

/-! ## Witnesses: for each statement, a state and operands that meet its hypotheses -/

theorem witness_DecodeOfEncodeIsTheInstruction :
    (Instr.wake true).wellFormedOn .host4 = true ∧ Instr.writeRam.wellFormedOn .wire8 = true := by decide
theorem witness_DecodersCoverExactlyTheTables :
    (0x24 : Byte) ∈ panelCodes ∧ (0x25 : Byte) ∉ panelCodes ∧ decodeWire 0x24 = .ok .writeRam := by decide
theorem witness_StepExecutesTheAcceptedWord : ∃ s : State, ∃ w rest,
    s.active = false ∧ s.resetIn ≠ some 0 ∧ s.host = .op w :: rest :=
  ⟨{ idle with host := [.op 0x2] }, 0x2, [], by decide⟩
/-- With a late write of this step, and with one of a later step. -/
theorem witness_StepExecutesTheIssuedCommand :
    ∀ n ∈ [1, 2], ∃ s : State, ∃ c i, s.active = true ∧ s.resetIn ≠ some 0 ∧ s.program[s.seq]? = some (.cmd c) ∧
      decodeWire c = .ok i ∧ s.late = [⟨n, 5, 0xAA⟩] ∧ s.seq = 1 :=
  fun n _ => ⟨{ idle.withPanelCommand 0x22 with late := [⟨n, 5, 0xAA⟩] }, 0x22, .updateCtrl2, rfl, nofun, rfl, rfl, rfl, rfl⟩
theorem witness_NoWordIsAcceptedWhileActive : ∃ s : State,
    s.active = true ∧ (∃ t, step s = .next t) ∧ s.host = [.op 0x1] :=
  ⟨{ idle.withPanelCommand 0x22 with host := [.op 0x1] }, by decide, next_of (by decide), by decide⟩
theorem witness_ReservedWordsSetIllAndNothingElse :
    idle.active = false ∧ (0x8#4).toNat % 8 = 0b000 ∧ (0x5#4).toNat % 8 = 0b101 ∧ (0xE#4).toNat % 8 = 0b110 ∧
    (0x7#4).toNat % 8 = 0b111 := by decide
/-- Each clause, at the boundaries of the address range of TP-S (N = 16). -/
theorem witness_HostActionsOutsideOperations :
    (idle.active = false ∧ idle.resetIn ≠ some 0) ∧
    (∀ a ∈ [0, 15], ∃ s : State, s.active = false ∧ s.resetIn ≠ some 0 ∧ s.host = [.fbWrite a 0x5A] ∧ a < s.cfg.numBytes) ∧
    (∃ s : State, s.active = false ∧ s.resetIn ≠ some 0 ∧ s.host = [.fbWrite 16 0x5A] ∧ s.cfg.numBytes ≤ 16) ∧
    (∀ a ∈ [0, 15], ∃ s : State, s.active = false ∧ s.resetIn ≠ some 0 ∧ s.host = [.during [⟨4, a, 0x5A⟩]] ∧
      a < s.cfg.numBytes) ∧
    (∃ s : State, s.active = false ∧ s.resetIn ≠ some 0 ∧ s.host = [.during [⟨4, 15, 0x5A⟩, ⟨0, 16, 0x5A⟩]] ∧
      s.cfg.numBytes ≤ 16) ∧
    (∃ s : State, s.active = false ∧ s.resetIn ≠ some 0 ∧ s.host = [.fbFill 0x00]) ∧
    (∃ s : State, s.active = false ∧ s.resetIn ≠ some 0 ∧ s.host = []) :=
  ⟨by decide, fun a ha => ⟨{ idle with host := [.fbWrite a 0x5A] }, rfl, nofun, rfl,
      (by decide : ∀ a ∈ [0, 15], a < Cfg.tpS.numBytes) a ha⟩,
    ⟨{ idle with host := [.fbWrite 16 0x5A] }, by decide⟩,
    fun a ha => ⟨{ idle with host := [.during [⟨4, a, 0x5A⟩]] }, rfl, nofun, rfl,
      (by decide : ∀ a ∈ [0, 15], a < Cfg.tpS.numBytes) a ha⟩,
    ⟨{ idle with host := [.during [⟨4, 15, 0x5A⟩, ⟨0, 16, 0x5A⟩]] }, by decide⟩, ⟨{ idle with host := [.fbFill 0x00] }, by decide⟩,
    ⟨idle, by decide⟩⟩
theorem witness_HardwareResetGivesTheResetValues :
    (∃ s : State, s.resetIn = some 0 ∧ s.active = true) ∧ (∃ s : State, s.active = false ∧ ∃ rest, s.host = .reset :: rest) :=
  ⟨⟨{ idle with resetIn := some 0, active := true }, by decide⟩, ⟨{ idle with host := [.reset] }, by decide, [], rfl⟩⟩
theorem witness_DefaultPinRendering : idle.cfg.pins = {} := by decide
theorem witness_MemoryWriteThenRead : ∃ m m' : Memory, m.wf ∧ m'.wf ∧ (∀ b, m'.written b = m.written b) :=
  ⟨ramp, ramp, by decide, by decide, fun _ => rfl⟩
/-- A step of the fill with a late write to come, and a host action that is no write. -/
theorem witness_OnlyTheFillWritesTheFramebuffer :
    (∃ s : State, s.active = true ∧ s.nextItem = some .fill ∧ s.late ≠ [] ∧ ∃ t, step s = .next t) ∧
    (∃ s : State, s.active = false ∧ (∃ t, step s = .next t) ∧
      ∀ rest, (∀ a v, s.host ≠ .fbWrite a v :: rest) ∧ (∀ v, s.host ≠ .fbFill v :: rest)) :=
  ⟨⟨{ idle with active := true, seq := 16, late := [⟨16, 3, 0x00⟩] }, by decide, by decide, by decide, next_of (by decide)⟩,
    ⟨{ idle with host := [.op 0x5] }, by decide, next_of (by decide), fun _ => ⟨by simp, by simp⟩⟩⟩
/-- Undisturbed, and each end of the range of `j`. -/
theorem witness_SendCommandContract :
    idle.Undisturbed ∧ ∀ j ∈ [0, 3], ∃ s : State, s.resetIn = none ∧ s.cfg.hasTxErr = true ∧ s.txFail = [j] ∧ j < 4 :=
  ⟨by decide, fun j hj => ⟨failing idle j, rfl, rfl, rfl, (by decide : ∀ j ∈ [0, 3], j < 4) j hj⟩⟩
theorem witness_SendDataContract :
    ([0x07, 0x00] : List Byte) ≠ [] ∧ idle.Undisturbed ∧
    ∀ j ∈ [0, 3], ∃ s : State, s.resetIn = none ∧ s.cfg.hasTxErr = true ∧ s.txFail = [j] ∧ j < 4 :=
  ⟨by decide, by decide, fun j hj => ⟨failing idle j, rfl, rfl, rfl, (by decide : ∀ j ∈ [0, 3], j < 4) j hj⟩⟩
theorem witness_ConfigurationCommandsEmitTheirFrames : large.Undisturbed := by decide
/-- In both orientations, the smallest valid geometry among them. -/
theorem witness_WriteRamSendsTheMappedFramebuffer :
    (idle.Undisturbed ∧ idle.cfg.valid = true) ∧
    ((blank .native 8 1 []).Undisturbed ∧ (blank .native 8 1 []).cfg.valid = true) := by decide
theorem witness_UpdateAndSleepCommandsEmitTheirFrames : large.Undisturbed := by decide
/-- At the first and the last primitive of a frame. -/
theorem witness_TransportErrorCutsAPanelCommand :
    (∀ j ∈ [0, 67], ∃ s : State, Instr.writeRam.wellFormedOn .wire8 = true ∧ s.cfg.valid = true ∧ s.resetIn = none ∧
      s.cfg.hasTxErr = true ∧ s.txFail = [j] ∧ j < (panelEvents .writeRam s).length) ∧
    (∃ s : State, Instr.activate.wellFormedOn .wire8 = true ∧ s.resetIn = none ∧ s.cfg.hasTxErr = true ∧
      s.txFail = [3] ∧ 3 < (panelEvents .activate s).length) :=
  ⟨fun j hj => ⟨failing idle j, rfl, valid_tpS, rfl, rfl, rfl,
      (by decide : ∀ j ∈ [0, 67], j < (panelEvents .writeRam (failing idle 0)).length) j hj⟩,
    ⟨failing idle 3, by decide⟩⟩
/-- A panel that settles at once and one that settles after one true answer. -/
def settlesAtOnce : State := { idle with busyIn := [false] }
def settlesLater : State := { State.reset with busyIn := [true, false] }
theorem witness_InitAndWakeRunTheInitSequence :
    (settlesLater.active = false ∧ settlesLater.cfg.valid = true ∧ settlesLater.Undisturbed ∧ settlesLater.HostKeepsOff ∧
      settlesLater.PanelSettles 1 []) ∧
    (settlesAtOnce.active = false ∧ settlesAtOnce.cfg.valid = true ∧ settlesAtOnce.Undisturbed ∧ settlesAtOnce.HostKeepsOff ∧
      settlesAtOnce.PanelSettles 0 []) := by decide
theorem witness_WakeIsInitButForCurOp :
    (∃ t, exec (.init true) (failing idle 0) = .next t) ∧ ∃ t, exec (.init true) (blank .rotated 12 8 []) = .next t :=
  ⟨next_of (by decide), next_of (by decide)⟩
/-- From Idle and from Sleeping. -/
theorem witness_RefreshRunsTheRefreshSequence :
    (∃ s : State, s.ctl = .idle ∧ s.active = false ∧ s.initialized = true ∧ s.cfg.valid = true ∧ s.Undisturbed ∧
      s.HostKeepsOff ∧ s.PanelSettles 1 []) ∧
    (∃ s : State, s.ctl = .sleeping ∧ s.active = false ∧ s.initialized = true ∧ s.cfg.valid = true ∧ s.Undisturbed ∧
      s.HostKeepsOff ∧ s.PanelSettles 0 []) :=
  ⟨⟨{ idle with busyIn := [true, false] }, by decide⟩, ⟨{ asleep with busyIn := [false] }, by decide⟩⟩
/-- With a late write at 0x24 and one in the busy-wait. -/
theorem witness_RefreshSendsTheOldOrTheNewByte : ∃ s : State, ∃ p rest, s.active = false ∧ s.initialized = true ∧
    s.cfg.valid = true ∧ s.Undisturbed ∧ s.PanelSettles p rest ∧ s.late = [⟨0, 15, 0x00⟩, ⟨4, 0, 0x5A⟩] :=
  ⟨{ settlesAtOnce with late := [⟨0, 15, 0x00⟩, ⟨4, 0, 0x5A⟩] }, 0, [], by decide⟩
/-- With a late write at the fill, and an address no late write names. -/
theorem witness_InitIsUnsettledOnlyWhereTheHostWrites : ∃ s : State, ∃ p rest, s.active = false ∧ s.cfg.valid = true ∧
    s.Undisturbed ∧ s.PanelSettles p rest ∧ s.late = [⟨16, 3, 0x00⟩] ∧ (∀ w ∈ s.late, w.addr ≠ 15) ∧ 15 < s.cfg.numBytes :=
  ⟨{ settlesLater with late := [⟨16, 3, 0x00⟩] }, 1, [], by decide⟩
/-- The last address, at a step that is no fill and at the fill. -/
theorem witness_ALateWriteLandsBeforeItsStep :
    (Item.cmd 0x24 ≠ .fill) ∧ ∀ n ∈ [0, 16], ∃ s : State, ∃ w, s.late = [w] ∧ w.seq = s.seq ∧ s.seq = n ∧ w.addr = 15 ∧
      w.addr < s.cfg.numBytes :=
  ⟨by decide, fun n _ => ⟨{ idle with seq := n, late := [⟨n, 15, 0x00⟩] }, ⟨n, 15, 0x00⟩, rfl, rfl, rfl, rfl,
    (by decide : 15 < Cfg.tpS.numBytes)⟩⟩
theorem witness_SleepRunsTheSleepSequence :
    idle.active = false ∧ idle.initialized = true ∧ idle.Undisturbed ∧ idle.HostKeepsOff := by decide
theorem witness_PreInitRefreshAndSleepAreSkipped : State.reset.active = false ∧ State.reset.initialized = false := by decide
/-- Each of the three ways a geometry is invalid. -/
theorem witness_InvalidGeometryIsRejectedBeforeAnyEvent :
    ((blank .rotated 12 8 []).active = false ∧ (blank .rotated 12 8 []).cfg.pw % 8 ≠ 0) ∧
    ((blank .rotated 0 8 []).active = false ∧ (blank .rotated 0 8 []).cfg.pw < 8) ∧
    ((blank .native 16 0 []).active = false ∧ (blank .native 16 0 []).cfg.ph < 1) := by decide
theorem witness_RefreshStream : ∃ s : State, ∃ p rest, s.active = false ∧ s.initialized = true ∧ s.cfg.valid = true ∧
    s.cfg.counterReset = false ∧ s.Undisturbed ∧ s.HostKeepsOff ∧ s.PanelSettles p rest :=
  ⟨settlesAtOnce, 0, [], by decide⟩
/-- With and without the counter reset. -/
theorem witness_InitStreamSeedsOneFullRefresh :
    ∀ b, ∃ s : State, ∃ p rest, s.cfg.counterReset = b ∧ s.active = false ∧ s.cfg.valid = true ∧ s.Undisturbed ∧
      s.HostKeepsOff ∧ s.PanelSettles p rest :=
  fun b => ⟨{ settlesLater with cfg := { Cfg.tpS with counterReset := b } }, 1, [], rfl, rfl, valid_tpS, ⟨rfl, .inl rfl⟩, rfl,
    rfl⟩
theorem witness_EventCounts : ∃ s : State, ∃ p rest, s.active = false ∧ s.cfg.valid = true ∧ s.Undisturbed ∧
    s.PanelSettles p rest ∧ s.cfg.counterReset = false ∧ s.cfg.ramFraming = .perByte ∧
    s.cfg.argDriverOutput ≠ [] ∧ s.cfg.argDataEntry ≠ [] ∧ s.cfg.argRamXWindow ≠ [] ∧ s.cfg.argRamYWindow ≠ [] ∧
    s.cfg.argBorder ≠ [] ∧ s.cfg.argUpdateCtrl1 ≠ [] ∧ s.cfg.argTempSensor ≠ [] ∧ s.cfg.argRamXCounter ≠ [] ∧
    s.cfg.argRamYCounter ≠ [] ∧ s.initialized = true :=
  ⟨settlesAtOnce, 0, [], by decide⟩
/-- A refresh, an initialization and a sleep. -/
theorem witness_LeastDurations :
    (settlesAtOnce.cfg.delaysLegal = true ∧ startsSequence (.refresh true) settlesAtOnce ∧ settlesAtOnce.Undisturbed ∧
      settlesAtOnce.PanelSettles 0 [] ∧ ∃ t, exec (.refresh true) settlesAtOnce = .next t) ∧
    (settlesLater.cfg.delaysLegal = true ∧ startsSequence (.init false) settlesLater ∧ settlesLater.Undisturbed ∧
      settlesLater.PanelSettles 1 [] ∧ ∃ t, exec (.init false) settlesLater = .next t) ∧
    (idle.cfg.delaysLegal = true ∧ startsSequence (.sleep false) idle ∧ idle.Undisturbed ∧
      ∃ t, exec (.sleep false) idle = .next t) :=
  ⟨⟨by decide, ⟨by decide, by decide, by decide⟩, by decide, by decide, next_of (by decide +kernel)⟩,
    ⟨by decide, ⟨by decide, by decide⟩, by decide, by decide, next_of (by decide +kernel)⟩,
    ⟨by decide, ⟨by decide, by decide⟩, by decide, next_of (by decide)⟩⟩
theorem witness_WaitHoldsForItsDelay : idle.resetIn = none := by decide
/-- With no answer scheduled and with three. -/
theorem witness_BusyWaitDoesNotEndWhileBusy :
    ∀ n ∈ [0, 3], ∃ s : State, s.active = false ∧ s.cfg.valid = true ∧ s.Undisturbed ∧ s.HostKeepsOff ∧
      s.busyIn = List.replicate n true ∧ s.initialized = true :=
  fun n _ => ⟨{ idle with busyIn := List.replicate n true }, rfl, valid_tpS, ⟨rfl, .inl rfl⟩, rfl, rfl, rfl⟩
/-- An operation in its busy-wait: `seq` at the last step but one of a REFRESH. -/
theorem witness_BusyWaitHasNoBound : ∃ s : State, s.active = true ∧ s.nextItem = some .poll ∧ s.Undisturbed ∧
    s.busyIn = List.replicate 2 true ++ [false] :=
  ⟨{ idle with active := true, curOp := .refresh, ctl := .busy, seq := 4, busyIn := [true, true, false] }, by decide⟩
/-- At the first primitive of a SLEEP, and at the last of a REFRESH that polls twice. -/
theorem witness_TransportErrorEndsAnOperationPrecisely :
    (∃ s : State, startsSequence (.sleep false) s ∧ s.HostKeepsOff ∧ s.resetIn = none ∧ s.cfg.hasTxErr = true ∧ s.txFail = [0] ∧
      0 < primitiveCount (operationEvents (.sleep false) s 0)) ∧
    (∃ s : State, startsSequence (.refresh false) s ∧ s.HostKeepsOff ∧ s.resetIn = none ∧ s.PanelSettles 1 [] ∧ s.cfg.hasTxErr = true ∧
      s.txFail = [81] ∧ primitiveCount (operationEvents (.refresh false) s 1) = 82) :=
  ⟨⟨failing idle 0, ⟨by decide, by decide⟩, by decide⟩,
    ⟨{ failing idle 81 with busyIn := [true, false] }, ⟨by decide, by decide, by decide⟩, by decide, by decide, by decide,
      by decide, by decide, by decide⟩⟩
/-- Before the first event of each operation and before its last, the panel busy once where it is asked. -/
theorem witness_HardwareResetEndsAnOperationAtOnce :
    (∀ j ∈ [0, 8], ∃ s : State, startsSequence (.sleep false) s ∧ s.HostKeepsOff ∧
      (s.cfg.hasTxErr = false ∨ s.txFail = []) ∧ s.resetIn = some j ∧ (operationEvents (.sleep false) s 0).length = 9) ∧
    (∀ j ∈ [0, 83], ∃ s : State, startsSequence (.refresh false) s ∧ s.HostKeepsOff ∧ s.PanelSettles 1 [] ∧
      (s.cfg.hasTxErr = false ∨ s.txFail = []) ∧ s.resetIn = some j ∧ (operationEvents (.refresh false) s 1).length = 84) ∧
    (∀ j ∈ [0, 177], ∀ i ∈ [Instr.init false, Instr.wake false], ∃ s : State, startsSequence i s ∧ s.HostKeepsOff ∧
      s.PanelSettles 1 [] ∧ (s.cfg.hasTxErr = false ∨ s.txFail = []) ∧ s.resetIn = some j ∧
      (operationEvents i s 1).length = 178) := by
  refine ⟨fun j _ => ⟨{ idle with resetIn := some j }, ⟨rfl, rfl⟩, rfl, .inl rfl, rfl, rfl⟩,
    fun j _ => ⟨{ idle with busyIn := [true, false], resetIn := some j }, ⟨rfl, rfl, valid_tpS⟩, rfl, rfl, .inl rfl, rfl, ?_⟩,
    fun j _ i hi => ⟨{ settlesLater with resetIn := some j }, ?_, rfl, rfl, .inl rfl, rfl, ?_⟩⟩
  · exact (by decide +kernel : (operationEvents (.refresh false) idle 1).length = 84)
  · simp only [List.mem_cons, List.not_mem_nil, or_false] at hi
    rcases hi with rfl | rfl <;> exact ⟨rfl, valid_tpS⟩
  · have h : (initEvents Cfg.tpS 1).length = 178 := by decide +kernel
    simp only [List.mem_cons, List.not_mem_nil, or_false] at hi
    rcases hi with rfl | rfl <;> exact h
theorem witness_MapperIsAPermutation : Cfg.tpL.valid = true ∧ Cfg.tpN.valid = true := by decide
theorem witness_MapperInverse :
    (Cfg.tpS.valid = true ∧ 0 < Cfg.tpS.numBytes ∧ 15 < Cfg.tpS.numBytes) ∧ (Cfg.tpN.valid = true ∧ 7 < Cfg.tpN.numBytes) ∧
    (Cfg.tpS.orient = .rotated ∧ Cfg.tpS.wid = 8 ∧ Cfg.tpS.tbc = 2) := by decide
theorem witness_MapperRegistersFollowTheClosedForm :
    idle.cfg.valid = true ∧ 15 < idle.cfg.numBytes ∧ idle.cfg.orient = .rotated := by decide
/-- Each clause. -/
theorem witness_MapperCornerCases :
    (Cfg.tpN.valid = true ∧ 7 < Cfg.tpN.numBytes ∧ Cfg.tpN.orient = .native) ∧
    ((geom .rotated 8 5).valid = true ∧ 4 < (geom .rotated 8 5).numBytes ∧ (geom .rotated 8 5).tbc = 1) ∧
    ((geom .rotated 16 1).valid = true ∧ 1 < (geom .rotated 16 1).numBytes ∧ (geom .rotated 16 1).wid = 1) ∧
    ((geom .rotated 8 1).valid = true ∧ 0 < (geom .rotated 8 1).numBytes ∧ (geom .rotated 8 1).wid = 1 ∧
      (geom .rotated 8 1).tbc = 1) := by decide
/-- A block at rest, and one in a busy-wait. -/
theorem witness_StepKeepsTheInvariant :
    (idle.Inv ∧ ∃ t, step idle = .next t) ∧
    ∃ s : State, s.Inv ∧ s.active = true ∧ ∃ t, step s = .next t :=
  ⟨⟨⟨by decide, fun _ => by decide, fun _ => rfl, fun _ => by decide, fun h => absurd h (by decide)⟩, next_of (by decide)⟩,
    { idle with active := true, curOp := .refresh, ctl := .busy, seq := 4, busyIn := [true] },
    ⟨by decide, fun _ => by decide, fun _ => rfl, fun h => absurd h (by decide), fun _ => by
      show State.RefreshPosition _; decide⟩, rfl, next_of (by decide)⟩
theorem witness_StepSendsOnlyPanelCommands : ∃ s : State, s.OnlyPanelCommands ∧ ∃ t, step s = .next t :=
  ⟨{ idle.withPanelCommand 0x22 with trace := cmdEvents 0x24 }, by decide, next_of (by decide)⟩
theorem witness_StepKeepsCfgAndExtendsTheTrace : ∃ t, step (idle.withPanelCommand 0x22) = .next t := next_of (by decide)
/-- All three flags and CAUSE set, in a step with no reset on its way and in one whose countdown does not run out. -/
theorem witness_StickyFlagsStayUntilReset :
    (∃ s t : State, s.resetIn = none ∧ s.host = [.op 0x1] ∧ step s = .next t ∧ s.skip = true ∧ s.err = true ∧ s.ill = true ∧
      s.cause ≠ 0) ∧
    (∃ s : State, s.active = true ∧ s.resetIn = some 9 ∧ s.skip = true ∧ s.err = true ∧ s.ill = true ∧ s.cause ≠ 0 ∧
      after (step s) State.resetIn = some (some 5)) := by
  refine ⟨?_, ⟨{ idle.withPanelCommand 0x20 with resetIn := some 9, skip := true, err := true, ill := true, cause := 1 },
    by decide⟩⟩
  obtain ⟨s, hs⟩ : ∃ s, s = { blank .rotated 12 8 [] with host := [.op 0x1], skip := true, err := true, ill := true, cause := 1 } :=
    ⟨_, rfl⟩
  obtain ⟨t, h⟩ : ∃ t, step s = .next t := next_of (by subst hs; decide)
  subst hs
  exact ⟨_, t, rfl, rfl, h, rfl, rfl, rfl, by decide⟩
/-- The last step of an INIT. -/
theorem witness_OnlyInitDoneSetsInitialized : ∃ s : State, s.initialized = false ∧ s.poweredOn = false ∧
    after (step s) (fun t => (t.initialized, t.poweredOn)) = some (true, true) :=
  ⟨{ State.reset with active := true, curOp := .init, ctl := .busy, seq := 23 }, by decide⟩
theorem witness_OneTransitionIsManySteps : ∃ s : State, s.active = true ∧ s.opDone = false :=
  ⟨{ idle with active := true }, by decide⟩
theorem witness_OperationsRunStepByStep : idle.active = false ∧ idle.cfg.valid = true ∧ idle.initialized = true := by decide

end Sys2Proof.Tests
end

section
/-! PROOFS of the family 10_state.md. What a transition does to the configuration, the trace and the sticky record, said once;
the statements on reset, status, delays and issued commands follow from the laws above. -/

namespace Sys2Proof.Machine

/-! ## The record only grows, or a hardware reset is taken -/

/-- From `s` to `t` the configuration is kept, the trace is extended, and no sticky flag is cleared (10_state.md R21, R29 to R31). -/
structure Grows (s t : State) : Prop where
  cfg : t.cfg = s.cfg
  trace : s.trace <+: t.trace
  skip : s.skip = true → t.skip = true
  err : s.err = true → t.err = true
  ill : s.ill = true → t.ill = true
  cause : s.cause ≠ 0 → t.cause ≠ 0

theorem Kept.grows {s t : State} (h : Kept s t) (ht : s.trace <+: t.trace) : Grows s t :=
  ⟨h.cfg, ht, h.skip.trans, h.err.trans, h.ill.trans, fun hc => h.cause ▸ hc⟩

theorem UpdKeeps.grows {upd : State → State} (h : UpdKeeps upd) (s : State) : Grows s (upd s) :=
  (h.kept s).grows (by rw [h.trace])

theorem Grows.refl (s : State) : Grows s s := (Kept.refl s).grows (List.prefix_refl _)

theorem Grows.trans {s t u : State} (h : Grows s t) (h' : Grows t u) : Grows s u :=
  ⟨h'.cfg.trans h.cfg, h.trace.trans h'.trace, h'.skip ∘ h.skip, h'.err ∘ h.err, h'.ill ∘ h.ill, h'.cause ∘ h.cause⟩

theorem Reached.grows {as : List Action} {P : State → Prop} {s u : State} {es : List Event} (h : Reached as P s u es) :
    Grows s u := h.kept.grows ⟨es, h.trace.symm⟩

/-! Each of the records of 60_exceptions.md R171, the skip and `ILL` grows the record. -/

theorem grows_transportError (s : State) : Grows s (transportError s) :=
  ⟨rfl, List.prefix_refl _, id, fun _ => rfl, id, fun _ => by simp⟩
theorem grows_geometryError (s : State) : Grows s (geometryError s) :=
  ⟨rfl, List.prefix_refl _, id, fun _ => rfl, id, fun _ => by simp⟩
theorem grows_skipped (s : State) : Grows s s.setSkip.pulseDone := ⟨rfl, List.prefix_refl _, fun _ => rfl, id, id, id⟩
theorem grows_illegal (s : State) : Grows s s.setIll.pulseDone := ⟨rfl, List.prefix_refl _, id, id, fun _ => rfl, id⟩

/-- How a piece of a transition that starts in `s` ends: with the record grown, or with a hardware reset taken, which was on its
way. -/
def Leads (s t : State) : Prop := Grows s t ∨ ∃ u, Grows s u ∧ t = hardReset u ∧ s.resetIn ≠ none

/-- A change that grows the record and leaves the reset input alone goes before a piece of a transition. -/
theorem Leads.after {s b t : State} (h : Leads b t) (hg : Grows s b) (hr : b.resetIn = s.resetIn) : Leads s t := by
  rcases h with h | ⟨u, hu, rfl, hn⟩
  · exact .inl (hg.trans h)
  · exact .inr ⟨u, hg.trans hu, rfl, hr ▸ hn⟩

/-! ## Every operation leads on -/

theorem runScript_leads {as : List Action} (ht : TameScript as) {s t : State} (h : (runScript as s).toOutcome = .next t) :
    Leads s t := by
  obtain ⟨u, es, r, ⟨rfl, -⟩ | ⟨rfl, hn⟩ | rfl⟩ := toOutcome_ends (P := fun _ => True) ht (fun _ _ _ => trivial)
    (fun a _ => by cases a <;> simp [Action.Respects]) trivial h
  · exact .inl r.grows
  · exact .inr ⟨u, r.grows, rfl, hn⟩
  · exact .inl (r.grows.trans (grows_transportError u))

theorem Scripted.leads {f : State → Res} {as : List Action} {P Q : State → Prop} (hf : Scripted f as P Q) {s t : State}
    (hs : P s) (h : (f s).toOutcome = .next t) : Leads s t :=
  runScript_leads hf.tame (hf.eq s hs ▸ h)

theorem runRest_leads {s t : State} (h : (runRest s).toOutcome = .next t) : Leads s t := by
  obtain ⟨he, ht, -⟩ := runRest_script s
  exact runScript_leads ht (he ▸ h)

theorem whenReady_leads {accepted : State → Host.Outcome State Fault Refusal} {s t : State}
    (ha : accepted s = .next t → Leads s t) (h : whenReady s accepted = .next t) : Leads s t := by
  unfold whenReady at h
  split at h
  · cases h; exact .inl (.refl s)
  · exact ha h

theorem beginInit_keeps (op : HostOp) : UpdKeeps (beginInit op) := by constructor <;> intro _ <;> rfl
theorem beginRefresh_keeps (full : Bool) : UpdKeeps (beginRefresh full) := by constructor <;> intro _ <;> rfl
theorem beginSleep_keeps : UpdKeeps beginSleep := by constructor <;> intro _ <;> rfl

theorem initOp_leads {op : HostOp} {s t : State} (h : initOp op s = .next t) : Leads s t := by
  refine whenReady_leads (fun h => ?_) h
  split at h
  · exact (runRest_leads h).after ((beginInit_keeps op).grows s) rfl
  · cases h; exact .inl (grows_geometryError s)

theorem gated_leads {begun : State → State} (hb : UpdKeeps begun) {s t : State} (h : gated begun s = .next t) : Leads s t := by
  refine whenReady_leads (fun h => ?_) h
  split at h
  · exact (runRest_leads h).after (hb.grows s) (hb.resetIn s)
  · cases h; exact .inl (grows_skipped s)

theorem reservedOp_leads {s t : State} (h : reservedOp s = .next t) : Leads s t :=
  whenReady_leads (fun h => by cases h; exact .inl (grows_illegal s)) h

/-- Every instruction leads on: a panel command by its script, a host word by its operation or its rejection. -/
theorem exec_leads {i : Instr} {s t : State} (h : exec i s = .next t) : Leads s t := by
  cases hf : i.format with
  | wire8 => exact (issue_scripted (decodeWire_of_format hf) s.view).leads rfl (exec_panel hf s ▸ h)
  | host4 =>
    cases i with
    | init _ | wake _ => exact initOp_leads h
    | refresh f => exact gated_leads (beginRefresh_keeps f) h
    | sleep _ => exact gated_leads beginSleep_keeps h
    | reserved0 _ | reserved5 _ | reserved6 _ | reserved7 _ => exact reservedOp_leads h
    | _ => cases hf

/-! ## Every step leads on -/

/-- A host action that is no reset grows the record: it writes the framebuffer, or gives the late writes to come. -/
theorem hostAct_grows {a : HostAction} (ha : a ≠ .reset) {s t : State} (h : (hostAct a s).toOutcome = .next t) : Grows s t := by
  cases a with
  | reset => exact absurd rfl ha
  | op _ => cases h; exact .refl s
  | fbFill v => cases h; exact UpdKeeps.grows (upd := hostFill v) (by constructor <;> intro _ <;> rfl) s
  | fbWrite a v =>
    simp only [hostAct, hostWrite] at h
    split at h <;> cases h
    exact UpdKeeps.grows (upd := fun s => { s with fb := s.fb.write a v }) (by constructor <;> intro _ <;> rfl) s
  | during ws =>
    simp only [hostAct, hostDuring] at h
    split at h <;> cases h
    exact UpdKeeps.grows (upd := fun s => { s with late := ws }) (by constructor <;> intro _ <;> rfl) s

theorem stepActive_leads {s t : State} (h : stepActive s = .next t) : Leads s t := by
  cases hi : s.nextItem with
  | none => rw [stepActive_none hi] at h; cases h
  | some it =>
    have hk := nextItem_known hi
    rw [stepActive_item hi hk] at h
    exact ((stepItem_scripted it hk (s.land it).view).leads rfl h).after ((landStep_keeps (it == .fill)).grows s) rfl

/-- The script of the host moves on. -/
theorem hostRest_grows (s : State) (rest : List HostAction) : Grows s { s with host := rest } :=
  ⟨rfl, List.prefix_refl _, id, id, id, id⟩

/-- A step while the block accepts leads on, or takes the script's hardware reset. -/
theorem stepReady_leads_or_resets {s t : State} (h : stepReady s = .next t) :
    Leads s t ∨ ∃ u rest, Grows s u ∧ t = hardReset u ∧ s.host = .reset :: rest := by
  cases hh : s.host with
  | nil => rw [stepReady_idle hh] at h; cases h; exact .inl (.inl (.refl s))
  | cons a rest =>
    have hrest := hostRest_grows s rest
    cases a with
    | op w => rw [stepReady_op hh] at h; exact .inl ((exec_leads h).after hrest rfl)
    | reset => rw [stepReady_act hh (by simp)] at h; cases h; exact .inr ⟨_, rest, hrest, rfl, rfl⟩
    | _ => rw [stepReady_act hh (by simp)] at h; exact .inl (.inl (hrest.trans (hostAct_grows (by simp) h)))

theorem clearDone_keeps : UpdKeeps State.clearDone := by constructor <;> intro _ <;> rfl

/-- The two ways a step can take a hardware reset: the input's countdown runs, or the block accepts and the host's script
resets it (30_encoding.md R83, 70_reset_and_hazards.md R196). -/
def State.MayReset (s : State) : Prop := s.resetIn ≠ none ∨ (s.active = false ∧ ∃ rest, s.host = .reset :: rest)

/-- What a step can do to the record: it grows, or a hardware reset is taken after it has grown. -/
theorem step_grows_or_resets {s t : State} (h : step s = .next t) :
    Grows s t ∨ ∃ u, Grows s u ∧ t = hardReset u ∧ s.MayReset := by
  have hclear := clearDone_keeps.grows s
  have of_leads (hl : Leads s.clearDone t) : Grows s t ∨ ∃ u, Grows s u ∧ t = hardReset u ∧ s.MayReset :=
    (hl.after hclear rfl).imp_right fun ⟨u, hu, ht, hn⟩ => ⟨u, hu, ht, .inl hn⟩
  by_cases hr : s.resetIn = some 0
  · rw [step_reset hr] at h
    cases h
    exact .inr ⟨s, .refl s, rfl, .inl (by simp [hr])⟩
  cases ha : s.active with
  | true => exact of_leads (stepActive_leads (step_active hr ha ▸ h))
  | false =>
    rcases stepReady_leads_or_resets (step_ready hr ha ▸ h) with hl | ⟨u, rest, hu, ht, hh⟩
    · exact of_leads hl
    · exact .inr ⟨u, hclear.trans hu, ht, .inr ⟨ha, rest, hh⟩⟩

/-- Settles O48: a hardware reset keeps `cfg` and the trace of the state it is taken in. -/
theorem stepKeepsCfgAndExtendsTheTrace : Obligations.StepKeepsCfgAndExtendsTheTrace := by
  intro s t h
  rcases step_grows_or_resets h with hg | ⟨u, hg, rfl, -⟩
  · exact ⟨hg.cfg, hg.trace⟩
  · exact ⟨hg.cfg, hg.trace⟩

/-- Settles O49: a hardware reset ends its countdown, so that the hypotheses exclude both ways of taking one. -/
theorem stickyFlagsStayUntilReset : Obligations.StickyFlagsStayUntilReset := by
  intro s t hin hhost h
  rcases step_grows_or_resets h with hg | ⟨u, -, rfl, hn | ⟨ha, rest, hh⟩⟩
  · exact ⟨hg.skip, hg.err, hg.ill, hg.cause⟩
  · exact hin.elim (absurd · hn) (absurd rfl ·)
  · exact absurd hh (hhost ha rest)

/-! ## One item of the step list -/

/-- The step at a command byte decodes it and executes it. -/
theorem step_command {s : State} {c : Byte} {i : Instr} (ha : s.active = true) (hr : s.resetIn ≠ some 0)
    (hc : s.nextItem = some (.cmd c)) (hi : decodeWire c = .ok i) :
    step s = exec i { s.land (.cmd c) with seq := s.seq + 1, opDone := false } := by
  rw [step_active hr ha]
  simp only [stepActive, clearDone_nextItem, hc, hi]
  rfl

/-- Where no late write names the position, landing before a command byte changes nothing. -/
theorem land_command_of_no_late {s : State} (h : ∀ w ∈ s.late, w.seq ≠ s.seq) (c : Byte) : s.land (.cmd c) = s :=
  landStep_none h false

/-- Settles O5: the second clause is the first where landing changes nothing. -/
theorem stepExecutesTheIssuedCommand : Obligations.StepExecutesTheIssuedCommand := by
  intro s c i ha hr hc hi
  have h := step_command ha hr hc hi
  exact ⟨h, fun hl => by rw [h, land_command_of_no_late hl]⟩

/-! ## Reset, status and delays -/

theorem hardReset_values (s : State) : (hardReset s).HardwareResetValues :=
  ⟨rfl, rfl, rfl, rfl, rfl, rfl, rfl, rfl, rfl, rfl, rfl, rfl⟩

/-- The script's hardware reset. -/
theorem step_hostReset {s : State} {rest : List HostAction} (hr : s.resetIn ≠ some 0) (ha : s.active = false)
    (hh : s.host = .reset :: rest) : step s = .next (hardReset { s.clearDone with host := rest }) :=
  (step_ready hr ha).trans (stepReady_act (s := s.clearDone) hh (by simp))

/-- Settles O10: whichever way the reset comes, the step answers `hardReset` of a state with the same memory, `cfg` and trace. -/
theorem hardwareResetGivesTheResetValues : Obligations.HardwareResetGivesTheResetValues := by
  refine ⟨hardReset_values .reset, fun s h => ?_⟩
  by_cases hr : s.resetIn = some 0
  · exact ⟨_, step_reset hr, hardReset_values s, rfl, rfl, rfl⟩
  · obtain ⟨ha, rest, hh⟩ := h.resolve_left hr
    exact ⟨_, step_hostReset hr ha hh, hardReset_values _, rfl, rfl, rfl⟩

/-- The six flags of the status byte, bits 0 to 5 (10_state.md R32). -/
theorem status_flags (s : State) :
    s.status.getLsbD 0 = s.initialized ∧ s.status.getLsbD 1 = s.poweredOn ∧ s.status.getLsbD 2 = s.active ∧
      s.status.getLsbD 3 = s.skip ∧ s.status.getLsbD 4 = s.err ∧ s.status.getLsbD 5 = s.ill := by
  simp only [State.status, BitVec.getLsbD_append]
  simp

/-- Bits 7:6 of the status byte (R32). -/
theorem status_cause (s : State) : s.status.extractLsb' 6 2 = s.cause := by
  ext i hi
  simp only [State.status, BitVec.getElem_extractLsb', BitVec.getLsbD_append]
  simp [BitVec.getLsbD_eq_getElem hi]

/-- Settles O11, by the place of each field in the concatenation. -/
theorem statusByteLayout : Obligations.StatusByteLayout := by
  refine ⟨fun s => ?_, rfl, rfl, rfl, rfl, rfl, rfl⟩
  obtain ⟨h0, h1, h2, h3, h4, h5⟩ := status_flags s
  exact ⟨h0, h1, h2, h3, h4, h5, status_cause s⟩

/-- The ticks of `t` ms are the least number that lasts `t` ms (R35, D14). -/
theorem ticks_least (c : Cfg) (t : Nat) : t * c.clkHz ≤ c.ticks t * 1000 ∧ c.ticks t * 1000 < t * c.clkHz + 1000 := by
  unfold Cfg.ticks
  generalize t * c.clkHz = n
  omega

/-- With no hardware reset on its way a wait is its event, and leaves the timer at zero (60_exceptions.md R186). -/
theorem wait_eq {s : State} (h : s.resetIn = none) (d : Delay) :
    wait d s = .ok { s with trace := s.trace ++ [.wait (s.cfg.delay d)], timer := 0 } :=
  tick_undisturbed (s := s.loadTimer (s.cfg.delay d)) h _ _

/-- Settles O34, by the event of an undisturbed wait and the rounding of the timer's load. -/
theorem waitHoldsForItsDelay : Obligations.WaitHoldsForItsDelay :=
  fun s => ⟨fun d h => wait_eq h d, rfl, rfl, rfl, rfl, fun t => ticks_least s.cfg t⟩

end Sys2Proof.Machine
end

section
/-! PROOFS of the family 20_memory.md. The laws of one write; what each host action of the script makes of the framebuffer; and
where a byte that a step has changed comes from. -/

namespace Sys2Proof.Machine

/-- Settles O13, by the laws of the memory. -/
theorem memoryWriteThenRead : Obligations.MemoryWriteThenRead :=
  fun m a v => ⟨fun b => m.written_write a b v,
    fun h => ⟨Memory.write_wf h a v, fun _ h' he => Memory.eq_of_written h h' he⟩⟩

/-! ## The host's script while the block accepts -/

/-- A host action that is no operation word is the whole of its step, but for the end of the `op_done` pulse (log 12). -/
theorem step_hostAct {s : State} {a : HostAction} {rest : List HostAction} {r : Res} (hr : s.resetIn ≠ some 0)
    (ha : s.active = false) (hh : s.host = a :: rest) (hw : ∀ w, a ≠ .op w)
    (he : hostAct a { s.clearDone with host := rest } = r) : step s = r.toOutcome :=
  (step_ready hr ha).trans ((stepReady_act (s := s.clearDone) hh hw).trans (congrArg Res.toOutcome he))

theorem hostWrite_inside {s : State} {a : Nat} (h : a < s.cfg.numBytes) (v : Byte) :
    hostWrite a v s = .ok { s with fb := s.fb.write a v } := if_pos h

theorem hostWrite_outside {s : State} {a : Nat} (h : s.cfg.numBytes ≤ a) (v : Byte) :
    hostWrite a v s = .fault (.fbAddress a) := if_neg (Nat.not_lt.2 h)

theorem hostDuring_inside {s : State} {ws : List LateWrite} (h : ∀ w ∈ ws, w.addr < s.cfg.numBytes) :
    hostDuring ws s = .ok { s with late := ws } := by
  rcases hostDuring_cases ws s with ⟨-, e⟩ | ⟨w, hw, hn, -⟩
  · exact e
  · exact absurd (h w hw) (Nat.not_lt.2 hn)

theorem hostDuring_outside {s : State} {ws : List LateWrite} (h : ∃ w ∈ ws, s.cfg.numBytes ≤ w.addr) :
    ∃ w ∈ ws, s.cfg.numBytes ≤ w.addr ∧ hostDuring ws s = .fault (.fbAddress w.addr) := by
  rcases hostDuring_cases ws s with ⟨hin, -⟩ | hout
  · obtain ⟨w, hw, hn⟩ := h
    exact absurd (hin w hw) (Nat.not_lt.2 hn)
  · exact hout

/-- Settles O9: one clause for each action of the script, and one for the empty script. -/
theorem hostActionsOutsideOperations : Obligations.HostActionsOutsideOperations := by
  intro s rest ha hr
  refine ⟨fun a v hh hn => ?_, fun a v hh hn => ?_, fun ws hh hin => ?_, fun ws hh hout => ?_, fun v hh => ?_, fun hh => ?_⟩
  · refine ⟨s.fb.write a v, step_hostAct hr ha hh (by simp) (hostWrite_inside (s := { s.clearDone with host := rest }) hn v),
      ?_, fun b hb => ?_⟩
    · rw [Memory.written_write, if_pos rfl]
    · rw [Memory.written_write, if_neg hb]
  · exact step_hostAct hr ha hh (by simp) (hostWrite_outside (s := { s.clearDone with host := rest }) hn v)
  · exact step_hostAct hr ha hh (by simp) (hostDuring_inside hin)
  · obtain ⟨w, hw, hn, he⟩ := hostDuring_outside (s := { s.clearDone with host := rest }) hout
    exact ⟨w, hw, hn, step_hostAct hr ha hh (by simp) he⟩
  · refine ⟨s.fb.fillFrom 0 (fun _ => v) s.cfg.numBytes, step_hostAct hr ha hh (by simp) rfl, fun b => ?_⟩
    simp [Memory.written_fillFrom]
  · exact (step_ready hr ha).trans (stepReady_idle (s := s.clearDone) hh)

/-! ## The framebuffer writes among a script's events -/

/-- The only framebuffer writes among the events `es` are writes of 0xFF, and there are none unless `fills`. -/
def WritesLight (fills : Bool) (es : List Event) : Prop := ∀ e ∈ es, ∀ a v, e = .fbWr a v → v = 0xFF ∧ fills = true

@[simp] theorem writesLight_nil (fills : Bool) : WritesLight fills [] := by simp [WritesLight]

@[simp] theorem writesLight_cons {fills : Bool} {e : Event} {es : List Event} :
    WritesLight fills (e :: es) ↔ (∀ a v, e = .fbWr a v → v = 0xFF ∧ fills = true) ∧ WritesLight fills es := by
  simp [WritesLight]

@[simp] theorem writesLight_append {fills : Bool} {es fs : List Event} :
    WritesLight fills (es ++ fs) ↔ WritesLight fills es ∧ WritesLight fills fs := by
  simp only [WritesLight, List.forall_mem_append]

theorem WritesLight.weaken {fills : Bool} {es : List Event} (h : WritesLight fills es) : WritesLight true es :=
  fun e he a v hv => ⟨(h e he a v hv).1, rfl⟩

/-- The events of the Command Channel write no framebuffer byte. -/
theorem frameEvents_writesLight (fills : Bool) (c : Byte) (args : List Byte) : WritesLight fills (frameEvents c args) := by
  unfold frameEvents
  split <;> simp [cmdEvents, dataEvents]

theorem dataLoopEvents_writesLight (fills : Bool) (c : Cfg) (f : Nat → Byte) : WritesLight fills (dataLoopEvents c f) := by
  cases hc : c.ramFraming with
  | perByte =>
    have hd : ∀ b : Byte, WritesLight fills (dataEvents [b]) := fun b => by simp [dataEvents]
    intro e he
    simp only [dataLoopEvents, hc, List.mem_flatMap] at he
    obtain ⟨b, -, he⟩ := he
    exact hd b e he
  | burst => by_cases h : c.numBytes = 0 <;> simp [dataLoopEvents, hc, h, dataEvents]

theorem panelEvents_writesLight (fills : Bool) (i : Instr) (s : State) : WritesLight fills (panelEvents i s) := by
  cases i with
  | writeRam => simp [panelEvents, cmdEvents, dataLoopEvents_writesLight]
  | activate => simp [panelEvents, cmdEvents]
  | _ => simp [panelEvents, frameEvents_writesLight]

theorem turnScript_writesLight (fills : Bool) (t : Nat) (b : Bool) : WritesLight fills (scriptEvents (turnScript t b)) := by
  cases b <;> simp [turnScript]

theorem pollScript_writesLight (fills : Bool) (t : Nat) (bs : List Bool) :
    WritesLight fills (scriptEvents (pollScript t bs)) := by
  induction bs with
  | nil => simp [pollScript]
  | cons b bs ih => cases b <;> simp [pollScript, turnScript_writesLight, ih]

/-- The fill writes 0xFF (42_controller_operations.md R127), and no other step of a list writes the framebuffer. -/
theorem itemScript_writesLight (it : Item) (v : State) : WritesLight (it == .fill) (scriptEvents (itemScript it v)) := by
  cases it with
  | cmd c =>
    simp only [itemScript]
    split <;> simp [panelScript_events, panelEvents_writesLight]
  | fill => simp [itemScript, WritesLight]
  | poll => exact pollScript_writesLight _ _ _
  | _ => simp [itemScript]

theorem stepScript_writesLight (it : Item) (v : State) : WritesLight (it == .fill) (scriptEvents (stepScript it v)) := by
  cases it with
  | poll => exact turnScript_writesLight _ _ _
  | _ => exact itemScript_writesLight _ v

theorem itemsScript_writesLight (its : List Item) (v : State) : WritesLight true (scriptEvents (itemsScript its v)) := by
  induction its generalizing v with
  | nil => simp [itemsScript]
  | cons it its ih =>
    have hp : scriptEvents (pauseScript it v) = [] := by unfold pauseScript; split <;> rfl
    simp [itemsScript, hp, (itemScript_writesLight it (v.land it)).weaken, ih]

/-! ## Where the bytes of the framebuffer come from -/

/-- From `s` to `t` something has written the byte at `a` last: the fill, on the trace, or the host during the operation. -/
def Sourced (s t : State) (a : Nat) : Prop :=
  (t.fb.written a = some 0xFF ∧ Event.fbWr a 0xFF ∈ t.trace.drop s.trace.length) ∨
    ∃ w ∈ s.late, w.addr = a ∧ t.fb.written a = some w.val

/-- From `s` to `t` every byte is as before, or has its source. -/
def WritesSourced (s t : State) : Prop := ∀ a, t.fb.written a = s.fb.written a ∨ Sourced s t a

theorem WritesSourced.of_fb {s t : State} (h : t.fb = s.fb) : WritesSourced s t := fun _ => .inl (by rw [h])

/-- From `s` to `t`, a state within the same step, each byte is as before or has its source. Where a fill may come, a contested
byte must have its source already, since the fill may leave it as it is (log 28). -/
structure Accounted (fills : Bool) (s t : State) : Prop where
  late : ∀ w ∈ t.late, w ∈ s.late
  trace : s.trace <+: t.trace
  fb : WritesSourced s t
  contested : fills = true → ∀ a, (t.raced.written a).isSome → Sourced s t a

theorem Accounted.of_eq {fills : Bool} {s t : State} (hf : t.fb = s.fb) (ht : t.trace = s.trace) (hl : t.late = s.late)
    (hr : fills = true → t.raced = []) : Accounted fills s t :=
  ⟨fun _ hw => hl ▸ hw, ht ▸ List.prefix_refl _, .of_fb hf, fun h a hc => by simp [hr h, Memory.written] at hc⟩

theorem Accounted.weaken {fills fills' : Bool} {s t : State} (h : Accounted fills s t) (hc : fills' = true → fills = true) :
    Accounted fills' s t := ⟨h.late, h.trace, h.fb, fun h' => h.contested (hc h')⟩

/-- A byte that is not written again keeps its source. -/
theorem Sourced.later {s t u : State} {a : Nat} (h : Sourced s t a) (hf : u.fb.written a = t.fb.written a)
    (ht : t.trace <+: u.trace) : Sourced s u a := by
  rcases h with ⟨h1, h2⟩ | ⟨w, hw, ha, h1⟩
  · exact .inl ⟨hf.trans h1, (ht.drop _).mem h2⟩
  · exact .inr ⟨w, hw, ha, hf.trans h1⟩

/-- A byte with a source has been written, and reads as that. -/
theorem Sourced.written {s t : State} {a : Nat} (h : Sourced s t a) : t.fb.written a = some (t.fb.byteAt a) := by
  rcases h with ⟨h, -⟩ | ⟨w, -, -, h⟩ <;> rw [h, Memory.byteAt_of_written h]

/-- From `t` to `u` the byte at `a` is left alone and, where a fill may come, is not newly contested: a contested byte of `u` was
one of `t`, and was accounted for there. -/
def LeftAlone (fills before : Bool) (t u : State) (a : Nat) : Prop :=
  u.fb.written a = t.fb.written a ∧
    (fills = true → (u.raced.written a).isSome → before = true ∧ (t.raced.written a).isSome)

/-- What goes on from an accounted state leaves each byte alone, or gives it a source. -/
theorem Accounted.extend {fills before : Bool} {s t u : State} (h : Accounted before s t) (hl : ∀ w ∈ u.late, w ∈ t.late)
    (ht : t.trace <+: u.trace) (hf : ∀ a, LeftAlone fills before t u a ∨ Sourced s u a) : Accounted fills s u where
  late w hw := h.late w (hl w hw)
  trace := h.trace.trans ht
  fb a := by
    rcases hf a with ⟨e, -⟩ | hs
    · exact (h.fb a).imp e.trans fun hs => hs.later e ht
    · exact .inr hs
  contested hc a hr := by
    rcases hf a with ⟨e, hb⟩ | hs
    · obtain ⟨hb, hr⟩ := hb hc hr
      exact (h.contested hb a hr).later e ht
    · exact hs

/-! ## Landings and events keep the account -/

/-- Landings leave an address alone and do not contest it, or put a byte of the host's there. -/
theorem landAll_written (inFill : Bool) (n : Nat) (ws : List LateWrite) (fb raced : Memory) (races a : Nat) :
    ((landAll inFill n ws fb raced races).1.written a = fb.written a ∧
        (landAll inFill n ws fb raced races).2.1.written a = raced.written a) ∨
      ∃ w ∈ ws, w.addr = a ∧ (landAll inFill n ws fb raced races).1.written a = some w.val := by
  induction ws generalizing fb raced races with
  | nil => exact .inl ⟨rfl, rfl⟩
  | cons w ws ih =>
    have one : ((landOne inFill n w fb raced races).1.written a = fb.written a ∧
          (landOne inFill n w fb raced races).2.1.written a = raced.written a) ∨
        w.addr = a ∧ (landOne inFill n w fb raced races).1.written a = some w.val := by
      unfold landOne
      split <;> [skip; exact .inl ⟨rfl, rfl⟩]
      by_cases ha : a = w.addr
      · exact .inr ⟨ha.symm, by rw [Memory.written_write, if_pos ha]⟩
      · exact .inl ⟨by rw [Memory.written_write, if_neg ha], by rw [Memory.written_write, if_neg ha]⟩
    rw [landAll]
    rcases ih (landOne inFill n w fb raced races).1 (landOne inFill n w fb raced races).2.1
      (landOne inFill n w fb raced races).2.2 with ⟨h1, h2⟩ | ⟨x, hx, h⟩
    · rw [h1, h2]
      exact one.imp_right fun h => ⟨w, List.mem_cons_self, h⟩
    · exact .inr ⟨x, List.mem_cons_of_mem _ hx, h⟩

theorem landStep_written (inFill : Bool) (s : State) (a : Nat) :
    ((landStep inFill s).fb.written a = s.fb.written a ∧
        (landStep inFill s).raced.written a = Memory.written (if inFill then [] else s.raced) a) ∨
      ∃ w ∈ s.late, w.addr = a ∧ (landStep inFill s).fb.written a = some w.val :=
  (landAll_written inFill s.cfg.numBytes _ s.fb _ s.races a).imp_right fun ⟨w, hw, h⟩ => ⟨w, List.mem_of_mem_filter hw, h⟩

/-- A landing keeps the account. Before the fill, nothing need be known of what was contested: that is forgotten. -/
theorem Accounted.land {fills inFill : Bool} {s t : State} (h : Accounted (fills && !inFill) s t) :
    Accounted fills s (landStep inFill t) := by
  refine h.extend (fun w => landStep_late_sub) (List.prefix_refl _) fun a => ?_
  rcases landStep_written inFill t a with ⟨e, er⟩ | ⟨w, hw, hs⟩
  · refine .inl ⟨e, fun hf hr => ?_⟩
    rw [er] at hr
    cases inFill with
    | true => simp [Memory.written] at hr
    | false => exact ⟨by simp [hf], hr⟩
  · exact .inr (.inr ⟨w, h.late w hw, hs⟩)

/-- An event keeps the account, if it is no framebuffer write but one of the fill. -/
theorem Accounted.event {fills : Bool} {s t u : State} {ev : Event} (h : Accounted fills s t) (ht : u.trace = t.trace ++ [ev])
    (hm : MemFollows t u [ev]) (hev : ∀ a v, ev = .fbWr a v → v = 0xFF ∧ fills = true) : Accounted fills s u := by
  have hp : t.trace <+: u.trace := ht ▸ List.prefix_append _ _
  have still (a : Nat) (hf : u.fb.written a = t.fb.written a) : LeftAlone fills fills t u a :=
    ⟨hf, fun hc hr => ⟨hc, hm.raced ▸ hr⟩⟩
  refine h.extend (fun w hw => hm.late ▸ hw) hp fun a => ?_
  cases ev with
  | fbWr b v =>
    obtain ⟨rfl, hc⟩ := hev b v rfl
    have hw : u.fb.written a = if a = b then some (settle t.raced t.races t.fb 0xFF b) else t.fb.written a := by
      rw [hm.fb, ← Memory.written_write]; rfl
    by_cases ha : a = b
    · subst ha
      rw [if_pos rfl] at hw
      rcases settle_or t.raced t.races t.fb 0xFF a with he | ⟨hr, he⟩
      · refine .inr (.inl ⟨by rw [hw, he], ?_⟩)
        rw [ht, List.drop_append_of_le_length h.trace.length_le]
        simp
      · have hs := h.contested hc a hr
        exact .inr (hs.later (by rw [hw, he, hs.written]) hp)
    · exact .inl (still a (by rw [hw, if_neg ha]))
  | _ => exact .inl (still a (by rw [hm.fb]; rfl))

/-- Every action keeps the account, if its event does. -/
theorem Action.Tame.respects_accounted {act : Action} (ht : act.Tame) {fills : Bool} (hw : WritesLight fills act.events)
    (s : State) : act.Respects (Accounted fills s) := by
  cases act with
  | primitive ev upd =>
    obtain ⟨-, hk, hf⟩ := ht
    exact fun t tx ri h => h.event (hk.trace _) (hf _).of_event.mem (writesLight_cons.1 hw).1
  | tick ev upd =>
    obtain ⟨-, hk, hf⟩ := ht
    exact fun t tx ri h => h.event (hk.trace _) (hf _).of_event.mem (writesLight_cons.1 hw).1
  | silent upd =>
    obtain ⟨hk, hf⟩ := ht
    intro t h
    obtain ⟨hfb, hraced, -, hlate⟩ := (hf t).mem
    exact h.extend (fun w hw => hlate ▸ hw) (hk.trace t ▸ List.prefix_refl _)
      fun a => .inl ⟨by rw [hfb]; rfl, fun hc hr => ⟨hc, hraced ▸ hr⟩⟩
  | land f => exact fun t h => (h.weaken fun hc => (Bool.and_eq_true_iff.1 hc).1).land
  | barrier | pause => trivial

/-! ## Every step that is no host write accounts for the framebuffer -/

/-- However a script ends, it has accounted for the framebuffer: neither exception nor a hardware reset writes it. -/
theorem runScript_writesSourced {as : List Action} (ht : TameScript as) {fills : Bool} (hw : WritesLight fills (scriptEvents as))
    {s b t : State} (hb : Accounted fills s b) (h : (runScript as b).toOutcome = .next t) : WritesSourced s t := by
  have hr : ∀ act ∈ as, act.Respects (Accounted fills s) := fun act ha =>
    (ht act ha).respects_accounted (fun e he => hw e (List.mem_flatMap.2 ⟨act, ha, he⟩)) s
  obtain ⟨u, es, r, ⟨rfl, -⟩ | ⟨rfl, -⟩ | rfl⟩ :=
    toOutcome_ends ht (fun _ _ hs => ⟨hs.late, hs.trace, hs.fb, hs.contested⟩) hr hb h
  · exact r.prop.fb
  · exact r.prop.fb
  · exact r.prop.fb

/-- A step of an operation in progress. -/
theorem stepActive_writesSourced {s t : State} (h : stepActive s = .next t) : WritesSourced s t := by
  cases hi : s.nextItem with
  | none => rw [stepActive_none hi] at h; cases h
  | some it =>
    have hk := nextItem_known hi
    have hs := stepItem_scripted it hk (s.land it).view
    rw [stepActive_item hi hk, hs.eq _ rfl] at h
    have hland : Accounted (it == .fill) s (s.land it) := Accounted.land (.of_eq rfl rfl rfl fun hc => by simp at hc)
    exact runScript_writesSourced hs.tame (stepScript_writesLight it _) hland h

/-- The rest of an operation that has just begun: nothing is contested yet. -/
theorem runRest_writesSourced {s b t : State} (hb : Accounted true s b) (h : (runRest b).toOutcome = .next t) :
    WritesSourced s t := by
  obtain ⟨he, ht, -⟩ := runRest_script b
  exact runScript_writesSourced ht (itemsScript_writesLight _ _) hb (he ▸ h)

/-- A word that is not accepted changes nothing (30_encoding.md R71). -/
theorem whenReady_cases {accepted : State → Host.Outcome State Fault Refusal} {s t : State}
    (h : whenReady s accepted = .next t) : t = s ∨ accepted s = .next t := by
  unfold whenReady at h
  split at h
  · cases h; exact .inl rfl
  · exact .inr h

theorem initOp_writesSourced {op : HostOp} {s t : State} (h : initOp op s = .next t) : WritesSourced s t := by
  rcases whenReady_cases h with rfl | h
  · exact .of_fb rfl
  split at h
  · exact runRest_writesSourced (b := beginInit op s) (.of_eq rfl rfl rfl fun _ => rfl) h
  · cases h; exact .of_fb rfl

theorem gated_writesSourced {begun : State → State} {s t : State} (hb : Accounted true s (begun s))
    (h : gated begun s = .next t) : WritesSourced s t := by
  rcases whenReady_cases h with rfl | h
  · exact .of_fb rfl
  split at h
  · exact runRest_writesSourced hb h
  · cases h; exact .of_fb rfl

theorem reservedOp_writesSourced {s t : State} (h : reservedOp s = .next t) : WritesSourced s t := by
  rcases whenReady_cases h with rfl | h
  · exact .of_fb rfl
  · cases h; exact .of_fb rfl

theorem decodeHost_format (w : OpWord) : (decodeHost w).format = .host4 := by
  unfold decodeHost
  split <;> rfl

/-- A host word, by its operation. -/
theorem exec_host_writesSourced {i : Instr} (hf : i.format = .host4) {s t : State} (h : exec i s = .next t) :
    WritesSourced s t := by
  cases i with
  | init _ | wake _ => exact initOp_writesSourced h
  | refresh f => exact gated_writesSourced (.of_eq rfl rfl rfl fun _ => rfl) h
  | sleep _ => exact gated_writesSourced (.of_eq rfl rfl rfl fun _ => rfl) h
  | reserved0 _ | reserved5 _ | reserved6 _ | reserved7 _ => exact reservedOp_writesSourced h
  | _ => cases hf

/-- A host action that is no framebuffer write leaves the framebuffer alone. -/
theorem hostAct_fb {act : HostAction} (hw : ∀ a v, act ≠ .fbWrite a v) (hf : ∀ v, act ≠ .fbFill v) {s t : State}
    (h : (hostAct act s).toOutcome = .next t) : t.fb = s.fb := by
  cases act with
  | fbWrite a v => exact absurd rfl (hw a v)
  | fbFill v => exact absurd rfl (hf v)
  | op _ | reset => cases h; rfl
  | during ws =>
    rcases hostDuring_cases ws s with ⟨-, e⟩ | ⟨w, -, -, e⟩ <;> rw [hostAct, e] at h <;> cases h
    rfl

/-- A step while the block accepts, where the host's next action is no framebuffer write. -/
theorem stepReady_writesSourced {s t : State}
    (hw : ∀ rest, (∀ a v, s.host ≠ .fbWrite a v :: rest) ∧ ∀ v, s.host ≠ .fbFill v :: rest)
    (h : stepReady s = .next t) : WritesSourced s t := by
  cases hh : s.host with
  | nil => rw [stepReady_idle hh] at h; cases h; exact .of_fb rfl
  | cons act rest =>
    obtain ⟨hwrite, hfill⟩ := hw rest
    cases act with
    | op w => rw [stepReady_op hh] at h; exact exec_host_writesSourced (s := { s with host := rest }) (decodeHost_format w) h
    | _ =>
      rw [stepReady_act hh (by simp)] at h
      exact .of_fb (hostAct_fb (s := { s with host := rest }) (fun a v e => hwrite a v (e ▸ hh))
        (fun v e => hfill v (e ▸ hh)) h)

/-- Settles O14: a hardware reset keeps the framebuffer, and every other step accounts for each byte it changes. -/
theorem onlyTheFillWritesTheFramebuffer : Obligations.OnlyTheFillWritesTheFramebuffer := by
  intro s t h hhost
  change WritesSourced s t
  by_cases hr : s.resetIn = some 0
  · rw [step_reset hr] at h
    cases h
    exact .of_fb rfl
  cases ha : s.active with
  | true => exact stepActive_writesSourced (s := s.clearDone) (step_active hr ha ▸ h)
  | false => exact stepReady_writesSourced (s := s.clearDone) (hhost ha) (step_ready hr ha ▸ h)

end Sys2Proof.Machine
end

section
/-! PROOFS of the family 30_encoding.md. The two fields of a host word, and the operation port: a word is decoded by its `OP` field,
is executed where the block accepts, and leaves the host's script whole where it does not. -/

namespace Sys2Proof.Machine

/-! ## The fields of a host word (30_encoding.md R73) -/

theorem wordOP_lt (w : OpWord) : wordOP w < 8 := Nat.mod_lt _ (by decide)

/-- A host word is made of its two fields. -/
theorem hostWord_fields : ∀ w : OpWord, hostWord (wordF w) (wordOP w) = w.setWidth 8 := by decide

theorem hostWord_lt : ∀ (f : Bool), ∀ op < 8, (hostWord f op).toNat < 16 := by decide
theorem wordF_hostWord : ∀ (f : Bool), ∀ op < 8, wordF ((hostWord f op).setWidth 4) = f := by decide
theorem wordOP_hostWord : ∀ (f : Bool), ∀ op < 8, wordOP ((hostWord f op).setWidth 4) = op := by decide

/-- The mask 0b0111 leaves the `OP` field (R75). -/
theorem mask_eq_iff : ∀ (w : OpWord), ∀ op < 8, w &&& 0b0111 = BitVec.ofNat 4 op ↔ wordOP w = op := by decide

/-! ## The decoders -/

/-- The instruction of an `OP` and an `F` field (R74, R76). -/
def hostInstr (f : Bool) : Nat → Instr
  | 1 => .init f
  | 2 => .refresh f
  | 3 => .sleep f
  | 4 => .wake f
  | 5 => .reserved5 f
  | 6 => .reserved6 f
  | 7 => .reserved7 f
  | _ => .reserved0 f

theorem decodeHost_eq (w : OpWord) : decodeHost w = hostInstr (wordF w) (wordOP w) := rfl

theorem encode_hostInstr (f : Bool) {op : Nat} (h : op < 8) : encode (hostInstr f op) = hostWord f op := by
  interval_cases op <;> rfl

theorem decodeOn_hostWord (f : Bool) {op : Nat} (h : op < 8) : decodeOn .host4 (hostWord f op) = some (hostInstr f op) := by
  rw [decodeOn, if_pos (hostWord_lt f op h), decodeHost_eq, wordF_hostWord f op h, wordOP_hostWord f op h]

/-- Every instruction of the operation port comes from its two fields. -/
theorem exists_hostInstr {i : Instr} (h : i.format = .host4) : ∃ f, ∃ op < 8, i = hostInstr f op := by
  cases i with
  | reserved0 f => exact ⟨f, 0, by decide, rfl⟩
  | init f => exact ⟨f, 1, by decide, rfl⟩
  | refresh f => exact ⟨f, 2, by decide, rfl⟩
  | sleep f => exact ⟨f, 3, by decide, rfl⟩
  | wake f => exact ⟨f, 4, by decide, rfl⟩
  | reserved5 f => exact ⟨f, 5, by decide, rfl⟩
  | reserved6 f => exact ⟨f, 6, by decide, rfl⟩
  | reserved7 f => exact ⟨f, 7, by decide, rfl⟩
  | _ => cases h

theorem wellFormedOn_iff {i : Instr} {fmt : Format} : i.wellFormedOn fmt = true ↔ i.format = fmt := beq_iff_eq

/-- Settles O2: a host instruction by its two fields, a panel command by its byte. -/
theorem decodeOfEncodeIsTheInstruction : Obligations.DecodeOfEncodeIsTheInstruction := by
  intro i fmt h
  have hf := wellFormedOn_iff.1 h
  cases fmt with
  | host4 =>
    obtain ⟨f, op, hop, rfl⟩ := exists_hostInstr hf
    rw [encode_hostInstr f hop, decodeOn_hostWord f hop]
  | wire8 => rw [decodeOn, decodeWire_of_format hf]

theorem encode_mem_panelCodes {i : Instr} (h : i.format = .wire8) : encode i ∈ panelCodes := by
  cases i with
  | init _ | refresh _ | sleep _ | wake _ | reserved0 _ | reserved5 _ | reserved6 _ | reserved7 _ => cases h
  | _ => decide

/-- Each of the 13 command bytes (R78) is the byte of a command. -/
theorem exists_encode_of_mem_panelCodes {b : Byte} (h : b ∈ panelCodes) : ∃ i : Instr, i.format = .wire8 ∧ encode i = b := by
  have hall : panelCodes = [Instr.driverOutput, .dataEntry, .ramXWindow, .ramYWindow, .border, .updateCtrl1, .tempSensor,
    .ramXCounter, .ramYCounter, .writeRam, .updateCtrl2, .activate, .deepSleep].map encode := rfl
  obtain ⟨i, hi, rfl⟩ := List.mem_map.1 (hall ▸ h)
  exact ⟨i, by revert i; decide, rfl⟩

/-- The wire decoder knows the 13 bytes of the table and no other (R78, R80). -/
theorem decodeWire_ok_iff (b : Byte) : (∃ i, decodeWire b = .ok i) ↔ b ∈ panelCodes := by
  constructor
  · rintro ⟨i, h⟩
    obtain ⟨rfl, hf⟩ := decodeWire_encode h
    exact encode_mem_panelCodes hf
  · intro h
    obtain ⟨i, hf, rfl⟩ := exists_encode_of_mem_panelCodes h
    exact ⟨i, decodeWire_of_format hf⟩

theorem encode_decodeHost (w : OpWord) : encode (decodeHost w) = w.setWidth 8 := by
  rw [decodeHost_eq, encode_hostInstr _ (wordOP_lt w), hostWord_fields]

/-- Settles O3: the two directions of each decoder. -/
theorem decodersCoverExactlyTheTables : Obligations.DecodersCoverExactlyTheTables :=
  ⟨decodeWire_ok_iff, fun _ _ h => (decodeWire_encode h).1, encode_decodeHost⟩

/-- Settles O1, by running the decoders on the words. -/
theorem wordsDecodeAsTabulated : Obligations.WordsDecodeAsTabulated := by
  unfold Obligations.WordsDecodeAsTabulated
  decide

/-! ## The operation port -/

/-- However a script ends, the host's script is whole: neither exception nor a hardware reset touches it. -/
theorem runScript_host {as : List Action} (ht : TameScript as) {s t : State} (h : (runScript as s).toOutcome = .next t) :
    t.host = s.host := by
  obtain ⟨u, es, r, ⟨rfl, -⟩ | ⟨rfl, -⟩ | rfl⟩ := toOutcome_ends (P := fun _ => True) ht (fun _ _ _ => trivial)
    (fun a _ => by cases a <;> simp [Action.Respects]) trivial h
  · exact r.kept.host
  · exact r.kept.host
  · exact r.kept.host

theorem stepActive_host {s t : State} (h : stepActive s = .next t) : t.host = s.host := by
  cases hi : s.nextItem with
  | none => rw [stepActive_none hi] at h; cases h
  | some it =>
    have hk := nextItem_known hi
    have hs := stepItem_scripted it hk (s.land it).view
    rw [stepActive_item hi hk, hs.eq _ rfl] at h
    exact (runScript_host hs.tame h).trans (land_host it s)

/-- A step of an operation in progress takes nothing off the host's script. -/
theorem step_host_of_active {s t : State} (ha : s.active = true) (h : step s = .next t) : t.host = s.host := by
  by_cases hr : s.resetIn = some 0
  · rw [step_reset hr] at h
    cases h
    rfl
  · exact stepActive_host (s := s.clearDone) (step_active hr ha ▸ h)

theorem whenReady_active {s : State} (h : s.active = true) (accepted : State → Host.Outcome State Fault Refusal) :
    whenReady s accepted = .next s := if_pos h

theorem whenReady_idle {s : State} (h : s.active = false) (accepted : State → Host.Outcome State Fault Refusal) :
    whenReady s accepted = accepted s := if_neg (by simp [h])

theorem initOp_active {s : State} (h : s.active = true) (op : HostOp) : initOp op s = .next s := whenReady_active h _
theorem gated_active {s : State} (h : s.active = true) (begun : State → State) : gated begun s = .next s := whenReady_active h _
theorem reservedOp_active {s : State} (h : s.active = true) : reservedOp s = .next s := whenReady_active h _

/-- Every host instruction waits for the block to accept (log 17). -/
theorem exec_host_active {i : Instr} (hf : i.format = .host4) {s : State} (h : s.active = true) : exec i s = .next s := by
  cases i with
  | init _ => exact initOp_active h .init
  | wake _ => exact initOp_active h .wake
  | refresh f => exact gated_active h (beginRefresh f)
  | sleep _ => exact gated_active h beginSleep
  | reserved0 _ | reserved5 _ | reserved6 _ | reserved7 _ => exact reservedOp_active h
  | _ => cases hf

/-- Settles O6: the step runs a script, which keeps the host's; and every host word waits for the block to accept. -/
theorem noWordIsAcceptedWhileActive : Obligations.NoWordIsAcceptedWhileActive :=
  ⟨fun _ _ => step_host_of_active, fun _ _ h => exec_host_active (wellFormedOn_iff.1 h)⟩

/-- Settles O4: the step ends the `op_done` pulse and runs the host's next action, which is the word. -/
theorem stepExecutesTheAcceptedWord : Obligations.StepExecutesTheAcceptedWord :=
  fun s _ _ ha hr hh => (step_ready hr ha).trans (stepReady_op (s := s.clearDone) hh)

/-- INIT, SLEEP and WAKE are told by the `OP` field alone (R74). -/
theorem hostInstr_iff (f : Bool) {op : Nat} (h : op < 8) :
    ((∃ g, hostInstr f op = .init g) ↔ op = 1) ∧ ((∃ g, hostInstr f op = .sleep g) ↔ op = 3) ∧
      ((∃ g, hostInstr f op = .wake g) ↔ op = 4) := by
  interval_cases op <;> simp [hostInstr]

/-- Settles O7: the meanings do not read `F`, and the mask leaves the field the decoder reads. -/
theorem fBitIsIgnoredByInitSleepWake : Obligations.FBitIsIgnoredByInitSleepWake := by
  refine ⟨fun _ _ => ⟨rfl, rfl, rfl⟩, fun w => ?_⟩
  obtain ⟨hinit, hsleep, hwake⟩ := hostInstr_iff (wordF w) (wordOP_lt w)
  exact ⟨(mask_eq_iff w 1 (by decide)).trans hinit.symm, (mask_eq_iff w 3 (by decide)).trans hsleep.symm,
    (mask_eq_iff w 4 (by decide)).trans hwake.symm⟩

/-- A reserved word, accepted (R76). -/
theorem reservedOp_idle {s : State} (h : s.active = false) : reservedOp s = .next { s with ill := true, opDone := true } :=
  whenReady_idle h _

/-- Settles O8: each reserved `OP` decodes to a reserved instruction, and all four have the meaning of `reservedOp`. -/
theorem reservedWordsSetIllAndNothingElse : Obligations.ReservedWordsSetIllAndNothingElse := by
  intro f s ha
  have h := reservedOp_idle ha
  refine ⟨fun w hw => ?_, h, h, h, h⟩
  change wordOP w = 0 ∨ wordOP w = 5 ∨ wordOP w = 6 ∨ wordOP w = 7 at hw
  rw [decodeHost_eq]
  rcases hw with hw | hw | hw | hw <;> rw [hw] <;> exact h

/-! ## The pins under the default parameters (R82) -/

/-- Bit 7 leaves first. -/
theorem bits_default (b : Byte) : PinCfg.bits {} b =
    [b.getLsbD 7, b.getLsbD 6, b.getLsbD 5, b.getLsbD 4, b.getLsbD 3, b.getLsbD 2, b.getLsbD 1, b.getLsbD 0] := rfl

/-- Each bit is set up while the clock is low and held while it is high. -/
theorem pulse_default : PinCfg.pulse {} = fun bit => [(false, bit), (true, bit)] := rfl

theorem waveform_default (b : Byte) :
    PinCfg.waveform {} [b] = (PinCfg.bits {} b).flatMap fun bit => [(false, bit), (true, bit)] := by
  simp [PinCfg.waveform, pulse_default]

theorem pins_default {s : State} (h : s.cfg.pins = {}) :
    s.pinSelect = !s.sel ∧ (s.pinDataCommand = true ↔ s.mode = .data) ∧ s.pinReset = s.rstl := by
  refine ⟨?_, ?_, ?_⟩
  · simp [State.pinSelect, h]
  · cases hm : s.mode <;> simp [State.pinDataCommand, h, hm]
  · simp [State.pinReset, h]

/-- Settles O12: the levels by their parameters, the waveform by the order of the bits and the pulse of each. -/
theorem defaultPinRendering : Obligations.DefaultPinRendering :=
  ⟨fun _ => pins_default, by decide, rfl, fun b => by rw [waveform_default, bits_default]; rfl⟩

end Sys2Proof.Machine
end

section
/-! PROOFS of the family 40_command_channel.md. The primitives of the Command Channel where nothing disturbs them, what a transport
failure leaves of an operation whose events are all primitives, and the two contracts of the channel. -/

namespace Sys2Proof.Machine

/-! ## Undisturbed -/

/-- Appending events and writing what the Command Channel writes leave a state undisturbed. -/
theorem undisturbed_written {s : State} (h : s.Undisturbed) (es : List Event) (b : Bool) (m : Mode) (a : Nat) :
    State.Undisturbed { s with trace := es, sel := b, mode := m, ai := a } := h

theorem setSelect_undisturbed {s : State} (h : s.Undisturbed) (b : Bool) :
    setSelect b s = .ok { s with trace := s.trace ++ [.sel b], sel := b } := primitive_undisturbed h _ _

theorem setMode_undisturbed {s : State} (h : s.Undisturbed) (m : Mode) :
    setMode m s = .ok { s with trace := s.trace ++ [.mode m], mode := m } := primitive_undisturbed h _ _

theorem writeBytes_undisturbed {s : State} (h : s.Undisturbed) (bs : List Byte) :
    writeBytes bs s = .ok { s with trace := s.trace ++ [.wr bs] } := primitive_undisturbed h _ _

/-- `sendCommand` is its four primitives, one after the other (R91). -/
theorem sendCommand_undisturbed {s : State} (h : s.Undisturbed) (c : Byte) :
    sendCommand c s = .ok (s.sent (cmdEvents c) .cmd s.ai) := by
  have hw := undisturbed_written h
  rw [sendCommand, setSelect_undisturbed h, Res.bind_ok, setMode_undisturbed (hw _ _ _ _), Res.bind_ok,
    writeBytes_undisturbed (hw _ _ _ _), Res.bind_ok, setSelect_undisturbed (hw _ _ _ _)]
  simp [cmdEvents]

/-- `sendData` is its four primitives; `ai` has walked the sequence (R92, log 30). -/
theorem sendData_undisturbed {s : State} (h : s.Undisturbed) (bs : List Byte) :
    sendData bs s = .ok (s.sent (dataEvents bs) .data bs.length) := by
  have hw := undisturbed_written h
  rw [sendData, setSelect_undisturbed h, Res.bind_ok, setMode_undisturbed (hw _ _ _ _), Res.bind_ok,
    writeBytes_undisturbed (hw _ _ _ _), Res.bind_ok, setSelect_undisturbed (hw _ _ _ _)]
  simp [dataEvents]

/-! ## A transport failure (60_exceptions.md R172) -/

theorem transportError_taken (s : State) : (transportError s).TransportErrorTaken := ⟨rfl, rfl, rfl, rfl, rfl, rfl, rfl⟩

/-- Where every event is a primitive, the failure after `j` primitives leaves `j` events. -/
theorem cutAtPrimitive_eq_take {es : List Event} (h : ∀ e ∈ es, e.isPrimitive = true) (j : Nat) :
    cutAtPrimitive j es = es.take j := by
  induction es generalizing j with
  | nil => simp [cutAtPrimitive]
  | cons e es ih =>
    rw [List.forall_mem_cons] at h
    cases j with
    | zero => simp [cutAtPrimitive, h.1]
    | succ j => simp [cutAtPrimitive, h.1, ih h.2]

theorem primitiveCount_eq_length {es : List Event} (h : ∀ e ∈ es, e.isPrimitive = true) : primitiveCount es = es.length :=
  List.countP_eq_length.2 h

/-- A transport failure after `j` primitives of an operation whose events are all primitives: exactly its first `j` events
stand. -/
theorem Scripted.txCut {f : State → Res} {as : List Action} {P Q : State → Prop} (hf : Scripted f as P Q) (hu : Unpaused as)
    (hprim : ∀ e ∈ scriptEvents as, e.isPrimitive = true) {s : State} (hs : P s) {j : Nat} {rest : List Nat}
    (hr : s.resetIn = none) (he : s.cfg.hasTxErr = true) (htx : s.txFail = j :: rest) (hj : j < (scriptEvents as).length) :
    ∃ u, f s = .stop (transportError u) ∧ u.trace = s.trace ++ (scriptEvents as).take j ∧
      Traced as s u ((scriptEvents as).take j) ∧ Kept s u ∧ u.txFail = rest := by
  rw [hf.eq s hs, ← cutAtPrimitive_eq_take hprim]
  exact runScript_txCut hf.tame hu hr he htx (primitiveCount_eq_length hprim ▸ hj)

theorem cmdEvents_primitive (c : Byte) : ∀ e ∈ cmdEvents c, e.isPrimitive = true := by simp [cmdEvents, Event.isPrimitive]
theorem dataEvents_primitive (bs : List Byte) : ∀ e ∈ dataEvents bs, e.isPrimitive = true := by
  simp [dataEvents, Event.isPrimitive]

/-! ## The contracts -/

/-- Settles O15: undisturbed, the four primitives in turn; with a failure, their script cut at that primitive. -/
theorem sendCommandContract : Obligations.SendCommandContract := by
  intro c s
  refine ⟨fun h => sendCommand_undisturbed h c, fun j rest hr he htx hj => ?_⟩
  obtain ⟨u, hrun, htrace, -⟩ := (sendCommand_scripted (seen_stable s.view) c).txCut (cmdScript_unpaused c)
    (cmdEvents_primitive c) rfl hr he htx hj
  exact ⟨transportError u, hrun, htrace, transportError_taken u⟩

/-- Settles O16: undisturbed, the four primitives in turn; with a failure, their script cut at that primitive. -/
theorem sendDataContract : Obligations.SendDataContract := by
  intro bs s _
  refine ⟨fun h => ⟨bs.length, sendData_undisturbed h bs⟩, fun j rest hr he htx hj => ?_⟩
  obtain ⟨u, hrun, htrace, -⟩ := (sendData_scripted (seen_stable s.view) bs).txCut (dataScript_unpaused bs)
    (dataEvents_primitive bs) rfl hr he htx hj
  exact ⟨transportError u, hrun, htrace, transportError_taken u⟩

end Sys2Proof.Machine
end

section
/-! PROOFS of the family 41_panel_commands.md. First what a step can do to the trace, said once, and from it that every command
byte on the wire is one of the thirteen; then each command where nothing disturbs it: its frame, and for WRITE_RAM the data loop. -/

namespace Sys2Proof.Machine

/-! ## What a step does to the trace -/

/-- A script of the block: that of one step of a list, or that of a list of steps. -/
def BlockScript (as : List Action) : Prop := (∃ it v, as = stepScript it v) ∨ ∃ its v, as = itemsScript its v

/-- A piece of a transition from `s` to `t` leaves the trace alone, or runs a script of the block from a state with the trace
of `s`. -/
def TracesAScript (s t : State) : Prop :=
  t.trace = s.trace ∨ ∃ as b, BlockScript as ∧ TameScript as ∧ b.trace = s.trace ∧ (runScript as b).toOutcome = .next t

theorem stepActive_tracesAScript {s t : State} (h : stepActive s = .next t) : TracesAScript s t := by
  cases hi : s.nextItem with
  | none => rw [stepActive_none hi] at h; cases h
  | some it =>
    have hk := nextItem_known hi
    have hs := stepItem_scripted it hk (s.land it).view
    rw [stepActive_item hi hk, hs.eq _ rfl] at h
    exact .inr ⟨_, s.land it, .inl ⟨it, _, rfl⟩, hs.tame, rfl, h⟩

/-- An operation that has just begun runs its list. -/
theorem runRest_tracesAScript {s b t : State} (hb : b.trace = s.trace) (h : (runRest b).toOutcome = .next t) :
    TracesAScript s t := by
  obtain ⟨he, ht, -⟩ := runRest_script b
  exact .inr ⟨_, b, .inr ⟨_, _, rfl⟩, ht, hb, he ▸ h⟩

theorem initOp_tracesAScript {op : HostOp} {s t : State} (h : initOp op s = .next t) : TracesAScript s t := by
  rcases whenReady_cases h with rfl | h
  · exact .inl rfl
  split at h
  · exact runRest_tracesAScript (b := beginInit op s) rfl h
  · cases h; exact .inl rfl

theorem gated_tracesAScript {begun : State → State} {s t : State} (hb : (begun s).trace = s.trace)
    (h : gated begun s = .next t) : TracesAScript s t := by
  rcases whenReady_cases h with rfl | h
  · exact .inl rfl
  split at h
  · exact runRest_tracesAScript hb h
  · cases h; exact .inl rfl

theorem reservedOp_tracesAScript {s t : State} (h : reservedOp s = .next t) : TracesAScript s t := by
  rcases whenReady_cases h with rfl | h
  · exact .inl rfl
  · cases h; exact .inl rfl

theorem exec_host_tracesAScript {i : Instr} (hf : i.format = .host4) {s t : State} (h : exec i s = .next t) :
    TracesAScript s t := by
  cases i with
  | init _ | wake _ => exact initOp_tracesAScript h
  | refresh f => exact gated_tracesAScript (begun := beginRefresh f) rfl h
  | sleep _ => exact gated_tracesAScript (begun := beginSleep) rfl h
  | reserved0 _ | reserved5 _ | reserved6 _ | reserved7 _ => exact reservedOp_tracesAScript h
  | _ => cases hf

/-- A host action makes no event of the block (20_memory.md R57, log 2). -/
theorem hostAct_trace {act : HostAction} {s t : State} (h : (hostAct act s).toOutcome = .next t) : t.trace = s.trace := by
  cases act with
  | fbWrite a v =>
    simp only [hostAct, hostWrite] at h
    split at h <;> cases h
    rfl
  | during ws =>
    rcases hostDuring_cases ws s with ⟨-, e⟩ | ⟨w, -, -, e⟩ <;> rw [hostAct, e] at h <;> cases h
    rfl
  | op _ | fbFill v | reset => cases h; rfl

theorem stepReady_tracesAScript {s t : State} (h : stepReady s = .next t) : TracesAScript s t := by
  cases hh : s.host with
  | nil => rw [stepReady_idle hh] at h; cases h; exact .inl rfl
  | cons act rest =>
    cases act with
    | op w => rw [stepReady_op hh] at h; exact exec_host_tracesAScript (s := { s with host := rest }) (decodeHost_format w) h
    | _ => rw [stepReady_act hh (by simp)] at h; exact .inl (hostAct_trace (s := { s with host := rest }) h)

/-- What a step can do to the trace. -/
theorem step_tracesAScript {s t : State} (h : step s = .next t) : TracesAScript s t := by
  by_cases hr : s.resetIn = some 0
  · rw [step_reset hr] at h
    cases h
    exact .inl rfl
  cases ha : s.active with
  | true => exact stepActive_tracesAScript (s := s.clearDone) (step_active hr ha ▸ h)
  | false => exact stepReady_tracesAScript (s := s.clearDone) (step_ready hr ha ▸ h)

/-! ## The command bytes of a list of events -/

theorem streamFrom_append (m : Mode) (es fs : List Event) :
    streamFrom m (es ++ fs) = streamFrom m es ++ streamFrom (modeAfter m es) fs := by
  induction es generalizing m with
  | nil => rfl
  | cons e es ih => cases e <;> simp [streamFrom, modeAfter, ih]

theorem mem_commandBytes {c : Byte} {es : List Event} : c ∈ commandBytes es ↔ (Mode.cmd, c) ∈ stream es := by
  simp [commandBytes]

/-- Whatever mode the select is in before the events `es`, the command bytes they send are among the thirteen. -/
def SendsPanelCodes (es : List Event) : Prop := ∀ m c, (Mode.cmd, c) ∈ streamFrom m es → c ∈ panelCodes

theorem sendsPanelCodes_nil : SendsPanelCodes [] := fun _ _ h => by cases h

theorem SendsPanelCodes.append {es fs : List Event} (h : SendsPanelCodes es) (h' : SendsPanelCodes fs) :
    SendsPanelCodes (es ++ fs) := fun m c hc => by
  rw [streamFrom_append, List.mem_append] at hc
  exact hc.elim (h m c) (h' _ c)

theorem SendsPanelCodes.of_prefix {es fs : List Event} (h : SendsPanelCodes fs) (hp : es <+: fs) : SendsPanelCodes es := by
  obtain ⟨gs, rfl⟩ := hp
  exact fun m c hc => h m c (by rw [streamFrom_append]; exact List.mem_append_left _ hc)

theorem SendsPanelCodes.flatMap {α : Type} {f : α → List Event} (h : ∀ a, SendsPanelCodes (f a)) (l : List α) :
    SendsPanelCodes (l.flatMap f) := by
  induction l with
  | nil => exact sendsPanelCodes_nil
  | cons a l ih => exact (h a).append ih

/-- Events that write no bytes send no command. -/
theorem sendsPanelCodes_of_no_wr {es : List Event} (h : ∀ e ∈ es, ∀ bs, e ≠ .wr bs) : SendsPanelCodes es := by
  intro m c hc
  induction es generalizing m with
  | nil => cases hc
  | cons e es ih =>
    rw [List.forall_mem_cons] at h
    cases e with
    | wr bs => exact absurd rfl (h.1 bs)
    | _ => exact ih h.2 _ hc

/-! ## What the scripts of the block send -/

theorem cmdEvents_sendsPanelCodes {c : Byte} (h : c ∈ panelCodes) : SendsPanelCodes (cmdEvents c) := by
  intro m d hd
  simp only [cmdEvents, streamFrom, List.map_cons, List.map_nil, List.append_nil, List.mem_singleton, Prod.mk.injEq] at hd
  exact hd.2 ▸ h

/-- Bytes sent in data mode are no command. -/
theorem dataEvents_sendsPanelCodes (bs : List Byte) : SendsPanelCodes (dataEvents bs) := by
  intro m c hc
  simp [dataEvents, streamFrom] at hc

theorem frameEvents_sendsPanelCodes {c : Byte} (h : c ∈ panelCodes) (args : List Byte) :
    SendsPanelCodes (frameEvents c args) := by
  refine (cmdEvents_sendsPanelCodes h).append ?_
  split
  · exact sendsPanelCodes_nil
  · exact dataEvents_sendsPanelCodes args

theorem dataLoopEvents_sendsPanelCodes (c : Cfg) (byteAt : Nat → Byte) : SendsPanelCodes (dataLoopEvents c byteAt) := by
  unfold dataLoopEvents
  split
  · exact .flatMap (fun b => dataEvents_sendsPanelCodes [b]) _
  · split
    · exact sendsPanelCodes_nil
    · exact dataEvents_sendsPanelCodes _

/-- Each panel command sends its own code and then data (R100 to R113). -/
theorem panelEvents_sendsPanelCodes (i : Instr) (s : State) : SendsPanelCodes (panelEvents i s) := by
  cases i with
  | writeRam => exact (cmdEvents_sendsPanelCodes (by decide)).append (dataLoopEvents_sendsPanelCodes _ _)
  | activate => exact cmdEvents_sendsPanelCodes (by decide)
  | init _ | refresh _ | sleep _ | wake _ | reserved0 _ | reserved5 _ | reserved6 _ | reserved7 _ => exact sendsPanelCodes_nil
  | _ => exact frameEvents_sendsPanelCodes (by decide) _

theorem turnScript_sendsPanelCodes (t : Nat) (b : Bool) : SendsPanelCodes (scriptEvents (turnScript t b)) :=
  sendsPanelCodes_of_no_wr (by cases b <;> simp [turnScript])

theorem pollScript_sendsPanelCodes (t : Nat) (bs : List Bool) : SendsPanelCodes (scriptEvents (pollScript t bs)) := by
  induction bs with
  | nil => exact sendsPanelCodes_nil
  | cons b bs ih =>
    rw [pollScript, scriptEvents_append]
    refine (turnScript_sendsPanelCodes t b).append ?_
    split
    · exact ih
    · exact sendsPanelCodes_nil

theorem itemScript_sendsPanelCodes (it : Item) (v : State) : SendsPanelCodes (scriptEvents (itemScript it v)) := by
  cases it with
  | cmd c =>
    simp only [itemScript]
    split
    · rw [scriptEvents_cons, panelScript_events]
      exact panelEvents_sendsPanelCodes _ v
    · exact sendsPanelCodes_nil
  | poll => exact pollScript_sendsPanelCodes _ _
  | _ => exact sendsPanelCodes_of_no_wr (by simp [itemScript])

/-- At the head of a transition only the polling loop has a script of its own. -/
theorem stepScript_of_ne {it : Item} (h : it ≠ .poll) (v : State) : stepScript it v = itemScript it v := by
  cases it with
  | poll => exact absurd rfl h
  | _ => rfl

theorem stepScript_sendsPanelCodes (it : Item) (v : State) : SendsPanelCodes (scriptEvents (stepScript it v)) := by
  by_cases h : it = .poll
  · subst h
    exact turnScript_sendsPanelCodes _ _
  · rw [stepScript_of_ne h]
    exact itemScript_sendsPanelCodes it v

theorem itemsScript_sendsPanelCodes (its : List Item) (v : State) : SendsPanelCodes (scriptEvents (itemsScript its v)) := by
  induction its generalizing v with
  | nil => exact sendsPanelCodes_nil
  | cons it its ih =>
    have hp : scriptEvents (pauseScript it v) = [] := by unfold pauseScript; split <;> rfl
    have he : scriptEvents (itemsScript (it :: its) v) =
        scriptEvents (itemScript it (v.land it)) ++ scriptEvents (itemsScript its (itemView it (v.land it))) := by
      simp [itemsScript, hp]
    rw [he]
    exact (itemScript_sendsPanelCodes it _).append (ih _)

theorem BlockScript.sendsPanelCodes {as : List Action} (h : BlockScript as) : SendsPanelCodes (scriptEvents as) := by
  rcases h with ⟨it, v, rfl⟩ | ⟨its, v, rfl⟩
  · exact stepScript_sendsPanelCodes it v
  · exact itemsScript_sendsPanelCodes its v

/-- However a script ends, the trace is extended by a first part of its events: neither exception nor a hardware reset makes
an event. -/
theorem runScript_trace {as : List Action} (ht : TameScript as) {s t : State} (h : (runScript as s).toOutcome = .next t) :
    ∃ es, es <+: scriptEvents as ∧ t.trace = s.trace ++ es := by
  obtain ⟨u, es, r, ⟨rfl, -⟩ | ⟨rfl, -⟩ | rfl⟩ := toOutcome_ends (P := fun _ => True) ht (fun _ _ _ => trivial)
    (fun a _ => by cases a <;> simp [Action.Respects]) trivial h
  · exact ⟨es, r.events, r.trace⟩
  · exact ⟨es, r.events, r.trace⟩
  · exact ⟨es, r.events, r.trace⟩

/-- Events that send only panel codes may follow a trace with only panel codes. -/
theorem onlyPanelCommands_append {s t : State} {es : List Event} (h : s.OnlyPanelCommands) (ht : t.trace = s.trace ++ es)
    (hes : SendsPanelCodes es) : t.OnlyPanelCommands := by
  intro c hc
  rw [mem_commandBytes, ht, stream, streamFrom_append, List.mem_append] at hc
  exact hc.elim (fun hc => h c (mem_commandBytes.2 hc)) (hes _ c)

/-- Settles O47: a step leaves the trace alone, or appends a first part of the events of a script that sends only panel codes,
whatever mode the trace before it has left. -/
theorem stepSendsOnlyPanelCommands : Obligations.StepSendsOnlyPanelCommands := by
  refine ⟨by decide, fun s t hs h => ?_⟩
  rcases step_tracesAScript h with he | ⟨as, b, has, htame, hb, hrun⟩
  · exact onlyPanelCommands_append hs (by simp [he]) sendsPanelCodes_nil
  · obtain ⟨es, hes, ht⟩ := runScript_trace htame hrun
    exact onlyPanelCommands_append hs (hb ▸ ht) (has.sendsPanelCodes.of_prefix hes)

/-! ## The frames, undisturbed -/

/-- Undisturbed, a frame is its events, and of the block's state only `sel`, `mode` and `ai` are written (R100). -/
theorem frame_undisturbed {s : State} (h : s.Undisturbed) (c : Byte) (args : List Byte) :
    frame c args s = .ok (s.sent (frameEvents c args) (frameMode args) (if args = [] then s.ai else args.length)) := by
  rw [frame, sendCommand_undisturbed h, Res.bind_ok]
  cases args with
  | nil => simp [sendArgs, frameEvents]
  | cons b bs =>
    rw [sendArgs, sendData_undisturbed (undisturbed_written h _ _ _ _)]
    simp [frameEvents]

/-- The outcome of an undisturbed frame. -/
theorem frame_outcome {s : State} (h : s.Undisturbed) (c : Byte) (args : List Byte) :
    ∃ a, (frame c args s).toOutcome = .next (s.sent (frameEvents c args) (frameMode args) a) :=
  ⟨_, by rw [frame_undisturbed h]; rfl⟩

/-- Settles O17: the meaning of each of the nine commands is one frame. -/
theorem configurationCommandsEmitTheirFrames : Obligations.ConfigurationCommandsEmitTheirFrames := by
  intro s h
  exact ⟨frame_outcome h _ _, frame_outcome h _ _, frame_outcome h _ _, frame_outcome h _ _, frame_outcome h _ _,
    frame_outcome h _ _, frame_outcome h _ _, frame_outcome h _ _, frame_outcome h _ _⟩

/-- Settles O19: the meaning of each of the three commands is one frame; without an argument `ai` is not moved. -/
theorem updateAndSleepCommandsEmitTheirFrames : Obligations.UpdateAndSleepCommandsEmitTheirFrames := by
  intro s h
  refine ⟨frame_outcome h 0x22 [updateCode s.curFull], ?_, frame_outcome h 0x10 [sleepArg]⟩
  change (frame 0x20 [] s).toOutcome = _
  rw [frame_undisturbed h]
  simp [frameEvents, Res.toOutcome]

/-! ## The data loop, undisturbed (42_controller_operations.md R130) -/

/-- From `s` to `t` only the mapper's working registers may have moved. -/
def MapperMoved (s t : State) : Prop := ∃ k h v, t = { s with k := k, hpc := h, vbc := v }

theorem MapperMoved.refl (s : State) : MapperMoved s s := ⟨s.k, s.hpc, s.vbc, rfl⟩

theorem MapperMoved.trans {s t u : State} (h : MapperMoved s t) (h' : MapperMoved t u) : MapperMoved s u := by
  obtain ⟨_, _, _, rfl⟩ := h
  obtain ⟨k, p, v, rfl⟩ := h'
  exact ⟨k, p, v, rfl⟩

theorem mapStart_moved (s : State) : MapperMoved s s.mapStart := by
  unfold State.mapStart
  split
  · exact ⟨0, s.hpc, s.vbc, rfl⟩
  · exact ⟨0, 0, 0, rfl⟩

theorem mapAdvance_moved (s : State) : MapperMoved s s.mapAdvance := by
  unfold State.mapAdvance
  split
  · exact ⟨s.k + 1, s.hpc, s.vbc, rfl⟩
  · split
    · exact ⟨s.k + 1, s.hpc + 1, 0, rfl⟩
    · exact ⟨s.k + 1, s.hpc, s.vbc + 1, rfl⟩

theorem mapAdvance_iterate_moved (n : Nat) (s : State) : MapperMoved s (State.mapAdvance^[n] s) := by
  induction n generalizing s with
  | zero => exact .refl s
  | succ n ih => rw [Function.iterate_succ_apply]; exact (mapAdvance_moved s).trans (ih _)

theorem MapperMoved.undisturbed {s t : State} (h : MapperMoved s t) (hs : s.Undisturbed) : t.Undisturbed := by
  obtain ⟨_, _, _, rfl⟩ := h
  exact hs

theorem MapperMoved.readByte {s t : State} (h : MapperMoved s t) : t.readByte = s.readByte := by
  obtain ⟨_, _, _, rfl⟩ := h
  rfl

/-- From `s` to `t` the data events `es` have been sent: beside the trace and the pins only `ai` and the mapper's working
registers may have moved. -/
def SentMapped (s t : State) (es : List Event) : Prop :=
  ∃ a k h v, t = { s.sent es .data a with k := k, hpc := h, vbc := v }

theorem sentMapped_data (s : State) (bs : List Byte) :
    SentMapped s (s.sent (dataEvents bs) .data bs.length) (dataEvents bs) := ⟨_, s.k, s.hpc, s.vbc, rfl⟩

/-- What has been sent before is the first part of what has been sent. -/
theorem SentMapped.after {s t : State} {es fs : List Event} {m : Mode} {a : Nat} (h : SentMapped (s.sent es m a) t fs) :
    SentMapped s t (es ++ fs) := by
  obtain ⟨a, k, p, v, rfl⟩ := h
  exact ⟨a, k, p, v, by simp [List.append_assoc]⟩

theorem SentMapped.after_moved {s t u : State} {es : List Event} (h : SentMapped t u es) (hm : MapperMoved s t) :
    SentMapped s u es := by
  obtain ⟨_, _, _, rfl⟩ := hm
  obtain ⟨a, k, p, v, rfl⟩ := h
  exact ⟨a, k, p, v, rfl⟩

theorem SentMapped.moved {s t u : State} {es : List Event} (h : SentMapped s t es) (hm : MapperMoved t u) :
    SentMapped s u es := by
  obtain ⟨a, _, _, _, rfl⟩ := h
  obtain ⟨k, p, v, rfl⟩ := hm
  exact ⟨a, k, p, v, rfl⟩

/-- One byte of the loop with one `sendData` a byte. -/
theorem perByteLoop_succ {s : State} (h : s.Undisturbed) {k : Nat} (hp : s.AtPosition k) (hk : k < s.cfg.numBytes) (n : Nat) :
    perByteLoop (n + 1) s =
      perByteLoop n (s.sent (dataEvents [outByte s.cfg s.readByte k]) .data 1).mapAdvance := by
  rw [perByteLoop, mapByte_atPosition hp hk]
  simp only
  rw [sendData_undisturbed h, Res.bind_ok]
  rfl

/-- The loop with one `sendData` a byte, by its bytes; at least one byte is sent, so the pins are those of `sendData`. -/
theorem perByteLoop_undisturbed (n : Nat) {s : State} (h : s.Undisturbed) {k : Nat} (hp : s.AtPosition k)
    (hk : k + (n + 1) ≤ s.cfg.numBytes) : ∃ t, perByteLoop (n + 1) s = .ok t ∧
      SentMapped s t ((outRange s.cfg s.readByte k (n + 1)).flatMap fun b => dataEvents [b]) := by
  induction n generalizing s k with
  | zero =>
    rw [perByteLoop_succ h hp (by omega)]
    exact ⟨_, rfl, (sentMapped_data s [outByte s.cfg s.readByte k]).moved (mapAdvance_moved _)⟩
  | succ n ih =>
    set u := s.sent (dataEvents [outByte s.cfg s.readByte k]) .data 1
    have hm := mapAdvance_moved u
    have hc : u.mapAdvance.cfg = s.cfg := mapAdvance_cfg u
    have hr : u.mapAdvance.readByte = s.readByte := hm.readByte
    obtain ⟨t, hrun, hsent⟩ := ih (hm.undisturbed h) (mapAdvance_atPosition (s := u) hp) (by rw [hc]; omega)
    rw [hc, hr] at hsent
    rw [perByteLoop_succ h hp (by omega), outRange_succ, List.flatMap_cons]
    exact ⟨t, hrun, (hsent.after_moved hm).after⟩

theorem sendArgs_of_ne_nil {bs : List Byte} (h : bs ≠ []) : sendArgs bs = sendData bs := by
  cases bs with
  | nil => exact absurd rfl h
  | cons _ _ => rfl

/-- All bytes of the framebuffer in one `sendData`. -/
theorem burstLoop_undisturbed {s : State} (h : s.Undisturbed) (hp : s.AtPosition 0) (hn : 0 < s.cfg.numBytes) :
    ∃ t, burstLoop s.cfg.numBytes s = .ok t ∧ SentMapped s t (dataEvents (outBytes s.cfg s.readByte)) := by
  have hm := mapAdvance_iterate_moved s.cfg.numBytes s
  have hg := gather_atPosition s.view s.cfg.numBytes 0 s (by simp [State.view]) ⟨rfl, hp⟩
  have hne : outBytes s.cfg s.readByte ≠ [] := by simpa [outBytes] using hn.ne'
  have hbytes : outRange s.view.cfg s.view.readByte 0 s.cfg.numBytes = outBytes s.cfg s.readByte := outRange_all _ _
  rw [hbytes] at hg
  rw [burstLoop, hg]
  simp only
  rw [sendArgs_of_ne_nil hne, sendData_undisturbed (hm.undisturbed h)]
  exact ⟨_, rfl, (sentMapped_data _ _).after_moved hm⟩

/-- With a valid geometry the data loop sends the mapped framebuffer in either framing. -/
theorem dataLoop_undisturbed {s : State} (h : s.Undisturbed) (hv : s.cfg.valid = true) :
    ∃ t, dataLoop s = .ok t ∧ SentMapped s t (dataLoopEvents s.cfg s.readByte) := by
  have hn := valid_numBytes_pos hv
  have hm := mapStart_moved s
  have hp := mapStart_atPosition s
  have hc := mapStart_cfg s
  have hr := hm.readByte
  unfold dataLoop dataLoopEvents
  cases s.cfg.ramFraming with
  | perByte =>
    obtain ⟨n, hN⟩ : ∃ n, s.cfg.numBytes = n + 1 := ⟨s.cfg.numBytes - 1, by omega⟩
    obtain ⟨t, hrun, hsent⟩ := perByteLoop_undisturbed n (hm.undisturbed h) hp (by rw [hc]; omega)
    rw [hc, hr, ← hN, outRange_all] at hsent
    exact ⟨t, hN ▸ hrun, hsent.after_moved hm⟩
  | burst =>
    obtain ⟨t, hrun, hsent⟩ := burstLoop_undisturbed (hm.undisturbed h) hp (by rw [hc]; exact hn)
    rw [hc, hr] at hsent
    rw [hc] at hrun
    simp only [if_neg hn.ne']
    exact ⟨t, hrun, hsent.after_moved hm⟩

/-- Settles O18: the command byte, and then the data loop; an address no late write has touched reads as the framebuffer's. -/
theorem writeRamSendsTheMappedFramebuffer : Obligations.WriteRamSendsTheMappedFramebuffer := by
  intro s h hv
  refine ⟨?_, fun a => Memory.over_of_none⟩
  obtain ⟨t, hrun, hsent⟩ := dataLoop_undisturbed (s := s.sent (cmdEvents 0x24) .cmd s.ai) h hv
  obtain ⟨a, k, p, v, ht⟩ := hsent.after
  have hexec : exec .writeRam s = .next t := by
    change ((sendCommand 0x24 s).bind dataLoop).toOutcome = _
    rw [sendCommand_undisturbed h, Res.bind_ok, hrun]
    rfl
  exact ⟨a, k, p, v, hexec.trans (congrArg _ ht)⟩

end Sys2Proof.Machine
end

section
/-! PROOFS of the family 42_controller_operations.md, first part: an operation in one transition against its steps
(log 6). The rest of a step list is reached by steps that each begin with the operation in progress, and what such a step keeps,
the whole keeps. -/

namespace Sys2Proof.Machine

/-! ## Steps of one operation -/

/-- `t` is reached from `s` by steps that each begin with the operation in progress. -/
inductive Steps : State → State → Prop where
  | refl (s : State) : Steps s s
  | head {s t u : State} (ha : s.active = true) (h : step s = .next t) (ht : Steps t u) : Steps s u

theorem Steps.single {s t : State} (ha : s.active = true) (h : step s = .next t) : Steps s t := .head ha h (.refl t)

theorem Steps.trans {s t u : State} (h : Steps s t) (h' : Steps t u) : Steps s u := by
  induction h with
  | refl s => exact h'
  | head ha hs _ ih => exact .head ha hs (ih h')

theorem Steps.run {s t : State} (h : Steps s t) : ∃ n, Host.Core.run core n s = .next t := by
  induction h with
  | refl s => exact ⟨0, rfl⟩
  | head _ hs _ ih =>
    obtain ⟨n, hn⟩ := ih
    exact ⟨n + 1, (run_next hs n).trans hn⟩

/-- No step begins at rest. -/
theorem Steps.eq_of_inactive {s t : State} (h : Steps s t) (ha : s.active = false) : t = s := by
  cases h with
  | refl => rfl
  | head ha' _ _ => simp [ha] at ha'

/-- What every step of an operation keeps, the steps of an operation keep. -/
theorem Steps.keeps {P : State → Prop} (hP : ∀ s t, s.active = true → P s → step s = .next t → P t) {s t : State}
    (h : Steps s t) (hs : P s) : P t := by
  induction h with
  | refl s => exact hs
  | head ha hst _ ih => exact ih (hP _ _ ha hs hst)

theorem clearDone_eq_self {s : State} (h : s.opDone = false) : s.clearDone = s := by
  cases s
  simp only at h
  subst h
  rfl

/-- A step of an operation in progress runs the next item, after the late writes of its position. -/
theorem step_item {s : State} {it : Item} (ha : s.active = true) (hd : s.opDone = false) (hr : s.resetIn ≠ some 0)
    (hn : s.nextItem = some it) : step s = (stepItem it (s.land it)).toOutcome := by
  rw [step_active hr ha, clearDone_eq_self hd, stepActive_item hn (nextItem_known hn)]

/-- What is known of the end of a script's operation, where it runs to its end. -/
theorem Scripted.post_of_ok {f : State → Res} {as : List Action} {P Q : State → Prop} (h : Scripted f as P Q) {s t : State}
    (hs : P s) (e : f s = .ok t) : Q t := h.post s t hs (h.eq s hs ▸ e)

/-! ## The polling loop -/

/-- An operation stands at its polling loop, and the late writes of that position have landed. -/
structure Polling (s : State) : Prop where
  active : s.active = true
  opDone : s.opDone = false
  next : s.nextItem = some .poll
  landed : ∀ w ∈ s.late, w.seq ≠ s.seq

/-- Being in the polling loop is seen in the view, and taking an answer does not end it. -/
theorem Polling.of_seen {s t : State} (h : Polling s) {b : Bool} {bs : List Bool} (hb : s.busyIn = b :: bs)
    (hv : Seen s.view.takeBusy t) : Polling t ∧ t.busyIn = bs := by
  have hs : s.view.takeBusy = { s.view with busyIn := bs } := by simp [State.takeBusy, State.view, hb]
  have hv : t.view = { s.view with busyIn := bs } := hs ▸ hv
  have hseq : t.seq = s.seq := (congrArg State.seq hv :)
  have hlate : t.late = s.late := (congrArg State.late hv :)
  exact ⟨⟨(congrArg State.active hv).trans h.active, (congrArg State.opDone hv).trans h.opDone,
    (congrArg State.nextItem hv).trans h.next, fun w hw => hseq ▸ h.landed w (hlate ▸ hw)⟩, congrArg State.busyIn hv⟩

/-- One turn of the loop, whose answer is scheduled: the loop goes on after true, and is left after false. -/
theorem pollOnce_cases {s : State} (h : Polling s) {b : Bool} {bs : List Bool} (hb : s.busyIn = b :: bs) :
    (∃ u, pollOnce s = .ok u ∧ (b = true → Polling u ∧ u.busyIn = bs)) ∨ ∃ u, pollOnce s = .stop u := by
  have hs := pollOnce_scripted s.view
  have ha : s.view.busyAnswer = b := by simp [State.busyAnswer, State.view, hb]
  obtain ⟨u, hu⟩ := runScript_next hs.tame s
  rw [← hs.eq s rfl] at hu
  cases hp : pollOnce s with
  | ok u =>
    refine .inl ⟨u, rfl, fun hbt => ?_⟩
    have hv : Seen (if s.view.busyAnswer then s.view.takeBusy else s.view.takeBusy.advance) u := hs.post_of_ok rfl hp
    rw [ha, if_pos hbt] at hv
    exact h.of_seen hb hv
  | stop u => exact .inr ⟨u, rfl⟩
  | fault r => rw [hp] at hu; cases hu
  | refused r => rw [hp] at hu; cases hu

/-- In the loop a step is one turn; a hardware reset is taken before the turn in either. -/
theorem step_polling {s : State} (h : Polling s) : step s = (pollOnce s).toOutcome := by
  by_cases hr : s.resetIn = some 0
  · have : pollOnce s = .stop (hardReset s) := by simp [pollOnce, readBusy, primitive, hr]
    rw [step_reset hr, this]
    rfl
  · have hland : s.land .poll = s := landStep_none h.landed false
    rw [step_item h.active h.opDone hr h.next, hland]
    rfl

/-- The loop over scheduled answers, of which there is one: a step takes the first turn, from `s` or after the landing in `u`. -/
theorem pollScheduled_steps {bs : List Bool} {b : Bool} {s u t : State} (ha : s.active = true)
    (hs : step s = (pollOnce u).toOutcome) (hu : Polling u) (hb : u.busyIn = b :: bs)
    (h : (pollScheduled (b :: bs) u).toOutcome = .next t) : Steps s t := by
  induction bs generalizing b s u with
  | nil =>
    rcases pollOnce_cases hu hb with ⟨x, hx, -⟩ | ⟨x, hx⟩ <;> rw [hx] at hs <;> rw [pollScheduled, hx] at h
    · cases b <;> cases h <;> exact .single ha hs
    · cases h; exact .single ha hs
  | cons b' bs ih =>
    rcases pollOnce_cases hu hb with ⟨x, hx, hgo⟩ | ⟨x, hx⟩ <;> rw [hx] at hs <;> rw [pollScheduled, hx] at h
    · cases b with
      | false => cases h; exact .single ha hs
      | true =>
        obtain ⟨hp, hxb⟩ := hgo rfl
        exact .head ha hs (ih hp.active (step_polling hp) hp hxb h)
    · cases h; exact .single ha hs

/-! ## The list of an operation -/

/-- The step does not end its operation. -/
def Item.Continues : Item → Prop
  | .initDone => False
  | .refreshDone => False
  | .sleepDone => False
  | _ => True

/-- The step list of an operation before its last step. -/
def body (c : Cfg) : HostOp → List Item
  | .init => initFront c ++ [.poll]
  | .wake => initFront c ++ [.poll]
  | .refresh => refreshFront c ++ [.poll]
  | .sleep => [.cmd 0x10, .wait .tSleep]

/-- The last step of an operation. -/
def HostOp.lastItem : HostOp → Item
  | .init => .initDone
  | .wake => .initDone
  | .refresh => .refreshDone
  | .sleep => .sleepDone

theorem program_eq_body (c : Cfg) (op : HostOp) : program c op = body c op ++ [op.lastItem] := by
  cases op with
  | init | wake => simp [program, init_program, body, HostOp.lastItem]
  | refresh => simp [refresh_program, body, HostOp.lastItem]
  | sleep => rfl

theorem body_continues (c : Cfg) (op : HostOp) : ∀ it ∈ body c op, it.Continues := by
  have hfront : ∀ it ∈ refreshFront c, it.Continues := by
    cases hc : c.counterReset <;> simp [refreshFront, counterItems, hc, Item.Continues]
  have hinit : ∀ it ∈ initFront c, it.Continues := fun it h => by
    rw [initFront, List.mem_append] at h
    rcases h with h | h
    · revert it; simp [resetPulse, configure, Item.Continues]
    · exact hfront it h
  cases op with
  | init | wake => exact fun it h => (List.mem_append.1 h).elim (hinit it) fun h => by simp_all [Item.Continues]
  | refresh => exact fun it h => (List.mem_append.1 h).elim (hfront it) fun h => by simp_all [Item.Continues]
  | sleep => simp [body, Item.Continues]

/-- A step that is not the last of its list does not end the operation. -/
theorem continues_of_drop {c : Cfg} {op : HostOp} {n : Nat} {it x : Item} {rest : List Item}
    (h : (program c op).drop n = it :: x :: rest) : it.Continues := by
  refine body_continues c op it ?_
  have hsplit : body c op ++ [op.lastItem] = (program c op).take n ++ it :: x :: rest := by
    rw [← h, List.take_append_drop, program_eq_body]
  have hbody := congrArg List.dropLast hsplit
  rw [List.dropLast_concat, List.dropLast_append_of_ne_nil (by simp)] at hbody
  simp [hbody]

/-- Such a step leaves the operation in progress, at the next position. -/
theorem itemView_continues {it : Item} (h : it.Continues) (v : State) :
    (itemView it v).active = v.active ∧ (itemView it v).opDone = v.opDone ∧ (itemView it v).program = v.program ∧
      (itemView it v).seq = v.seq + 1 := by
  cases it with
  | initDone | refreshDone | sleepDone => exact h.elim
  | _ => exact ⟨rfl, rfl, rfl, rfl⟩

/-- One item of a list is what some steps do. -/
theorem runItem_steps {it : Item} {s t : State} (ha : s.active = true) (hd : s.opDone = false) (hr : s.resetIn ≠ some 0)
    (hn : s.nextItem = some it) (hw : s.awaits it = false) (h : (runItem it (s.land it)).toOutcome = .next t) : Steps s t := by
  have hstep := step_item ha hd hr hn
  cases it with
  | poll =>
    have hpoll : Polling (s.land .poll) := ⟨ha, hd, hn, landStep_landed false s⟩
    cases hb : s.busyIn with
    | nil => simp [State.awaits, hb] at hw
    | cons b bs =>
      have hb' : (s.land .poll).busyIn = b :: bs := hb
      rw [runItem, hb'] at h
      exact pollScheduled_steps ha hstep hpoll hb' h
  | _ => exact .single ha (hstep.trans h)

/-- The rest of a list is what some steps do. -/
theorem runItems_steps {its : List Item} {s t : State} (ha : s.active = true) (hd : s.opDone = false)
    (hits : s.program.drop s.seq = its) (h : (runItems its s).toOutcome = .next t) : Steps s t := by
  induction its generalizing s with
  | nil => cases h; exact .refl _
  | cons it rest ih =>
    have hn : s.nextItem = some it := by
      rw [State.nextItem, ← Nat.add_zero s.seq, ← List.getElem?_drop, hits]; rfl
    rw [runItems] at h
    split at h
    · rename_i hr; cases h; exact .single ha (step_reset hr)
    rename_i hr
    split at h
    · cases h; exact .refl _
    rename_i hw
    have hone : ∀ u, (runItem it (s.land it)).toOutcome = .next u → Steps s u := fun u =>
      runItem_steps ha hd hr hn (by simpa using hw)
    cases hi : runItem it (s.land it) with
    | ok u =>
      rw [hi] at h hone
      refine (hone u rfl).trans ?_
      cases rest with
      | nil => cases h; exact .refl _
      | cons x rest =>
        have hv : u.view = itemView it (s.land it).view :=
          (runItem_scripted it (nextItem_known hn) (s.land it).view).post_of_ok rfl hi
        obtain ⟨h1, h2, h3, h4⟩ := itemView_continues (continues_of_drop hits) (s.land it).view
        have hprog : u.program = s.program := (congrArg State.program hv).trans h3
        have hseq : u.seq = s.seq + 1 := (congrArg State.seq hv).trans h4
        refine ih ((congrArg State.active hv).trans (h1.trans ha)) ((congrArg State.opDone hv).trans (h2.trans hd)) ?_ h
        rw [hprog, hseq, ← List.tail_drop, hits]
        rfl
    | stop u => rw [hi] at h hone; cases h; exact hone _ rfl
    | fault r => rw [hi] at h; cases h
    | refused r => rw [hi] at h; cases h

/-- The rest of the operation in progress has an outcome, and some steps lead to it. -/
theorem runRest_steps {s : State} (ha : s.active = true) (hd : s.opDone = false) :
    ∃ t, (runRest s).toOutcome = .next t ∧ Steps s t := by
  obtain ⟨he, ht, -⟩ := runRest_script s
  obtain ⟨t, h⟩ := runScript_next ht s
  rw [← he] at h
  exact ⟨t, h, runItems_steps ha hd rfl h⟩

/-- Settles O51: the steps are counted. -/
theorem oneTransitionIsManySteps : Obligations.OneTransitionIsManySteps := by
  intro s ha hd
  obtain ⟨t, h, hs⟩ := runRest_steps ha hd
  obtain ⟨n, hn⟩ := hs.run
  exact ⟨n, hn.trans h.symm⟩

/-! ## Acceptance -/

theorem initOp_accepted {s : State} (ha : s.active = false) (hv : s.cfg.valid = true) (op : HostOp) :
    initOp op s = (runRest (beginInit op s)).toOutcome := by rw [initOp, whenReady_idle ha, if_pos hv]

theorem initOp_rejected {s : State} (ha : s.active = false) (hv : s.cfg.valid ≠ true) (op : HostOp) :
    initOp op s = .next (geometryError s) := by rw [initOp, whenReady_idle ha, if_neg hv]

theorem gated_accepted {s : State} (ha : s.active = false) (hi : s.initialized = true) (begun : State → State) :
    gated begun s = (runRest (begun s)).toOutcome := by rw [gated, whenReady_idle ha, if_pos hi]

theorem gated_skipped {s : State} (ha : s.active = false) (hi : s.initialized = false) (begun : State → State) :
    gated begun s = .next s.setSkip.pulseDone := by rw [gated, whenReady_idle ha, if_neg (by simp [hi])]

/-- Settles O52: an accepted word runs the rest of its list from the start, by O51. -/
theorem operationsRunStepByStep : Obligations.OperationsRunStepByStep := by
  intro f s ha
  have run {o : Host.Outcome State Fault Refusal} {b : State} (he : o = (runRest b).toOutcome) (hb : b.active = true)
      (hd : b.opDone = false) : ∃ n, o = Host.Core.run core n b :=
    (oneTransitionIsManySteps b hb hd).imp fun _ hn => he.trans hn.symm
  refine ⟨fun hv => ?_, fun hv => ?_, fun hi => ?_, fun hi => ?_⟩
  · exact run (initOp_accepted ha hv .init) rfl rfl
  · exact run (initOp_accepted ha hv .wake) rfl rfl
  · exact run (gated_accepted ha hi (beginRefresh f)) rfl rfl
  · exact run (gated_accepted ha hi beginSleep) rfl rfl

/-- Settles O28: the gate is closed. -/
theorem preInitRefreshAndSleepAreSkipped : Obligations.PreInitRefreshAndSleepAreSkipped :=
  fun f _ ha hi => ⟨gated_skipped ha hi (beginRefresh f), gated_skipped ha hi beginSleep⟩

end Sys2Proof.Machine
end

section
/-! PROOFS of the family 42_controller_operations.md, second part: the block's invariant. A step of an operation in
progress is taken apart once (`stepActive_ends`); the invariant is kept item by item, and by a whole operation because its steps
keep it. -/

namespace Sys2Proof.Machine

/-! ## The form of the memory -/

/-- The events write the framebuffer only at addresses below `n` (20_memory.md R56). -/
def WritesInside (n : Nat) (es : List Event) : Prop := ∀ a v, Event.fbWr a v ∈ es → a < n

/-- A list of cells in canonical form, with addresses below `n`. -/
def Memory.Ok (n : Nat) (m : Memory) : Prop := m.wf ∧ ∀ c ∈ m, c.1 < n

theorem Memory.Ok.write {n : Nat} {m : Memory} (h : m.Ok n) {a : Nat} (ha : a < n) (v : Byte) : (m.write a v).Ok n :=
  ⟨Memory.write_wf h.1 a v, fun c hc => (Memory.mem_write hc).elim (fun e => e ▸ ha) (h.2 c)⟩

theorem Memory.Ok.memAfter {n : Nat} {m : Memory} (h : m.Ok n) (raced : Memory) (races : Nat) {es : List Event}
    (hw : WritesInside n es) : (memAfter raced races m es).Ok n := by
  induction es generalizing m with
  | nil => exact h
  | cons e es ih =>
    have hes : WritesInside n es := fun a v he => hw a v (List.mem_cons_of_mem _ he)
    cases e with
    | fbWr a v => exact ih (h.write (hw a v List.mem_cons_self) _) hes
    | _ => exact ih h hes

/-- `t` has the configuration of `s`, and its memory is in form if that of `s` is. -/
def Formed (s t : State) : Prop := t.cfg = s.cfg ∧ (s.MemoryOk → t.MemoryOk)

theorem Formed.follows {s t u : State} (h : Formed s t) (hc : u.cfg = t.cfg) {es : List Event} (hm : MemFollows t u es)
    (hw : WritesInside s.cfg.numBytes es) : Formed s u := by
  refine ⟨hc.trans h.1, fun hs => ?_⟩
  obtain ⟨hfb, hraced, hlate⟩ := h.2 hs
  rw [h.1] at hfb hraced hlate
  rw [State.MemoryOk, hc, h.1, hm.fb, hm.raced, hm.late]
  exact ⟨Memory.Ok.memAfter hfb t.raced t.races hw, hraced, hlate⟩

/-- Every action keeps the form, if its event writes inside the framebuffer. -/
theorem Action.Tame.respects_formed {act : Action} (ht : act.Tame) {s : State}
    (hw : WritesInside s.cfg.numBytes act.events) : act.Respects (Formed s) := by
  cases act with
  | primitive ev upd => exact fun t tx ri h => h.follows (ht.2.1.cfg _) (ht.2.2 _).of_event.mem hw
  | tick ev upd => exact fun t tx ri h => h.follows (ht.2.1.cfg _) (ht.2.2 _).of_event.mem hw
  | silent upd => exact fun t h => h.follows (ht.1.cfg t) (ht.2 t).mem hw
  | land f => exact fun t h => ⟨h.1, fun hs => (landStep_form f t).1 (h.2 hs)⟩
  | barrier | pause => trivial

/-- The block writes only addresses that exist. -/
theorem stepScript_writesInside (it : Item) (v : State) : WritesInside v.cfg.numBytes (scriptEvents (stepScript it v)) := by
  intro a x he
  by_cases hit : it = .fill
  · subst hit
    simp only [stepScript, itemScript, scriptEvents_cons, silent_events, List.nil_append, fillScript_events, List.mem_map,
      List.mem_range'_1, Nat.zero_le, true_and, Nat.zero_add, Event.fbWr.injEq] at he
    obtain ⟨b, hb, rfl, -⟩ := he
    exact hb
  · have hfill : (it == .fill) = true := (stepScript_writesLight it v _ he a x rfl).2
    exact absurd (eq_of_beq hfill) hit

/-! ## A step of an operation, by its ends -/

/-- The item `it` of an operation has run to its end: the late writes of its position have landed, the view is what the item
makes of it, and the select has followed its events. -/
structure RanItem (it : Item) (s t : State) : Prop where
  view : t.view = stepView it (s.land it).view
  sel : t.sel = selAfter s.sel (scriptEvents (stepScript it (s.land it).view))

/-- What a step of an operation in progress can do: its next item runs to its end, or a hardware reset or a TransportError is
taken, and the memory stays in form. -/
theorem stepActive_ends {s t : State} (h : stepActive s = .next t) :
    ∃ it u, s.nextItem = some it ∧ Formed s u ∧ ((t = u ∧ RanItem it s u) ∨ t = hardReset u ∨ t = transportError u) := by
  cases hn : s.nextItem with
  | none => rw [stepActive_none hn] at h; cases h
  | some it =>
    have hk := nextItem_known hn
    have hs := stepItem_scripted it hk (s.land it).view
    rw [stepActive_item hn hk, hs.eq _ rfl] at h
    have hland : Formed s (s.land it) := ⟨rfl, (landStep_form (it == .fill) s).1⟩
    have hr : ∀ act ∈ stepScript it (s.land it).view, act.Respects (Formed s) := fun act ha =>
      (hs.tame act ha).respects_formed fun a v he =>
        stepScript_writesInside it (s.land it).view a v (List.mem_flatMap.2 ⟨act, ha, he⟩)
    obtain ⟨u, es, r, hend⟩ := toOutcome_ends hs.tame (fun _ _ hx => hx) hr hland h
    refine ⟨it, u, rfl, r.prop, ?_⟩
    rcases hend with ⟨rfl, ⟨hrun, rfl⟩ | ⟨-, hp⟩⟩ | ⟨rfl, -⟩ | rfl
    · obtain ⟨hsel, -, -⟩ := r.follows.pins
      exact .inl ⟨rfl, hs.post _ _ rfl hrun, hsel⟩
    · exact absurd rfl (stepScript_unpaused it _ _ hp)
    · exact .inr (.inl rfl)
    · exact .inr (.inr rfl)

/-- The items that write no register of the sequencer but `seq`. -/
def Item.Plain : Item → Prop
  | .cmd _ => True
  | .wait _ => True
  | .poll => True
  | _ => False

theorem takeBusy_eq (s : State) : ∃ bs n, s.takeBusy = { s with busyIn := bs, busyDraws := n } := by
  unfold State.takeBusy
  split
  · exact ⟨_, s.busyDraws, rfl⟩
  · exact ⟨s.busyIn, _, rfl⟩

/-- What a plain item makes of what the block sees: `seq` moves on, or stays where a poll has read true (R131). -/
theorem stepView_plain {it : Item} (h : it.Plain) (v : State) :
    ∃ bs n q, stepView it v = { v with busyIn := bs, busyDraws := n, seq := q } ∧ (q = v.seq ∨ q = v.seq + 1) := by
  cases it with
  | cmd c => exact ⟨v.busyIn, v.busyDraws, v.seq + 1, rfl, .inr rfl⟩
  | wait d => exact ⟨v.busyIn, v.busyDraws, v.seq + 1, rfl, .inr rfl⟩
  | poll =>
    obtain ⟨bs, n, e⟩ := takeBusy_eq v
    cases hb : v.busyAnswer with
    | true => exact ⟨bs, n, v.seq, by simp [stepView, hb, e], .inl rfl⟩
    | false => exact ⟨bs, n, v.seq + 1, by simp [stepView, hb, e, State.advance], .inr rfl⟩
  | _ => exact h.elim

/-! ## The select after an item (40_command_channel.md R91, R92: every frame ends deselected) -/

theorem selAfter_frameEvents (b : Bool) (c : Byte) (args : List Byte) : selAfter b (frameEvents c args) = false := by
  unfold frameEvents
  split <;> rfl

theorem selAfter_dataLoopEvents (c : Cfg) (f : Nat → Byte) : selAfter false (dataLoopEvents c f) = false := by
  have hflat (bs : List Byte) : selAfter false (bs.flatMap fun b => dataEvents [b]) = false := by
    induction bs with
    | nil => rfl
    | cons b bs ih => rw [List.flatMap_cons, selAfter_append]; exact ih
  unfold dataLoopEvents
  split
  · exact hflat _
  · split <;> rfl

theorem selAfter_panelEvents {i : Instr} (h : i.format = .wire8) (b : Bool) (v : State) : selAfter b (panelEvents i v) = false := by
  cases i with
  | writeRam => exact (selAfter_append b _ _).trans (selAfter_dataLoopEvents v.cfg v.readByte)
  | activate => rfl
  | init | refresh | sleep | wake | reserved0 | reserved5 | reserved6 | reserved7 => cases h
  | _ => exact selAfter_frameEvents b _ _

theorem selAfter_command {c : Byte} (h : (Item.cmd c).Known) (b : Bool) (v : State) :
    selAfter b (scriptEvents (stepScript (.cmd c) v)) = false := by
  obtain ⟨i, hi⟩ := h
  simp only [stepScript, itemScript, hi, scriptEvents_cons, silent_events, List.nil_append, panelScript_events]
  exact selAfter_panelEvents (decodeWire_encode hi).2 b v

/-- A plain item leaves a deselected panel deselected. -/
theorem selAfter_plain {it : Item} (h : it.Plain) (hk : it.Known) (v : State) :
    selAfter false (scriptEvents (stepScript it v)) = false := by
  cases it with
  | cmd c => exact selAfter_command hk false v
  | wait d => rfl
  | poll => cases hb : v.busyAnswer <;> simp [stepScript, turnScript, hb, selAfter]
  | _ => exact h.elim

/-! ## What an item keeps of the invariant -/

/-- The registers of the invariant that a plain item keeps. -/
structure PlainKept (s t : State) : Prop where
  cfg : t.cfg = s.cfg
  ctl : t.ctl = s.ctl
  active : t.active = s.active
  curOp : t.curOp = s.curOp
  curFull : t.curFull = s.curFull
  ret : t.ret = s.ret
  initialized : t.initialized = s.initialized
  poweredOn : t.poweredOn = s.poweredOn
  rstl : t.rstl = s.rstl
  filled : ∀ n, s.fb.filled n → t.fb.filled n
  seq : t.seq = s.seq ∨ t.seq = s.seq + 1
  sel : s.sel = false → t.sel = false

theorem RanItem.plain {it : Item} {s t : State} (r : RanItem it s t) (h : it.Plain) (hk : it.Known) : PlainKept s t := by
  obtain ⟨bs, n, q, hv, hq⟩ := stepView_plain h (s.land it).view
  have e := r.view.trans hv
  have hfb : t.fb = (s.land it).fb := (congrArg State.fb e :)
  have hseq : t.seq = q := (congrArg State.seq e :)
  exact {
    cfg := (congrArg State.cfg e :)
    ctl := (congrArg State.ctl e :)
    active := (congrArg State.active e :)
    curOp := (congrArg State.curOp e :)
    curFull := (congrArg State.curFull e :)
    ret := (congrArg State.ret e :)
    initialized := (congrArg State.initialized e :)
    poweredOn := (congrArg State.poweredOn e :)
    rstl := (congrArg State.rstl e :)
    filled := fun n hn => hfb ▸ (landStep_form (it == .fill) s).2 n hn
    seq := hseq ▸ hq
    sel := fun hs => by rw [r.sel, hs, selAfter_plain h hk] }

/-- The registers of the invariant that every item keeps but the last of a list. -/
structure ContinuesKept (s t : State) : Prop where
  cfg : t.cfg = s.cfg
  active : t.active = s.active
  curOp : t.curOp = s.curOp
  initialized : t.initialized = s.initialized
  poweredOn : t.poweredOn = s.poweredOn
  filled : ∀ n, s.fb.filled n → t.fb.filled n

theorem PlainKept.continues {s t : State} (h : PlainKept s t) : ContinuesKept s t :=
  ⟨h.cfg, h.active, h.curOp, h.initialized, h.poweredOn, h.filled⟩

/-- The fill leaves every address written (R127). -/
theorem filled_fillFrom {m : Memory} {n : Nat} (f : Nat → Byte) : (m.fillFrom 0 f n).filled n := fun a ha => by
  rw [Memory.written_fillFrom, if_pos ⟨Nat.zero_le a, by simpa using ha⟩]
  rfl

theorem filled_fillFrom_of_filled {m : Memory} {n : Nat} (h : m.filled n) (a k : Nat) (f : Nat → Byte) :
    (m.fillFrom a f k).filled n := fun b hb => by
  rw [Memory.written_fillFrom]
  split
  · rfl
  · exact h b hb

theorem RanItem.continues {it : Item} {s t : State} (r : RanItem it s t) (h : it.Continues) (hk : it.Known) :
    ContinuesKept s t := by
  have e := r.view
  have hland := (landStep_form (it == .fill) s).2
  cases it with
  | initDone | refreshDone | sleepDone => exact h.elim
  | cmd | wait | poll => exact (r.plain trivial hk).continues
  | setReset | startConfigure | startSeed =>
    have hfb : t.fb = (s.land _).fb := (congrArg State.fb e :)
    exact ⟨(congrArg State.cfg e :), (congrArg State.active e :), (congrArg State.curOp e :), (congrArg State.initialized e :),
      (congrArg State.poweredOn e :), fun n hn => hfb ▸ hland n hn⟩
  | fill =>
    have hfb : t.fb = (s.land .fill).fb.fillFrom 0 _ s.cfg.numBytes := (congrArg State.fb e :)
    exact ⟨(congrArg State.cfg e :), (congrArg State.active e :), (congrArg State.curOp e :), (congrArg State.initialized e :),
      (congrArg State.poweredOn e :), fun n hn => hfb ▸ filled_fillFrom_of_filled (hland n hn) _ _ _⟩

/-! ## Positions in the step lists -/

/-- Where an item of `InitSequence()` stands (R123, R125 to R127). -/
inductive InitItem (c : Cfg) : Nat → Item → Prop where
  | pulse {n : Nat} {high : Bool} (hn : n ≤ 4) (hh : n = 4 → high = true) : InitItem c n (.setReset high)
  | hold {n : Nat} {d : Delay} (hn : n ≤ 5) (h4 : n ≠ 4) : InitItem c n (.wait d)
  | configure : InitItem c 6 .startConfigure
  | command {n : Nat} {b : Byte} (h7 : 7 ≤ n) (h15 : n ≤ 15) : InitItem c n (.cmd b)
  | fill : InitItem c 16 .fill
  | seed : InitItem c 17 .startSeed
  | refresh {n : Nat} {it : Item} (h18 : 18 ≤ n) (hn : n + 1 < (initSequence c).length) (hp : it.Plain) : InitItem c n it
  | done {n : Nat} (hn : n + 1 = (initSequence c).length) : InitItem c n .initDone

theorem refreshSeq_plain (c : Cfg) : ∀ it ∈ refreshSeq c, it.Plain := by
  cases hc : c.counterReset <;> simp [refreshSeq, counterItems, hc, Item.Plain]

/-- An item of a list with a last item is one before it, or that. -/
theorem getElem?_concat_cases {xs : List Item} {d it : Item} {n : Nat} (h : (xs ++ [d])[n]? = some it) :
    (n < xs.length ∧ it ∈ xs) ∨ (n = xs.length ∧ it = d) := by
  rcases Nat.lt_or_ge n xs.length with hn | hn
  · rw [List.getElem?_append_left hn] at h
    exact .inl ⟨hn, List.mem_of_getElem? h⟩
  · rw [List.getElem?_append_right hn, List.getElem?_singleton] at h
    split at h
    · exact .inr ⟨by omega, (Option.some.inj h).symm⟩
    · cases h

/-- The items before the seed refresh, read off the list. -/
theorem initItem_of_lt {c : Cfg} {n : Nat} {it : Item} (hn : n < 18)
    (h : (resetPulse ++ [.startConfigure] ++ configure ++ [.fill, .startSeed])[n]? = some it) : InitItem c n it := by
  interval_cases n <;> obtain rfl := Option.some.inj h
  exacts [.pulse (by decide) (by decide), .hold (by decide) (by decide), .pulse (by decide) (by decide),
    .hold (by decide) (by decide), .pulse (by decide) (by decide), .hold (by decide) (by decide), .configure,
    .command (by decide) (by decide), .command (by decide) (by decide), .command (by decide) (by decide),
    .command (by decide) (by decide), .command (by decide) (by decide), .command (by decide) (by decide),
    .command (by decide) (by decide), .command (by decide) (by decide), .command (by decide) (by decide), .fill, .seed]

theorem initItem_of_getElem? {c : Cfg} {n : Nat} {it : Item} (h : (initSequence c)[n]? = some it) : InitItem c n it := by
  have hsplit : initSequence c = (resetPulse ++ [.startConfigure] ++ configure ++ [.fill, .startSeed]) ++
      (refreshSeq c ++ [.initDone]) := by simp [initSequence]
  have hlen : (initSequence c).length = 18 + ((refreshSeq c).length + 1) := by simp [hsplit, resetPulse, configure]; omega
  rw [hsplit] at h
  rcases Nat.lt_or_ge n 18 with hn | hn
  · rw [List.getElem?_append_left (by simpa [resetPulse, configure] using hn)] at h
    exact initItem_of_lt hn h
  · rw [List.getElem?_append_right (by simpa [resetPulse, configure] using hn)] at h
    have h : (refreshSeq c ++ [.initDone])[n - 18]? = some it := h
    rcases getElem?_concat_cases h with ⟨hlt, hmem⟩ | ⟨he, rfl⟩
    · exact .refresh hn (by omega) (refreshSeq_plain c it hmem)
    · exact .done (by omega)

/-! ## Positions in `InitSequence()` -/

theorem initPosition_resetting {s : State} (h : s.InitPosition) (hn : s.seq ≤ 6) :
    s.ctl = .resetting ∧ (5 ≤ s.seq → s.rstl = true) := by
  rcases h.2 with ⟨-, hc, hr⟩ | ⟨h7, -⟩ | ⟨h18, -⟩
  · exact ⟨hc, hr⟩
  · omega
  · omega

theorem initPosition_configuring {s : State} (h : s.InitPosition) (h7 : 7 ≤ s.seq) (h17 : s.seq ≤ 17) :
    s.ctl = .configuring ∧ s.rstl = true ∧ (8 ≤ s.seq → s.sel = false) ∧ (s.seq = 17 → s.fb.filled s.cfg.numBytes) := by
  rcases h.2 with ⟨h6, -⟩ | ⟨-, -, h⟩ | ⟨h18, -⟩
  · omega
  · exact h
  · omega

theorem initPosition_busy {s : State} (h : s.InitPosition) (h18 : 18 ≤ s.seq) :
    s.ctl = .busy ∧ s.ret = .idle ∧ s.rstl = true ∧ s.sel = false ∧ s.curFull = true ∧ s.fb.filled s.cfg.numBytes := by
  rcases h.2 with ⟨h6, -⟩ | ⟨-, h17, -⟩ | ⟨-, -, h⟩
  · omega
  · omega
  · exact h

theorem initSequence_length (c : Cfg) : 18 < (initSequence c).length := by
  simp [initSequence, resetPulse, configure, refreshSeq]

/-- The fill's events leave the select alone. -/
theorem selAfter_fill (b : Bool) (v : State) : selAfter b (scriptEvents (stepScript .fill v)) = b := by
  have hmap (as : List Nat) : selAfter b (as.map fun a => Event.fbWr a 0xFF) = b := by
    induction as with
    | nil => rfl
    | cons a as ih => exact ih
  simp only [stepScript, itemScript, scriptEvents_cons, silent_events, List.nil_append, fillScript_events]
  exact hmap _

/-- Every item of `InitSequence()` but the last leads from its position to a position. -/
theorem initPosition_step {it : Item} {s t : State} (h : s.InitPosition) (hn : s.nextItem = some it)
    (hi : InitItem s.cfg s.seq it) (hc : it.Continues) (r : RanItem it s t) : t.InitPosition := by
  have hk := nextItem_known hn
  have e := r.view
  have kept := r.continues hc hk
  refine ⟨kept.cfg ▸ h.1, ?_⟩
  rw [kept.cfg]
  generalize hseq : s.seq = n at hi
  cases hi with
  | pulse h4 hh =>
    obtain ⟨hctl, -⟩ := initPosition_resetting h (by omega)
    have hts : t.seq = s.seq + 1 := (congrArg State.seq e :)
    have htr : t.rstl = _ := (congrArg State.rstl e :)
    exact .inl ⟨by omega, (congrArg State.ctl e :).trans hctl, fun h5 => htr.trans (hh (by omega))⟩
  | hold h5 h4 =>
    have p := r.plain trivial hk
    have hts := p.seq
    obtain ⟨hctl, hr⟩ := initPosition_resetting h (by omega)
    exact .inl ⟨by omega, p.ctl.trans hctl, fun h5 => p.rstl.trans (hr (by omega))⟩
  | configure =>
    obtain ⟨-, hr⟩ := initPosition_resetting h (by omega)
    have hts : t.seq = s.seq + 1 := (congrArg State.seq e :)
    exact .inr (.inl ⟨by omega, by omega, (congrArg State.ctl e :), (congrArg State.rstl e :).trans (hr (by omega)),
      fun h8 => by omega, fun h17 => by omega⟩)
  | command h7 h15 =>
    have p := r.plain trivial hk
    have hts := p.seq
    obtain ⟨hctl, hr, -, -⟩ := initPosition_configuring h (by omega) (by omega)
    exact .inr (.inl ⟨by omega, by omega, p.ctl.trans hctl, p.rstl.trans hr, fun _ => r.sel.trans (selAfter_command hk _ _),
      fun h17 => by omega⟩)
  | fill =>
    obtain ⟨hctl, hr, hsel, -⟩ := initPosition_configuring h (by omega) (by omega)
    have hts : t.seq = s.seq + 1 := (congrArg State.seq e :)
    have hfb : t.fb = (s.land .fill).fb.fillFrom 0 _ s.cfg.numBytes := (congrArg State.fb e :)
    exact .inr (.inl ⟨by omega, by omega, (congrArg State.ctl e :).trans hctl, (congrArg State.rstl e :).trans hr,
      fun _ => (r.sel.trans (selAfter_fill _ _)).trans (hsel (by omega)), fun _ => hfb ▸ filled_fillFrom _⟩)
  | seed =>
    obtain ⟨-, hr, hsel, hf⟩ := initPosition_configuring h (by omega) (by omega)
    have hts : t.seq = s.seq + 1 := (congrArg State.seq e :)
    have hlen := initSequence_length s.cfg
    exact .inr (.inr ⟨by omega, by omega, (congrArg State.ctl e :), (congrArg State.ret e :),
      (congrArg State.rstl e :).trans hr, r.sel.trans (hsel (by omega)), (congrArg State.curFull e :), kept.filled _ (hf hseq)⟩)
  | refresh h18 hlt hp =>
    have p := r.plain hp hk
    have hts := p.seq
    obtain ⟨hctl, hret, hr, hsel, hfull, hf⟩ := initPosition_busy h (by omega)
    exact .inr (.inr ⟨by omega, by omega, p.ctl.trans hctl, p.ret.trans hret, p.rstl.trans hr, p.sel hsel,
      p.curFull.trans hfull, p.filled _ hf⟩)
  | done => exact hc.elim

/-! ## The invariant of an operation in progress -/

/-- What holds at the position of an operation in progress. -/
def State.Position (s : State) : HostOp → Prop
  | .init => s.InitPosition
  | .wake => s.InitPosition
  | .refresh => s.RefreshPosition
  | .sleep => s.SleepPosition

/-- The clauses of the block's invariant, by name. -/
structure State.Sound (s : State) : Prop where
  memory : s.MemoryOk
  filled : s.initialized = true → s.cfg.valid = true ∧ s.fb.filled s.cfg.numBytes
  powered : s.poweredOn = true → s.initialized = true
  rest : s.active = false → s.AtRest
  progress : s.active = true → s.Position s.curOp

theorem inv_iff_sound (s : State) : s.Inv ↔ s.Sound :=
  ⟨fun ⟨h1, h2, h3, h4, h5⟩ => ⟨h1, h2, h3, h4, h5⟩, fun ⟨h1, h2, h3, h4, h5⟩ => ⟨h1, h2, h3, h4, h5⟩⟩

/-- The next item of an operation in progress is one before its last, or that. -/
theorem nextItem_cases {s : State} {it : Item} (h : s.nextItem = some it) :
    (s.seq + 1 < s.program.length ∧ it ∈ body s.cfg s.curOp) ∨ it = s.curOp.lastItem := by
  rw [State.nextItem, State.program, program_eq_body] at h
  rcases getElem?_concat_cases h with ⟨hlt, hmem⟩ | ⟨-, he⟩
  · refine .inl ⟨?_, hmem⟩
    rw [State.program, program_eq_body, List.length_append, List.length_singleton]
    omega
  · exact .inr he

theorem body_refresh_plain (c : Cfg) : ∀ it ∈ body c .refresh, it.Plain := fun it h =>
  refreshSeq_plain c it (by rw [body, refreshFront] at h; rw [refreshSeq]; simpa using h)

theorem body_sleep_plain (c : Cfg) : ∀ it ∈ body c .sleep, it.Plain := by simp [body, Item.Plain]

/-- An item before the last leads from the position of its operation to a position of it. -/
theorem position_step {it : Item} {s t : State} (h : s.Position s.curOp) (hn : s.nextItem = some it)
    (hlt : s.seq + 1 < s.program.length) (hmem : it ∈ body s.cfg s.curOp) (r : RanItem it s t) : t.Position s.curOp := by
  have hk := nextItem_known hn
  have hc := body_continues s.cfg s.curOp it hmem
  generalize hop : s.curOp = op at h hmem
  have hprog : s.program = program s.cfg op := congrArg (program s.cfg) hop
  rw [hprog] at hlt
  have hn' : (program s.cfg op)[s.seq]? = some it := hprog ▸ hn
  cases op with
  | init | wake => exact initPosition_step h hn (initItem_of_getElem? hn') hc r
  | refresh =>
    obtain ⟨hctl, hi, -, hr, hsel, hret⟩ := h
    have p := r.plain (body_refresh_plain s.cfg it hmem) hk
    have hts := p.seq
    refine ⟨p.ctl.trans hctl, p.initialized.trans hi, ?_, p.rstl.trans hr, p.sel hsel, ?_⟩
    · rw [p.cfg]; omega
    · rw [p.ret, p.poweredOn]; exact hret
  | sleep =>
    obtain ⟨hctl, hi, -, hr, hsel⟩ := h
    have p := r.plain (body_sleep_plain s.cfg it hmem) hk
    have hts := p.seq
    refine ⟨p.ctl.trans hctl, p.initialized.trans hi, ?_, p.rstl.trans hr, p.sel hsel⟩
    rw [p.cfg]; omega

/-! ## The ends of an operation -/

/-- A state at rest with the memory in form, whose framebuffer is filled where it is initialized. -/
theorem sound_of_rest {t : State} (hm : t.MemoryOk)
    (hf : t.initialized = true → t.cfg.valid = true ∧ t.fb.filled t.cfg.numBytes) (ha : t.active = false) (hr : t.AtRest)
    (hp : t.poweredOn = true → t.initialized = true) : t.Sound :=
  ⟨hm, hf, hp, fun _ => hr, fun h => absurd (ha.symm.trans h) (by decide)⟩

theorem sound_hardReset {u : State} (h : u.MemoryOk) : (hardReset u).Sound :=
  sound_of_rest ⟨h.1, ⟨List.Pairwise.nil, fun _ hc => by cases hc⟩, h.2.2⟩ (fun h => by cases h) rfl (.inl ⟨rfl, rfl⟩)
    fun h => by cases h

theorem sound_transportError {u : State} (h : u.MemoryOk) : (transportError u).Sound :=
  sound_of_rest h (fun h => by cases h) rfl (.inl ⟨rfl, rfl⟩) fun h => by cases h

/-- In the last step of INIT and WAKE the seed refresh has run. -/
theorem initPosition_last {s : State} (h : s.InitPosition) (hi : InitItem s.cfg s.seq .initDone) :
    s.cfg.valid = true ∧ s.rstl = true ∧ s.sel = false ∧ s.fb.filled s.cfg.numBytes := by
  have h18 : 18 ≤ s.seq := by
    have hlen := initSequence_length s.cfg
    generalize s.seq = n at hi
    cases hi with
    | refresh h18 _ _ => exact h18
    | done hn => omega
  obtain ⟨-, -, hr, hsel, -, hf⟩ := initPosition_busy h h18
  exact ⟨h.1, hr, hsel, hf⟩

/-- The last item of an operation leads to rest (R124, R128, R133). -/
theorem sound_last {s t : State} (h : s.Sound) (ha : s.active = true) (hn : s.nextItem = some s.curOp.lastItem)
    (hm : t.MemoryOk) (r : RanItem s.curOp.lastItem s t) : t.Sound := by
  have hpos := h.progress ha
  have hprog : s.program = program s.cfg s.curOp := rfl
  generalize hop : s.curOp = op at *
  have hn' : (program s.cfg op)[s.seq]? = some op.lastItem := hprog ▸ hn
  have e := r.view
  have hland := (landStep_form false s).2
  cases op with
  | init | wake =>
    obtain ⟨hv, hr, hsel, hf⟩ := initPosition_last hpos (initItem_of_getElem? hn')
    have hcfg : t.cfg = s.cfg := (congrArg State.cfg e :)
    have hfb : t.fb = (s.land .initDone).fb := (congrArg State.fb e :)
    have hrest : t.AtRest := .inr (.inl ⟨(congrArg State.ctl e :), (congrArg State.initialized e :),
      (congrArg State.poweredOn e :), (congrArg State.rstl e :).trans hr, r.sel.trans hsel⟩)
    refine sound_of_rest hm (fun _ => ?_) (congrArg State.active e :) hrest fun _ => (congrArg State.initialized e :)
    rw [hcfg, hfb]
    exact ⟨hv, hland _ hf⟩
  | refresh =>
    obtain ⟨-, hi, -, hr, hsel, hret⟩ := hpos
    have hcfg : t.cfg = s.cfg := (congrArg State.cfg e :)
    have hfb : t.fb = (s.land .refreshDone).fb := (congrArg State.fb e :)
    have hctl : t.ctl = s.ret := (congrArg State.ctl e :)
    have hinit : t.initialized = true := (congrArg State.initialized e :).trans hi
    have hpow : t.poweredOn = s.poweredOn := (congrArg State.poweredOn e :)
    have hrstl : t.rstl = true := (congrArg State.rstl e :).trans hr
    have hrest : t.AtRest := by
      rcases hret with ⟨h1, h2⟩ | ⟨h1, h2⟩
      · exact .inr (.inl ⟨hctl.trans h1, hinit, hpow.trans h2, hrstl, r.sel.trans hsel⟩)
      · exact .inr (.inr ⟨hctl.trans h1, hinit, hpow.trans h2, hrstl, r.sel.trans hsel⟩)
    refine sound_of_rest hm (fun _ => ?_) (congrArg State.active e :) hrest fun _ => hinit
    rw [hcfg, hfb]
    exact ⟨(h.filled hi).1, hland _ (h.filled hi).2⟩
  | sleep =>
    obtain ⟨hctl, hi, -, hr, hsel⟩ := hpos
    have hcfg : t.cfg = s.cfg := (congrArg State.cfg e :)
    have hfb : t.fb = (s.land .sleepDone).fb := (congrArg State.fb e :)
    have hinit : t.initialized = true := (congrArg State.initialized e :).trans hi
    have hrest : t.AtRest := .inr (.inr ⟨(congrArg State.ctl e :).trans hctl, hinit, (congrArg State.poweredOn e :),
      (congrArg State.rstl e :).trans hr, r.sel.trans hsel⟩)
    refine sound_of_rest hm (fun _ => ?_) (congrArg State.active e :) hrest fun _ => hinit
    rw [hcfg, hfb]
    exact ⟨(h.filled hi).1, hland _ (h.filled hi).2⟩

/-! ## Every step keeps the invariant -/

/-- A step of an operation in progress. -/
theorem sound_stepActive {s t : State} (hs : s.Sound) (ha : s.active = true) (h : stepActive s = .next t) : t.Sound := by
  obtain ⟨it, u, hn, ⟨-, hform⟩, ⟨rfl, r⟩ | rfl | rfl⟩ := stepActive_ends h
  · have hm := hform hs.memory
    rcases nextItem_cases hn with ⟨hlt, hmem⟩ | rfl
    · have kept := r.continues (body_continues s.cfg s.curOp it hmem) (nextItem_known hn)
      have hpos := position_step (hs.progress ha) hn hlt hmem r
      have hact : t.active = true := kept.active.trans ha
      refine ⟨hm, ?_, ?_, fun h => absurd (hact.symm.trans h) (by decide), fun _ => kept.curOp ▸ hpos⟩
      · rw [kept.initialized, kept.cfg]
        exact fun hi => ⟨(hs.filled hi).1, kept.filled _ (hs.filled hi).2⟩
      · rw [kept.initialized, kept.poweredOn]
        exact hs.powered
    · exact sound_last hs ha hn hm r
  · exact sound_hardReset (hform hs.memory)
  · exact sound_transportError (hform hs.memory)

theorem sound_clearDone {s : State} (h : s.Sound) : s.clearDone.Sound :=
  ⟨h.memory, h.filled, h.powered, h.rest, h.progress⟩

theorem sound_step_of_active {s t : State} (ha : s.active = true) (hs : s.Sound) (h : step s = .next t) : t.Sound := by
  by_cases hr : s.resetIn = some 0
  · rw [step_reset hr] at h
    cases h
    exact sound_hardReset hs.memory
  · exact sound_stepActive (sound_clearDone hs) ha (step_active hr ha ▸ h)

/-- The rest of an operation in one transition: its steps keep the invariant. -/
theorem sound_runRest {s t : State} (hs : s.Sound) (ha : s.active = true) (hd : s.opDone = false)
    (h : (runRest s).toOutcome = .next t) : t.Sound := by
  obtain ⟨u, hu, hsteps⟩ := runRest_steps ha hd
  rw [hu] at h
  cases h
  exact hsteps.keeps (fun _ _ ha => sound_step_of_active ha) hs

/-! ## At rest -/

/-- The memory is in form when an operation begins: nothing is contested yet. -/
theorem memoryOk_begun {s : State} (h : s.MemoryOk) : State.MemoryOk { s with raced := [] } :=
  ⟨h.1, ⟨List.Pairwise.nil, fun _ hc => by cases hc⟩, h.2.2⟩

theorem sound_beginInit {s : State} (hs : s.Sound) (hv : s.cfg.valid = true) (op : HostOp) (hop : op = .init ∨ op = .wake) :
    (beginInit op s).Sound := by
  have hpos : (beginInit op s).InitPosition := ⟨hv, .inl ⟨Nat.zero_le _, rfl, fun h => absurd h (by simp [beginInit])⟩⟩
  refine ⟨memoryOk_begun hs.memory, hs.filled, hs.powered, fun h => (by cases h), fun _ => ?_⟩
  rcases hop with rfl | rfl <;> exact hpos

/-- An initialized block at rest is in Idle or Sleeping (R121). -/
theorem atRest_initialized {s : State} (hs : s.Sound) (ha : s.active = false) (hi : s.initialized = true) :
    ((s.ctl = .idle ∧ s.poweredOn = true) ∨ (s.ctl = .sleeping ∧ s.poweredOn = false)) ∧ s.rstl = true ∧ s.sel = false := by
  rcases hs.rest ha with ⟨-, h⟩ | ⟨h1, -, h2, hr, hsel⟩ | ⟨h1, -, h2, hr, hsel⟩
  · simp [hi] at h
  · exact ⟨.inl ⟨h1, h2⟩, hr, hsel⟩
  · exact ⟨.inr ⟨h1, h2⟩, hr, hsel⟩

theorem sound_beginRefresh {s : State} (hs : s.Sound) (ha : s.active = false) (hi : s.initialized = true) (full : Bool) :
    (beginRefresh full s).Sound := by
  obtain ⟨hret, hr, hsel⟩ := atRest_initialized hs ha hi
  refine ⟨memoryOk_begun hs.memory, hs.filled, hs.powered, fun h => (by cases h), fun _ => ⟨rfl, hi, ?_, hr, hsel, hret⟩⟩
  rw [program_eq_body, List.length_append]
  exact Nat.lt_add_left _ Nat.one_pos

theorem sound_beginSleep {s : State} (hs : s.Sound) (ha : s.active = false) (hi : s.initialized = true) :
    (beginSleep s).Sound := by
  obtain ⟨-, hr, hsel⟩ := atRest_initialized hs ha hi
  exact ⟨memoryOk_begun hs.memory, hs.filled, hs.powered, fun h => (by cases h), fun _ => ⟨rfl, hi, Nat.succ_pos 2, hr, hsel⟩⟩

theorem sound_initOp {op : HostOp} (hop : op = .init ∨ op = .wake) {s t : State} (hs : s.Sound) (h : initOp op s = .next t) :
    t.Sound := by
  rcases whenReady_cases h with rfl | h
  · exact hs
  split at h
  · rename_i hv
    exact sound_runRest (sound_beginInit hs hv op hop) rfl rfl h
  · cases h
    exact ⟨hs.memory, hs.filled, hs.powered, hs.rest, hs.progress⟩

theorem sound_gated {begun : State → State} {s t : State} (hs : s.Sound)
    (hb : s.active = false → s.initialized = true → (begun s).Sound) (ha : (begun s).active = true) (hd : (begun s).opDone = false)
    (h : gated begun s = .next t) : t.Sound := by
  cases hact : s.active with
  | true => rw [gated_active hact] at h; cases h; exact hs
  | false =>
    cases hi : s.initialized with
    | true => exact sound_runRest (hb hact hi) ha hd (gated_accepted hact hi begun ▸ h)
    | false =>
      rw [gated_skipped hact hi] at h
      cases h
      exact ⟨hs.memory, hs.filled, hs.powered, hs.rest, hs.progress⟩

theorem sound_reservedOp {s t : State} (hs : s.Sound) (h : reservedOp s = .next t) : t.Sound := by
  rcases whenReady_cases h with rfl | h
  · exact hs
  · cases h
    exact ⟨hs.memory, hs.filled, hs.powered, hs.rest, hs.progress⟩

/-- Every host word, by its operation. -/
theorem sound_exec_host {i : Instr} (hf : i.format = .host4) {s t : State} (hs : s.Sound) (h : exec i s = .next t) : t.Sound := by
  cases i with
  | init _ => exact sound_initOp (.inl rfl) hs h
  | wake _ => exact sound_initOp (.inr rfl) hs h
  | refresh f => exact sound_gated (begun := beginRefresh f) hs (fun ha hi => sound_beginRefresh hs ha hi f) rfl rfl h
  | sleep _ => exact sound_gated (begun := beginSleep) hs (sound_beginSleep hs) rfl rfl h
  | reserved0 _ | reserved5 _ | reserved6 _ | reserved7 _ => exact sound_reservedOp hs h
  | _ => cases hf

/-- A new framebuffer in form, in which nothing is unwritten. -/
theorem sound_of_fb {s : State} (hs : s.Sound) (ha : s.active = false) {m : Memory} (hm : m.Ok s.cfg.numBytes)
    (hf : s.fb.filled s.cfg.numBytes → m.filled s.cfg.numBytes) : State.Sound { s with fb := m } :=
  sound_of_rest ⟨hm, hs.memory.2⟩ (fun hi => ⟨(hs.filled hi).1, hf (hs.filled hi).2⟩) ha (hs.rest ha) hs.powered

/-- A host action while the block accepts. -/
theorem sound_hostAct {act : HostAction} {s t : State} (hs : s.Sound) (ha : s.active = false)
    (h : (hostAct act s).toOutcome = .next t) : t.Sound := by
  obtain ⟨hfb, hraced, hlate⟩ := hs.memory
  cases act with
  | op _ => cases h; exact hs
  | reset => cases h; exact sound_hardReset hs.memory
  | fbWrite a v =>
    rcases Nat.lt_or_ge a s.cfg.numBytes with hlt | hge
    · rw [hostAct, hostWrite_inside hlt] at h
      cases h
      refine sound_of_fb hs ha (Memory.Ok.write hfb hlt v) fun hf b hb => ?_
      rw [Memory.written_write]
      split
      · rfl
      · exact hf b hb
    · rw [hostAct, hostWrite_outside hge] at h
      cases h
  | fbFill v =>
    cases h
    refine sound_of_fb hs ha ⟨Memory.fillFrom_wf _ hfb.1 0 _, fun c hc => ?_⟩ fun hf => filled_fillFrom_of_filled hf _ _ _
    exact (Memory.mem_fillFrom _ hc).elim (hfb.2 c) fun hc => by omega
  | during ws =>
    rcases hostDuring_cases ws s with ⟨hws, e⟩ | ⟨w, -, -, e⟩ <;> rw [hostAct, e] at h <;> cases h
    exact ⟨⟨hfb, hraced, hws⟩, hs.filled, hs.powered, hs.rest, hs.progress⟩

theorem sound_hostRest {s : State} (h : s.Sound) (rest : List HostAction) : State.Sound { s with host := rest } :=
  ⟨h.memory, h.filled, h.powered, h.rest, h.progress⟩

theorem sound_stepReady {s t : State} (hs : s.Sound) (ha : s.active = false) (h : stepReady s = .next t) : t.Sound := by
  cases hh : s.host with
  | nil => rw [stepReady_idle hh] at h; cases h; exact hs
  | cons act rest =>
    have hrest := sound_hostRest hs rest
    cases act with
    | op w => rw [stepReady_op hh] at h; exact sound_exec_host (decodeHost_format w) hrest h
    | _ => rw [stepReady_act hh (by simp)] at h; exact sound_hostAct hrest ha h

/-- Settles O46: a hardware reset leads to rest; a step of an operation keeps the invariant by its position, and a step at rest by
the host's action, where an accepted operation is its steps. -/
theorem stepKeepsTheInvariant : Obligations.StepKeepsTheInvariant := by
  intro s t hs h
  rw [inv_iff_sound] at hs ⊢
  cases ha : s.active with
  | true => exact sound_step_of_active ha hs h
  | false =>
    by_cases hr : s.resetIn = some 0
    · rw [step_reset hr] at h
      cases h
      exact sound_hardReset hs.memory
    · exact sound_stepReady (sound_clearDone hs) ha (step_ready hr ha ▸ h)

/-- Settles O45: nothing is written, and the block is in Uninitialized. -/
theorem resetMeetsTheInvariant : Obligations.ResetMeetsTheInvariant :=
  (inv_iff_sound _).2 (sound_of_rest (by decide) (fun h => by cases h) rfl (.inl ⟨rfl, rfl⟩) fun h => by cases h)

/-! ## What raises `initialized` and `poweredOn` -/

/-- The end of an INIT or WAKE (R124). -/
def State.InitEnded (t : State) : Prop :=
  t.initialized = true ∧ t.poweredOn = true ∧ t.ctl = .idle ∧ t.active = false ∧ t.opDone = true ∧
    (t.curOp = .init ∨ t.curOp = .wake)

theorem State.InitEnded.inactive {t : State} (h : t.InitEnded) : t.active = false := by
  obtain ⟨-, -, -, ha, -⟩ := h
  exact ha

/-- From `s` to `t` neither flag is raised, or an INIT or WAKE has ended. -/
def RaisedByInit (s t : State) : Prop :=
  ((t.initialized = true → s.initialized = true) ∧ (t.poweredOn = true → s.poweredOn = true)) ∨ t.InitEnded

theorem RaisedByInit.of_eq {s t : State} (hi : t.initialized = s.initialized) (hp : t.poweredOn = s.poweredOn) : RaisedByInit s t :=
  .inl ⟨hi ▸ id, hp ▸ id⟩

theorem RaisedByInit.of_down {s t : State} (hi : t.initialized = false) (hp : t.poweredOn = false) : RaisedByInit s t :=
  .inl ⟨fun h => by simp [hi] at h, fun h => by simp [hp] at h⟩

/-- The last item of an operation raises the flags if it is that of INIT or WAKE. -/
theorem raisedByInit_last {s t : State} (r : RanItem s.curOp.lastItem s t) : RaisedByInit s t := by
  generalize hop : s.curOp = op at r
  have e := r.view
  cases op with
  | init | wake =>
    have hcur : t.curOp = s.curOp := (congrArg State.curOp e :)
    exact .inr ⟨(congrArg State.initialized e :), (congrArg State.poweredOn e :), (congrArg State.ctl e :),
      (congrArg State.active e :), (congrArg State.opDone e :), by simp [hcur, hop]⟩
  | refresh => exact .of_eq (congrArg State.initialized e :) (congrArg State.poweredOn e :)
  | sleep =>
    have hi : t.initialized = s.initialized := (congrArg State.initialized e :)
    have hp : t.poweredOn = false := (congrArg State.poweredOn e :)
    exact .inl ⟨hi ▸ id, fun h => by simp [hp] at h⟩

theorem raisedByInit_stepActive {s t : State} (h : stepActive s = .next t) : RaisedByInit s t := by
  obtain ⟨it, u, hn, -, ⟨rfl, r⟩ | rfl | rfl⟩ := stepActive_ends h
  · rcases nextItem_cases hn with ⟨-, hmem⟩ | rfl
    · have kept := r.continues (body_continues s.cfg s.curOp it hmem) (nextItem_known hn)
      exact .of_eq kept.initialized kept.poweredOn
    · exact raisedByInit_last r
  · exact .of_down rfl rfl
  · exact .of_down rfl rfl

theorem raisedByInit_step_of_active {s t : State} (ha : s.active = true) (h : step s = .next t) : RaisedByInit s t := by
  by_cases hr : s.resetIn = some 0
  · rw [step_reset hr] at h
    cases h
    exact .of_down rfl rfl
  · exact raisedByInit_stepActive (s := s.clearDone) (step_active hr ha ▸ h)

/-- Once INIT or WAKE has ended, so has the run of steps. -/
theorem raisedByInit_steps {s t : State} (h : Steps s t) : RaisedByInit s t := by
  induction h with
  | refl s => exact .of_eq rfl rfl
  | head ha hst hrest ih =>
    rcases raisedByInit_step_of_active ha hst with ⟨hi, hp⟩ | hend
    · exact ih.imp_left fun ⟨hi', hp'⟩ => ⟨hi ∘ hi', hp ∘ hp'⟩
    · exact .inr (hrest.eq_of_inactive hend.inactive ▸ hend)

theorem raisedByInit_runRest {s b t : State} (hi : b.initialized = s.initialized) (hp : b.poweredOn = s.poweredOn)
    (ha : b.active = true) (hd : b.opDone = false) (h : (runRest b).toOutcome = .next t) : RaisedByInit s t := by
  obtain ⟨u, hu, hsteps⟩ := runRest_steps ha hd
  rw [hu] at h
  cases h
  exact (raisedByInit_steps hsteps).imp_left fun ⟨hi', hp'⟩ => ⟨hi ▸ hi', hp ▸ hp'⟩

theorem raisedByInit_initOp {op : HostOp} {s t : State} (h : initOp op s = .next t) : RaisedByInit s t := by
  rcases whenReady_cases h with rfl | h
  · exact .of_eq rfl rfl
  split at h
  · exact raisedByInit_runRest (b := beginInit op s) rfl rfl rfl rfl h
  · cases h; exact .of_eq rfl rfl

theorem raisedByInit_gated {begun : State → State} {s t : State} (hi : (begun s).initialized = s.initialized)
    (hp : (begun s).poweredOn = s.poweredOn) (ha : (begun s).active = true) (hd : (begun s).opDone = false)
    (h : gated begun s = .next t) : RaisedByInit s t := by
  rcases whenReady_cases h with rfl | h
  · exact .of_eq rfl rfl
  split at h
  · exact raisedByInit_runRest hi hp ha hd h
  · cases h; exact .of_eq rfl rfl

theorem raisedByInit_reservedOp {s t : State} (h : reservedOp s = .next t) : RaisedByInit s t := by
  rcases whenReady_cases h with rfl | h
  · exact .of_eq rfl rfl
  · cases h; exact .of_eq rfl rfl

theorem raisedByInit_exec_host {i : Instr} (hf : i.format = .host4) {s t : State} (h : exec i s = .next t) : RaisedByInit s t := by
  cases i with
  | init _ | wake _ => exact raisedByInit_initOp h
  | refresh f => exact raisedByInit_gated (begun := beginRefresh f) rfl rfl rfl rfl h
  | sleep _ => exact raisedByInit_gated (begun := beginSleep) rfl rfl rfl rfl h
  | reserved0 _ | reserved5 _ | reserved6 _ | reserved7 _ => exact raisedByInit_reservedOp h
  | _ => cases hf

theorem raisedByInit_hostAct {act : HostAction} {s t : State} (h : (hostAct act s).toOutcome = .next t) : RaisedByInit s t := by
  cases act with
  | op _ | fbFill _ => cases h; exact .of_eq rfl rfl
  | reset => cases h; exact .of_down rfl rfl
  | fbWrite a v =>
    simp only [hostAct, hostWrite] at h
    split at h <;> cases h
    exact .of_eq rfl rfl
  | during ws =>
    rcases hostDuring_cases ws s with ⟨-, e⟩ | ⟨w, -, -, e⟩ <;> rw [hostAct, e] at h <;> cases h
    exact .of_eq rfl rfl

theorem raisedByInit_stepReady {s t : State} (h : stepReady s = .next t) : RaisedByInit s t := by
  cases hh : s.host with
  | nil => rw [stepReady_idle hh] at h; cases h; exact .of_eq rfl rfl
  | cons act rest =>
    cases act with
    | op w => rw [stepReady_op hh] at h; exact raisedByInit_exec_host (s := { s with host := rest }) (decodeHost_format w) h
    | _ => rw [stepReady_act hh (by simp)] at h; exact raisedByInit_hostAct (s := { s with host := rest }) h

/-- Settles O50: no step raises a flag but one that ends an INIT or WAKE. -/
theorem onlyInitDoneSetsInitialized : Obligations.OnlyInitDoneSetsInitialized := by
  intro s t h hraise
  have hstep : RaisedByInit s t := by
    by_cases hr : s.resetIn = some 0
    · rw [step_reset hr] at h
      cases h
      exact .of_down rfl rfl
    cases ha : s.active with
    | true => exact raisedByInit_step_of_active ha h
    | false => exact raisedByInit_stepReady (s := s.clearDone) (step_ready hr ha ▸ h)
  rcases hstep with ⟨hi, hp⟩ | hend
  · rcases hraise with ⟨h0, h1⟩ | ⟨h0, h1⟩
    · simp [hi h1] at h0
    · simp [hp h1] at h0
  · exact hend

end Sys2Proof.Machine
end

section
/-! PROOFS of the family 42_controller_operations.md, third part: WAKE against INIT. Nothing the block does reads the
operation latch but the choice of the step list, and the two operations have the same. -/

namespace Sys2Proof.Machine

/-! ## The block but for its operation latch -/

/-- The state with the operation latch (10_state.md R36) at its reset value. -/
def State.bare (s : State) : State := { s with curOp := .init }

/-- The same of the state a piece ends in. -/
def Res.bare : Res → Res
  | .ok s => .ok s.bare
  | .stop s => .stop s.bare
  | .fault f => .fault f
  | .refused r => .refused r

/-- The update does not read the latch, but for keeping it. -/
def LatchBlind (upd : State → State) : Prop := ∀ s, (upd s).bare = (upd s.bare).bare

theorem eq_of_bare {s t : State} (h : t.bare = s.bare) : { t with curOp := s.curOp } = s := by
  cases s; cases t
  simp only [State.bare, State.mk.injEq] at h ⊢
  simp only [h, and_self]

/-- Pieces that end alike but for the latch give outcomes alike. -/
theorem next_of_bare {r r' : Res} (hb : r'.bare = r.bare) {t : State} (h : r.toOutcome = .next t) :
    ∃ t', r'.toOutcome = .next t' ∧ t'.bare = t.bare := by
  cases r with
  | ok s =>
    cases h
    cases r' with
    | ok s' => exact ⟨s', rfl, Res.ok.inj hb⟩
    | _ => cases hb
  | stop s =>
    cases h
    cases r' with
    | stop s' => exact ⟨s', rfl, Res.stop.inj hb⟩
    | _ => cases hb
  | fault _ | refused _ => cases h

/-- What follows a piece ends alike, if it does from states that are alike. -/
theorem Res.bind_bare {r r' : Res} (h : r'.bare = r.bare) {f : State → Res}
    (hf : ∀ s t : State, t.bare = s.bare → (f t).bare = (f s).bare) : (r'.bind f).bare = (r.bind f).bare := by
  cases r with
  | ok s =>
    cases r' with
    | ok t => exact hf s t (Res.ok.inj h)
    | _ => cases h
  | _ =>
    cases r' with
    | ok t => cases h
    | _ => exact h

/-! ## Scripts that do not read the latch -/

def Action.Blind : Action → Prop
  | .primitive _ upd => LatchBlind upd
  | .tick _ upd => LatchBlind upd
  | .silent upd => LatchBlind upd
  | .land _ => True
  | .barrier => True
  | .pause => True

def BlindScript (as : List Action) : Prop := ∀ a ∈ as, a.Blind

@[simp] theorem blindScript_nil : BlindScript [] := by simp [BlindScript]
@[simp] theorem blindScript_cons {a : Action} {as : List Action} : BlindScript (a :: as) ↔ a.Blind ∧ BlindScript as := by
  simp [BlindScript]
@[simp] theorem blindScript_append {as bs : List Action} : BlindScript (as ++ bs) ↔ BlindScript as ∧ BlindScript bs :=
  List.forall_mem_append

theorem BlindScript.flatMap {α : Type} {f : α → List Action} (h : ∀ a, BlindScript (f a)) (l : List α) :
    BlindScript (l.flatMap f) := fun act hact => by
  obtain ⟨a, -, ha⟩ := List.mem_flatMap.1 hact
  exact h a act ha

theorem tick_bare {upd : State → State} (h : LatchBlind upd) (ev : Event) (s : State) :
    (tick ev upd s).bare = (tick ev upd s.bare).bare := by
  have hr : s.bare.resetIn = s.resetIn := rfl
  rw [tick, tick, hr]
  rcases s.resetIn with _ | _ | n
  · exact congrArg Res.ok (h _)
  · rfl
  · exact congrArg Res.ok (h _)

theorem countTx_bare (s : State) : s.bare.countTx = s.countTx.bare := by
  have hc : s.bare.cfg = s.cfg := rfl
  have ht : s.bare.txFail = s.txFail := rfl
  rw [State.countTx, State.countTx, hc, ht]
  split
  · split <;> rfl
  · rfl

theorem primitive_bare {upd : State → State} (h : LatchBlind upd) (ev : Event) (s : State) :
    (primitive ev upd s).bare = (primitive ev upd s.bare).bare := by
  have hr : s.bare.resetIn = s.resetIn := rfl
  have hf : s.bare.txFails = s.txFails := rfl
  have htick := tick_bare h ev s.countTx
  rw [← countTx_bare] at htick
  rw [primitive, primitive, hr, hf]
  split
  · rfl
  · split
    · rfl
    · exact htick

/-- One action ends alike but for the latch. -/
theorem Action.Blind.run_bare {a : Action} (h : a.Blind) (s : State) : (a.run s).bare = (a.run s.bare).bare := by
  cases a with
  | primitive ev upd => exact primitive_bare h ev s
  | tick ev upd => exact tick_bare h ev s
  | silent upd => exact congrArg Res.ok (h s)
  | land f | pause => rfl
  | barrier =>
    have hr : s.bare.resetIn = s.resetIn := rfl
    rw [Action.run, Action.run, hr]
    split <;> rfl

/-- Such a script ends alike from states that are alike. -/
theorem runScript_bare {as : List Action} (hb : BlindScript as) {s t : State} (h : t.bare = s.bare) :
    (runScript as t).bare = (runScript as s).bare := by
  induction as generalizing s t with
  | nil => exact congrArg Res.ok h
  | cons a as ih =>
    rw [blindScript_cons] at hb
    have hrun : (a.run t).bare = (a.run s).bare := by rw [hb.1.run_bare, h, ← hb.1.run_bare]
    exact Res.bind_bare hrun fun _ _ => ih hb.2

/-! ## The scripts of the block do not -/

@[simp] theorem selAct_blind (b : Bool) : (selAct b).Blind := fun _ => rfl
@[simp] theorem modeAct_blind (m : Mode) : (modeAct m).Blind := fun _ => rfl
@[simp] theorem rstAct_blind (b : Bool) : (rstAct b).Blind := fun _ => rfl
@[simp] theorem wrAct_blind (bs : List Byte) : (wrAct bs).Blind := fun _ => rfl
@[simp] theorem aiAct_blind (n : Nat) : (aiAct n).Blind := fun _ => rfl

theorem takeBusy_blind : LatchBlind State.takeBusy := fun s => by
  have hb : s.bare.busyIn = s.busyIn := rfl
  rw [State.takeBusy, State.takeBusy, hb]
  split <;> rfl
@[simp] theorem busyAct_blind (b : Bool) : (busyAct b).Blind := takeBusy_blind

theorem mapStart_blind : LatchBlind State.mapStart := fun s => by
  have hc : s.bare.cfg = s.cfg := rfl
  rw [State.mapStart, State.mapStart, hc]
  split <;> rfl

theorem mapAdvance_blind : LatchBlind State.mapAdvance := fun s => by
  have hc : s.bare.cfg = s.cfg := rfl
  have hv : s.bare.vbc = s.vbc := rfl
  rw [State.mapAdvance, State.mapAdvance, hc, hv]
  split
  · rfl
  · split <;> rfl

theorem LatchBlind.iterate {upd : State → State} (h : LatchBlind upd) (n : Nat) : LatchBlind upd^[n] := by
  induction n with
  | zero => exact fun _ => rfl
  | succ n ih =>
    intro s
    rw [Function.iterate_succ_apply', Function.iterate_succ_apply', h, ih, ← h]

theorem cmdScript_blind (c : Byte) : BlindScript (cmdScript c) := by simp [cmdScript]
theorem dataScript_blind (bs : List Byte) : BlindScript (dataScript bs) := by simp [dataScript]
theorem argScript_blind (bs : List Byte) : BlindScript (argScript bs) := by
  cases bs with
  | nil => exact blindScript_nil
  | cons b bs => exact dataScript_blind _
theorem waitScript_blind (t : Nat) : BlindScript (waitScript t) :=
  blindScript_cons.2 ⟨fun _ => rfl, blindScript_cons.2 ⟨fun _ => rfl, blindScript_nil⟩⟩

theorem perByteScript_blind (bs : List Byte) : BlindScript (perByteScript bs) := by
  refine BlindScript.flatMap (fun b => ?_) bs
  exact blindScript_append.2 ⟨dataScript_blind [b], blindScript_cons.2 ⟨mapAdvance_blind, blindScript_nil⟩⟩

theorem dataLoopScript_blind (v : State) : BlindScript (dataLoopScript v) := by
  refine blindScript_cons.2 ⟨mapStart_blind, ?_⟩
  split
  · exact perByteScript_blind _
  · exact blindScript_cons.2 ⟨mapAdvance_blind.iterate _, argScript_blind _⟩

theorem fillScript_blind (k n : Nat) : BlindScript (fillScript k n) := by
  refine BlindScript.flatMap (fun a => ?_) (List.range' k n)
  exact blindScript_cons.2 ⟨fun _ => rfl, blindScript_cons.2 ⟨fun _ => rfl, blindScript_nil⟩⟩

theorem panelScript_blind (i : Instr) (v : State) : BlindScript (panelScript i v) := by
  cases i with
  | writeRam => exact blindScript_append.2 ⟨cmdScript_blind _, dataLoopScript_blind v⟩
  | init | refresh | sleep | wake | reserved0 | reserved5 | reserved6 | reserved7 => exact blindScript_nil
  | _ => exact blindScript_append.2 ⟨cmdScript_blind _, argScript_blind _⟩

theorem pollScript_blind (t : Nat) (bs : List Bool) : BlindScript (pollScript t bs) := by
  induction bs with
  | nil => simp [pollScript, Action.Blind]
  | cons b bs ih =>
    cases b with
    | true => simp [pollScript, turnScript, waitScript_blind, ih]
    | false => simp [pollScript, turnScript, show (Action.silent State.advance).Blind from fun _ => rfl]

theorem itemScript_blind (it : Item) (v : State) : BlindScript (itemScript it v) := by
  have hadvance : (Action.silent State.advance).Blind := fun _ => rfl
  cases it with
  | setReset high => simp [itemScript, hadvance]
  | wait d => exact blindScript_cons.2 ⟨hadvance, waitScript_blind _⟩
  | cmd c =>
    simp only [itemScript]
    split
    · exact blindScript_cons.2 ⟨hadvance, panelScript_blind _ v⟩
    · exact blindScript_nil
  | fill => exact blindScript_cons.2 ⟨hadvance, blindScript_cons.2 ⟨fun _ => rfl, fillScript_blind _ _⟩⟩
  | poll => exact pollScript_blind _ _
  | startConfigure | startSeed | initDone | refreshDone | sleepDone =>
    exact blindScript_cons.2 ⟨fun _ => rfl, blindScript_nil⟩

theorem itemsScript_blind (its : List Item) (v : State) : BlindScript (itemsScript its v) := by
  induction its generalizing v with
  | nil => exact blindScript_nil
  | cons it its ih =>
    have hpause : BlindScript (pauseScript it v) := by
      unfold pauseScript
      split <;> simp [Action.Blind]
    simp [itemsScript, hpause, itemScript_blind, ih, Action.Blind]

/-- The script of a list does not depend on the latch either. -/
theorem itemsScript_bare (its : List Item) (v : State) : itemsScript its v.bare = itemsScript its v := by
  induction its generalizing v with
  | nil => rfl
  | cons it its ih =>
    have hscript : itemScript it (v.bare.land it) = itemScript it (v.land it) := by cases it <;> rfl
    have hview : itemView it (v.bare.land it) = (itemView it (v.land it)).bare := by cases it <;> rfl
    have hpause : pauseScript it v.bare = pauseScript it v := rfl
    rw [itemsScript, itemsScript, hscript, hview, hpause, ih]

theorem runItems_bare {its : List Item} (hk : ∀ it ∈ its, it.Known) {s t : State} (h : t.bare = s.bare) :
    (runItems its t).bare = (runItems its s).bare := by
  have hscript : itemsScript its t.view = itemsScript its s.view := by
    rw [← itemsScript_bare its t.view, ← itemsScript_bare its s.view]
    exact congrArg (fun x : State => itemsScript its x.view) h
  rw [(runItems_scripted its hk t.view).eq t rfl, (runItems_scripted its hk s.view).eq s rfl, hscript]
  exact runScript_bare (itemsScript_blind its s.view) h

/-- Settles O22: accepted, the two differ in the latch alone and run the same list; rejected or not accepted, they are the same. -/
theorem wakeIsInitButForCurOp : Obligations.WakeIsInitButForCurOp := by
  intro f s t h
  change initOp .init s = .next t at h
  change ∃ t', initOp .wake s = .next t' ∧ _
  cases ha : s.active with
  | true =>
    rw [initOp_active ha] at h ⊢
    cases h
    exact ⟨s, rfl, rfl⟩
  | false =>
    by_cases hv : s.cfg.valid = true
    · rw [initOp_accepted ha hv] at h ⊢
      have hlist : (runRest (beginInit .wake s)).bare = (runRest (beginInit .init s)).bare :=
        runItems_bare (its := initSequence s.cfg) (program_known s.cfg .init) rfl
      obtain ⟨t', ht', hb⟩ := next_of_bare hlist h
      exact ⟨t', ht', eq_of_bare hb⟩
    · rw [initOp_rejected ha hv] at h ⊢
      cases h
      exact ⟨_, rfl, rfl⟩

end Sys2Proof.Machine
end

section
/-! PROOFS of the family 42_controller_operations.md, fourth part: the operations where nothing disturbs them. The
steps before the polling loop are run as a script, the loop and the last step are computed, and each whole operation is put
together from the two. -/

namespace Sys2Proof.Machine

/-! ## The busy-wait, undisturbed -/

theorem pollEvents_add (c : Cfg) (n m : Nat) : pollEvents c (n + m) = pollEvents c n ++ pollEvents c m := by
  rw [pollEvents, List.replicate_add, List.flatten_append]
  rfl

/-- After `n` true answers, with `bs` still scheduled. -/
def State.polled (s : State) (n : Nat) (bs : List Bool) (timer : Nat) : State :=
  { s with trace := s.trace ++ pollEvents s.cfg n, busyIn := bs, timer := timer }

theorem polled_zero (s : State) : s.polled 0 s.busyIn s.timer = s := by simp [State.polled, pollEvents]

theorem polled_polled (s : State) (n m : Nat) (bs bs' : List Bool) (timer timer' : Nat) :
    (s.polled n bs timer).polled m bs' timer' = s.polled (n + m) bs' timer' := by simp [State.polled, pollEvents_add]

/-- A turn that reads true (R131). -/
theorem pollOnce_true {s : State} (h : s.Undisturbed) {bs : List Bool} (hb : s.busyIn = true :: bs) :
    pollOnce s = .ok (s.polled 1 bs 0) := by
  have ha : s.busyAnswer = true := by simp [State.busyAnswer, hb]
  have ht : State.takeBusy { s with trace := s.trace ++ [.busy true] } =
      { s with trace := s.trace ++ [.busy true], busyIn := bs } := by simp [State.takeBusy, hb]
  rw [pollOnce, readBusy, ha, primitive_undisturbed h, ht, Res.bind_ok, if_pos rfl]
  refine (wait_eq (s := { s with trace := s.trace ++ [.busy true], busyIn := bs }) h.1 .tPoll).trans ?_
  simp [Cfg.delay, State.polled, pollEvents]

/-- The turn that reads false. -/
theorem pollOnce_false {s : State} (h : s.Undisturbed) {bs : List Bool} (hb : s.busyIn = false :: bs) :
    pollOnce s = .ok { s with trace := s.trace ++ [.busy false], busyIn := bs, seq := s.seq + 1 } := by
  have ha : s.busyAnswer = false := by simp [State.busyAnswer, hb]
  have ht : State.takeBusy { s with trace := s.trace ++ [.busy false] } =
      { s with trace := s.trace ++ [.busy false], busyIn := bs } := by simp [State.takeBusy, hb]
  rw [pollOnce, readBusy, ha, primitive_undisturbed h, ht, Res.bind_ok, if_neg (by decide)]
  rfl

/-- The loop over `n` true answers goes on with the rest of the schedule. -/
theorem pollScheduled_true (n : Nat) {s : State} (h : s.Undisturbed) {bs : List Bool}
    (hb : s.busyIn = List.replicate n true ++ bs) :
    ∃ timer, pollScheduled (List.replicate n true ++ bs) s = pollScheduled bs (s.polled n bs timer) := by
  induction n generalizing s with
  | zero =>
    have hb : s.busyIn = bs := hb
    exact ⟨s.timer, by rw [← hb, polled_zero]; rfl⟩
  | succ n ih =>
    have hb' : s.busyIn = true :: (List.replicate n true ++ bs) := hb
    obtain ⟨timer, hrun⟩ := ih (s := s.polled 1 (List.replicate n true ++ bs) 0) h rfl
    refine ⟨timer, ?_⟩
    change pollScheduled (true :: (List.replicate n true ++ bs)) s = _
    rw [pollScheduled, pollOnce_true h hb', Res.bind_ok, if_pos rfl, hrun, polled_polled, Nat.add_comm]

/-- One step of a busy-wait that reads true. -/
theorem step_poll_true {s : State} (h : s.Undisturbed) (ha : s.active = true) (hn : s.nextItem = some .poll) {bs : List Bool}
    (hb : s.busyIn = true :: bs) : step s = .next ((s.clearDone.land .poll).polled 1 bs 0) := by
  have hpoll : stepItem .poll (s.clearDone.land .poll) = _ := pollOnce_true (s := s.clearDone.land .poll) h hb
  rw [step_active (by simp [h.1]) ha, stepActive_item (s := s.clearDone) hn trivial, hpoll]
  rfl

/-- Settles O36, by induction on the number of answers: each step reads one of them and stays at the poll. -/
theorem busyWaitHasNoBound : Obligations.BusyWaitHasNoBound := by
  intro n
  induction n with
  | zero => exact fun s rest ha hn _ hb => ⟨s, rfl, by simp [pollEvents], hb, ha, hn, rfl, rfl, rfl⟩
  | succ n ih =>
    intro s rest ha hn h hb
    have hstep := step_poll_true h ha hn (bs := List.replicate n true ++ rest) hb
    obtain ⟨t, hrun, htrace, hbusy, hact, hnext, hctl, hinit, hhost⟩ :=
      ih ((s.clearDone.land .poll).polled 1 (List.replicate n true ++ rest) 0) rest ha hn h rfl
    refine ⟨t, (run_next hstep n).trans hrun, ?_, hbusy, hact, hnext, hctl, hinit, hhost⟩
    rw [htrace, Nat.add_comm n, pollEvents_add, ← List.append_assoc]
    rfl

/-! ## The steps before the polling loop -/

/-- The list `its` has run from `b` to its end in `u`, with the events `es`; where no memory is concerned the view of `u` is that
of `v`. -/
structure RanList (its : List Item) (b u v : State) (es : List Event) : Prop where
  run : runItems its b = .ok u
  trace : u.trace = b.trace ++ es
  still : u.view.still = v.view.still
  sel : u.sel = selAfter b.sel es
  mode : u.mode = modeAfter b.mode es
  txFail : u.txFail = b.txFail
  resetIn : u.resetIn = none

/-- Undisturbed, a list whose script is unpaused runs to its end, and leaves the view its items make. -/
theorem runItems_undisturbed {its : List Item} (hk : ∀ it ∈ its, it.Known) {b v : State} {es : List Event} (hs : b.Undisturbed)
    (hp : Unpaused (itemsScript its b.view)) (he : scriptEvents (itemsScript its b.view) = es)
    (hv : (itemsView its b.view).still = v.view.still) : ∃ u, RanList its b u v es ∧ u.view = itemsView its b.view := by
  have h := runItems_scripted its hk b.view
  obtain ⟨u, r⟩ := runScript_undisturbed h.tame hp hs
  have hview : u.view = itemsView its b.view := h.post b u rfl r.run
  obtain ⟨hsel, hmode, -⟩ := he ▸ r.follows.pins
  exact ⟨u, ⟨(h.eq b rfl).trans r.run, he ▸ r.trace, (congrArg State.still hview).trans hv, hsel, hmode, r.txFail, r.resetIn⟩,
    hview⟩

theorem program_front_known (c : Cfg) (op : HostOp) {its rest : List Item} (h : program c op = its ++ rest) :
    ∀ it ∈ its, it.Known := fun it hit => program_known c op it (h ▸ List.mem_append_left _ hit)

theorem RanList.cfg {its : List Item} {b u v : State} {es : List Event} (r : RanList its b u v es) : u.cfg = v.cfg :=
  (congrArg State.cfg r.still :)

theorem RanList.undisturbed {its : List Item} {b u v : State} {es : List Event} (r : RanList its b u v es) (hs : b.Undisturbed)
    (hv : v.cfg = b.cfg) : u.Undisturbed := ⟨r.resetIn, by rw [r.cfg, r.txFail, hv]; exact hs.2⟩

/-- What a run leaves alone, where no late write has landed. -/
theorem RanList.sameRecord {its : List Item} {b u v : State} {es : List Event} (r : RanList its b u v es) (hb : b.resetIn = none)
    (hv : b.SameRecord v) (hl : u.late = b.late) (hn : u.races = b.races) : b.SameRecord u := by
  obtain ⟨h1, h2, h3, h4, h5, h6, -, -, h9, -, -⟩ := hv
  exact ⟨r.cfg.trans h1, (congrArg State.skip r.still :).trans h2, (congrArg State.err r.still :).trans h3,
    (congrArg State.ill r.still :).trans h4, (congrArg State.cause r.still :).trans h5, (congrArg State.host r.still :).trans h6,
    r.txFail, r.resetIn.trans hb.symm, (congrArg State.busyDraws r.still :).trans h9, hl, hn⟩

/-! ## From the polling loop to the end -/

/-- After the busy-wait: `p` answers that are true and one that is false. -/
def State.settled (s : State) (p : Nat) (rest : List Bool) (timer : Nat) : State :=
  { s with trace := s.trace ++ pollEvents s.cfg p ++ [.busy false], busyIn := rest, timer := timer, seq := s.seq + 1 }

/-- The polling loop and the last step of an operation, where the panel settles. -/
theorem runItems_settles {u : State} (h : u.Undisturbed) {p : Nat} {rest : List Bool} (hb : u.PanelSettles p rest) {last : Item}
    (hl : last ≠ .poll) : ∃ timer, runItems [.poll, last] u =
      runItem last (((u.land .poll).settled p rest timer).land last) := by
  obtain ⟨timer, hrun⟩ := pollScheduled_true p (s := u.land .poll) (bs := false :: rest) h hb
  refine ⟨timer, ?_⟩
  have hne : u.awaits .poll = false := by cases p <;> simp [State.awaits, hb, List.replicate_succ]
  have hlast (x : State) : x.awaits last = false := by simp [State.awaits, hl]
  have hpoll : runItem .poll (u.land .poll) = .ok ((u.land .poll).settled p rest timer) := by
    have hbusy : (u.land .poll).busyIn = List.replicate p true ++ false :: rest := hb
    have hund : ((u.land .poll).polled p (false :: rest) timer).Undisturbed := h
    rw [runItem, hbusy, hrun, pollScheduled, pollOnce_false hund rfl]
    rfl
  have hreset : ((u.land .poll).settled p rest timer).resetIn = none := h.1
  rw [runItems, if_neg (by simp [h.1]), if_neg (by simp [hne]), hpoll, Res.bind_ok, runItems, if_neg (by simp [hreset]),
    if_neg (by simp [hlast])]
  exact Res.bind_pure _

/-- The polling loop over answers that are all true stops in the busy-wait. -/
theorem runItems_busy {u : State} (h : u.Undisturbed) {n : Nat} (hb : u.busyIn = List.replicate n true) (last : Item) :
    ∃ x timer, (x = u ∨ x = u.land .poll) ∧ runItems [.poll, last] u = .stop (x.polled n [] timer) := by
  cases n with
  | zero =>
    have hb : u.busyIn = [] := hb
    refine ⟨u, u.timer, .inl rfl, ?_⟩
    rw [runItems, if_neg (by simp [h.1]), if_pos (by simp [State.awaits, hb])]
    exact congrArg Res.stop (hb ▸ polled_zero u).symm
  | succ n =>
    have hb' : u.busyIn = List.replicate (n + 1) true ++ [] := by simpa using hb
    obtain ⟨timer, hrun⟩ := pollScheduled_true (n + 1) (s := u.land .poll) (bs := []) h hb'
    refine ⟨u.land .poll, timer, .inr rfl, ?_⟩
    have hne : u.awaits .poll = false := by simp [State.awaits, hb, List.replicate_succ]
    have hbusy : (u.land .poll).busyIn = List.replicate (n + 1) true ++ [] := hb'
    rw [runItems, if_neg (by simp [h.1]), if_neg (by simp [hne]), runItem, hbusy, hrun]
    rfl

/-! ## The pins and the bytes of a refresh -/

theorem selAfter_refreshCommandEvents (b : Bool) (c : Cfg) (f : Nat → Byte) (full : Bool) :
    selAfter b (refreshCommandEvents c f full) = false := by rw [refreshCommandEvents, selAfter_append]; rfl

theorem modeAfter_refreshCommandEvents (m : Mode) (c : Cfg) (f : Nat → Byte) (full : Bool) :
    modeAfter m (refreshCommandEvents c f full) = .cmd := by rw [refreshCommandEvents, modeAfter_append]; rfl

theorem refreshCommandEvents_congr {c : Cfg} {f g : Nat → Byte} (h : ∀ a < c.numBytes, f a = g a) (full : Bool) :
    refreshCommandEvents c f full = refreshCommandEvents c g full := by
  rw [refreshCommandEvents, refreshCommandEvents, dataLoopEvents_congr h]

/-- With no late write to come, a step other than the fill lands nothing. -/
theorem land_of_no_late {s : State} (h : s.late = []) {it : Item} (hit : it ≠ .fill) : s.land it = s := by
  have hf : (it == .fill) = false := by simpa using hit
  rw [State.land, hf, landStep_none (by simp [h])]
  rfl

/-- Nothing has landed in an operation that has just begun. -/
theorem readByte_of_raced_nil {s : State} (h : s.raced = []) : s.readByte = s.fb.byteAt := by
  funext a
  rw [State.readByte, h]
  rfl

/-! ## REFRESH -/

/-- The commands of `RefreshSeq` and its settle delay have run from `b` to `u`: the bytes sent are those of `w`, where each is as
before or one of the host's (R207). -/
structure RefreshFront (b u w : State) : Prop where
  ran : RanList (refreshFront b.cfg) b u { b with seq := b.seq + (refreshFront b.cfg).length }
    (refreshCommandEvents b.cfg w.readByte b.curFull ++ [.wait b.cfg.tSettle])
  sent : Late b w
  left : Late b u

theorem refreshFront_undisturbed {b : State} (hs : b.Undisturbed) : ∃ u w, RefreshFront b u w := by
  obtain ⟨hp, ⟨w, hw, he⟩, hl, hv⟩ := refreshFront_script b.view
  obtain ⟨u, r, hview⟩ := runItems_undisturbed (v := { b with seq := b.seq + (refreshFront b.cfg).length })
    (program_front_known b.cfg .refresh (refresh_program b.cfg)) hs hp he hv
  have hl' : Late b.view u.view := hview ▸ hl
  exact ⟨u, w, r, ⟨hw.late, hw.fb, hw.read, hw.quiet⟩, ⟨hl'.late, hl'.fb, hl'.read, hl'.quiet⟩⟩

/-- With no late write the bytes sent are those of the framebuffer. -/
theorem RefreshFront.bytes_of_no_late {f : Bool} {s u w : State} (h : RefreshFront (beginRefresh f s) u w) (hk : s.late = []) :
    w.readByte = s.fb.byteAt := by
  obtain ⟨hfb, hraced, -⟩ := h.sent.quiet hk
  rw [readByte_of_raced_nil hraced, hfb]
  rfl

/-- The state that REFRESH ends in, from that before its polling loop. -/
def refreshEnd (u : State) (p : Nat) (rest : List Bool) (timer : Nat) : State :=
  refreshDone (((u.land .poll).settled p rest timer).land .refreshDone).advance

/-- REFRESH past its gate, undisturbed, with a panel that settles, whatever the host writes. -/
theorem refresh_undisturbed (f : Bool) {s : State} {p : Nat} {rest : List Bool} (ha : s.active = false)
    (hi : s.initialized = true) (hs : s.Undisturbed) (hb : s.PanelSettles p rest) :
    ∃ u w timer, RefreshFront (beginRefresh f s) u w ∧ exec (.refresh f) s = .next (refreshEnd u p rest timer) := by
  obtain ⟨u, w, hu⟩ := refreshFront_undisturbed (b := beginRefresh f s) hs
  have hbusy : u.busyIn = s.busyIn := (congrArg State.busyIn hu.ran.still :)
  obtain ⟨timer, hrun⟩ := runItems_settles (hu.ran.undisturbed hs rfl) (hbusy.trans hb) (last := .refreshDone) (by simp)
  refine ⟨u, w, timer, hu, (gated_accepted ha hi _).trans ?_⟩
  have hlist : runRest (beginRefresh f s) = runItems (refreshFront s.cfg ++ [.poll, .refreshDone]) (beginRefresh f s) := by
    rw [← refresh_program]; rfl
  have hfront : runItems (refreshFront s.cfg) (beginRefresh f s) = .ok u := hu.ran.run
  rw [hlist, runItems_append, hfront, Res.bind_ok, hrun]
  rfl

theorem refreshEnd_trace {f : Bool} {s u w : State} (h : RefreshFront (beginRefresh f s) u w) (p : Nat) (rest : List Bool)
    (timer : Nat) : (refreshEnd u p rest timer).trace = s.trace ++ refreshEvents s.cfg w.readByte f p := by
  have htrace : u.trace = s.trace ++ (refreshCommandEvents s.cfg w.readByte f ++ [.wait s.cfg.tSettle]) := h.ran.trace
  have hcfg : u.cfg = s.cfg := h.ran.cfg
  change u.trace ++ pollEvents u.cfg p ++ [.busy false] = _
  rw [htrace, hcfg]
  simp [refreshEvents, busyWaitEvents]

theorem refreshEnd_of_no_late {u : State} (h : u.late = []) (p : Nat) (rest : List Bool) (timer : Nat) :
    refreshEnd u p rest timer = refreshDone (u.settled p rest timer).advance := by
  have hl : (u.settled p rest timer).late = [] := h
  rw [refreshEnd, land_of_no_late h (by simp), land_of_no_late hl (by simp)]

/-- Settles O23: with no late write the bytes are those of the framebuffer, and the settle delay, the busy-wait and the last step
leave what the frames left. -/
theorem refreshRunsTheRefreshSequence : Obligations.RefreshRunsTheRefreshSequence := by
  intro f s p rest ha hi _ hs hk hb
  obtain ⟨u, w, timer, h, hexec⟩ := refresh_undisturbed f ha hi hs hb
  have hr := h.ran
  obtain ⟨hfb, -, hraces⟩ := h.left.quiet hk
  have hlate : u.late = [] := h.left.nil hk
  refine ⟨_, hexec, by rw [refreshEnd_trace h, h.bytes_of_no_late hk], ?_⟩
  rw [refreshEnd_of_no_late hlate]
  exact ⟨(congrArg State.ret hr.still :), (congrArg State.initialized hr.still :).trans hi, (congrArg State.poweredOn hr.still :),
    rfl, rfl, hr.sel.trans (by rw [selAfter_append, selAfter_refreshCommandEvents]; rfl),
    hr.mode.trans (by rw [modeAfter_append, modeAfter_refreshCommandEvents]; rfl), (congrArg State.rstl hr.still :), rfl, hfb,
    hr.sameRecord hs.1 ⟨rfl, rfl, rfl, rfl, rfl, rfl, rfl, rfl, rfl, rfl, rfl⟩ (hlate.trans hk.symm) hraces,
    (congrArg State.curOp hr.still :), (congrArg State.curFull hr.still :)⟩

/-! ## INIT and WAKE -/

/-- `InitSequence` has run from `b` to its busy-wait in `u`: the bytes sent are those of `w`, which is all-light but where the host
has written (R127, R207). -/
structure InitFront (b u w : State) : Prop where
  ran : RanList (initFront b.cfg) b u
    { b with seq := b.seq + (initFront b.cfg).length, ctl := .busy, ret := .idle, curFull := true, rstl := true }
    (resetPulseEvents b.cfg ++ configureEvents b.cfg ++ fillEvents b.cfg ++ refreshCommandEvents b.cfg w.readByte true
      ++ [.wait b.cfg.tSettle])
  sent : Filled b w
  left : Filled b u

theorem initFront_undisturbed {b : State} (hs : b.Undisturbed) : ∃ u w, InitFront b u w := by
  obtain ⟨hp, ⟨w, hw, he⟩, hl, hv⟩ := initFront_script b.view
  obtain ⟨u, r, hview⟩ := runItems_undisturbed
    (v := { b with seq := b.seq + (initFront b.cfg).length, ctl := .busy, ret := .idle, curFull := true, rstl := true })
    (program_front_known b.cfg .init (init_program b.cfg)) hs hp he hv
  have hl' : Filled b.view u.view := hview ▸ hl
  exact ⟨u, w, r, ⟨hw.late, hw.fb, hw.read, hw.quiet⟩, ⟨hl'.late, hl'.fb, hl'.read, hl'.quiet⟩⟩

/-- INIT and WAKE have the one list. -/
theorem runRest_beginInit {op : HostOp} (hop : op = .init ∨ op = .wake) (s : State) :
    runRest (beginInit op s) = runItems (initFront s.cfg ++ [.poll, .initDone]) (beginInit op s) := by
  rw [← init_program]
  rcases hop with rfl | rfl <;> rfl

/-- The state that INIT and WAKE end in, from that before their polling loop. -/
def initEnd (u : State) (p : Nat) (rest : List Bool) (timer : Nat) : State :=
  initDone (((u.land .poll).settled p rest timer).land .initDone).advance

/-- INIT and WAKE with a valid geometry, undisturbed, with a panel that settles, whatever the host writes. -/
theorem initOp_undisturbed {op : HostOp} (hop : op = .init ∨ op = .wake) {s : State} {p : Nat} {rest : List Bool}
    (ha : s.active = false) (hv : s.cfg.valid = true) (hs : s.Undisturbed) (hb : s.PanelSettles p rest) :
    ∃ u w timer, InitFront (beginInit op s) u w ∧ initOp op s = .next (initEnd u p rest timer) := by
  obtain ⟨u, w, hu⟩ := initFront_undisturbed (b := beginInit op s) hs
  have hbusy : u.busyIn = s.busyIn := (congrArg State.busyIn hu.ran.still :)
  obtain ⟨timer, hrun⟩ := runItems_settles (hu.ran.undisturbed hs rfl) (hbusy.trans hb) (last := .initDone) (by simp)
  refine ⟨u, w, timer, hu, (initOp_accepted ha hv op).trans ?_⟩
  have hfront : runItems (initFront s.cfg) (beginInit op s) = .ok u := hu.ran.run
  rw [runRest_beginInit hop, runItems_append, hfront, Res.bind_ok, hrun]
  rfl

theorem initEnd_trace {op : HostOp} {s u w : State} (h : InitFront (beginInit op s) u w) (p : Nat) (rest : List Bool)
    (timer : Nat) : (initEnd u p rest timer).trace = s.trace ++ (resetPulseEvents s.cfg ++ configureEvents s.cfg
      ++ fillEvents s.cfg ++ refreshEvents s.cfg w.readByte true p) := by
  have htrace : u.trace = s.trace ++ (resetPulseEvents s.cfg ++ configureEvents s.cfg ++ fillEvents s.cfg
    ++ refreshCommandEvents s.cfg w.readByte true ++ [.wait s.cfg.tSettle]) := h.ran.trace
  have hcfg : u.cfg = s.cfg := h.ran.cfg
  change u.trace ++ pollEvents u.cfg p ++ [.busy false] = _
  rw [htrace, hcfg]
  simp [refreshEvents, busyWaitEvents]

theorem initEnd_of_no_late {u : State} (h : u.late = []) (p : Nat) (rest : List Bool) (timer : Nat) :
    initEnd u p rest timer = initDone (u.settled p rest timer).advance := by
  have hl : (u.settled p rest timer).late = [] := h
  rw [initEnd, land_of_no_late h (by simp), land_of_no_late hl (by simp)]

theorem Filled.nil {v t : State} (h : Filled v t) (hq : v.late = []) : t.late = [] :=
  List.eq_nil_iff_forall_not_mem.2 fun w hw => by have := h.late w hw; simp [hq] at this

/-- With no late write the seed refresh sends the all-light buffer. -/
theorem Filled.read_light {v t : State} (h : Filled v t) (hq : v.late = []) : ∀ a < v.cfg.numBytes, t.readByte a = 0xFF := by
  intro a ha
  rcases h.read a ha with e | ⟨w, hw, -⟩
  · exact e
  · simp [hq] at hw

/-- INIT or WAKE, undisturbed, with a panel that settles and a host that keeps off the framebuffer. -/
theorem initOp_runs {op : HostOp} (hop : op = .init ∨ op = .wake) {s : State} {p : Nat} {rest : List Bool}
    (ha : s.active = false) (hv : s.cfg.valid = true) (hs : s.Undisturbed) (hk : s.HostKeepsOff) (hb : s.PanelSettles p rest) :
    ∃ t, initOp op s = .next t ∧ t.trace = s.trace ++ initEvents s.cfg p ∧ t.ctl = .idle ∧ t.initialized = true ∧
      t.poweredOn = true ∧ t.active = false ∧ t.opDone = true ∧ t.sel = false ∧ t.mode = .cmd ∧ t.rstl = true ∧
      t.busyIn = rest ∧ s.SameRecord t ∧ t.curOp = op ∧
      ∀ a, t.fb.written a = if a < s.cfg.numBytes then some 0xFF else s.fb.written a := by
  obtain ⟨u, w, timer, h, hexec⟩ := initOp_undisturbed hop ha hv hs hb
  have hr := h.ran
  obtain ⟨hfb, hraces⟩ := h.left.quiet hk
  have hlate : u.late = [] := h.left.nil hk
  have hbytes : refreshEvents s.cfg w.readByte true p = refreshEvents s.cfg (fun _ => 0xFF) true p := by
    have hlight : ∀ a < s.cfg.numBytes, w.readByte a = 0xFF := h.sent.read_light hk
    rw [refreshEvents, refreshEvents, refreshCommandEvents_congr hlight]
  refine ⟨_, hexec, by rw [initEnd_trace h, hbytes]; rfl, ?_⟩
  rw [initEnd_of_no_late hlate]
  refine ⟨rfl, rfl, rfl, rfl, rfl, hr.sel.trans ?_, hr.mode.trans ?_, (congrArg State.rstl hr.still :), rfl,
    hr.sameRecord hs.1 ⟨rfl, rfl, rfl, rfl, rfl, rfl, rfl, rfl, rfl, rfl, rfl⟩ (hlate.trans hk.symm) hraces,
    (congrArg State.curOp hr.still :), fun a => ?_⟩
  · rw [selAfter_append, selAfter_append, selAfter_refreshCommandEvents]; rfl
  · rw [modeAfter_append, modeAfter_append, modeAfter_refreshCommandEvents]; rfl
  · change u.fb.written a = _
    rw [hfb, Memory.written_fillFrom]
    simp [beginInit]

/-- Settles O21: INIT and WAKE are the same but for `cur_op`. -/
theorem initAndWakeRunTheInitSequence : Obligations.InitAndWakeRunTheInitSequence := by
  intro i f s p rest hi ha hv hs hk hb
  rcases hi with rfl | rfl
  · rw [if_pos rfl]
    exact initOp_runs (.inl rfl) ha hv hs hk hb
  · rw [if_neg (by simp)]
    exact initOp_runs (.inr rfl) ha hv hs hk hb

/-! ## SLEEP -/

/-- Settles O27: the whole list is one script, with no polling loop in it, and its last step is the only one that writes the
sequencer's registers. -/
theorem sleepRunsTheSleepSequence : Obligations.SleepRunsTheSleepSequence := by
  intro f s ha hi hs hk
  have hd : decodeWire 0x10#8 = .ok .deepSleep := rfl
  obtain ⟨t, r, hview⟩ := runItems_undisturbed (v := sleepDone { beginSleep s with seq := 3 })
    (program_known s.cfg .sleep) (b := beginSleep s) (es := sleepEvents s.cfg) hs
    (by simp [program, itemsScript, itemScript, hd])
    (by simp [program, itemsScript, itemScript, itemView, hd, panelScript_events, panelEvents, sleepEvents, State.advance, Cfg.delay,
          beginSleep, State.view])
    (by rw [itemsView_still _ rfl]; rfl)
  have hlate : Late (beginSleep s).view t.view := hview ▸ itemsView_late (by simp [program]) _
  obtain ⟨hfb, -, hraces⟩ := hlate.quiet hk
  have hlist : runRest (beginSleep s) = .ok t := r.run
  refine ⟨t, (gated_accepted ha hi beginSleep).trans (by rw [hlist]; rfl), r.trace, ?_⟩
  exact ⟨(congrArg State.ctl r.still :), (congrArg State.initialized r.still :).trans hi, (congrArg State.poweredOn r.still :),
    (congrArg State.active r.still :), (congrArg State.opDone r.still :), r.sel, r.mode, (congrArg State.rstl r.still :),
    (congrArg State.busyIn r.still :), hfb,
    r.sameRecord hs.1 ⟨rfl, rfl, rfl, rfl, rfl, rfl, rfl, rfl, rfl, rfl, rfl⟩ ((hlate.nil hk).trans hk.symm) hraces,
    (congrArg State.curOp r.still :), (congrArg State.curFull r.still :), (congrArg State.ret r.still :)⟩

/-! ## The busy-wait that does not end -/

/-- The list of a REFRESH, INIT or WAKE up to its busy-wait, and then answers that are all true: the operation is where the loop
begins, with the polls on the trace. -/
theorem runItems_stays_busy {its : List Item} {b u v : State} {es : List Event} (r : RanList its b u v es) (hs : b.Undisturbed)
    (hv : v.cfg = b.cfg) {n : Nat} (hb : v.busyIn = List.replicate n true) (last : Item) :
    ∃ t, (runItems (its ++ [.poll, last]) b).toOutcome = .next t ∧ t.trace = b.trace ++ es ++ pollEvents b.cfg n ∧
      t.active = v.active ∧ t.ctl = v.ctl ∧ t.opDone = v.opDone ∧ t.initialized = v.initialized ∧ t.nextItem = v.nextItem := by
  have hbusy : u.busyIn = v.busyIn := (congrArg State.busyIn r.still :)
  obtain ⟨x, timer, hx, hrun⟩ := runItems_busy (r.undisturbed hs hv) (hbusy.trans hb) last
  refine ⟨x.polled n [] timer, by rw [runItems_append, r.run, Res.bind_ok, hrun]; rfl, ?_⟩
  have htrace : u.trace ++ pollEvents u.cfg n = b.trace ++ es ++ pollEvents b.cfg n := by rw [r.trace, r.cfg, hv]
  rcases hx with rfl | rfl <;>
    exact ⟨htrace, (congrArg State.active r.still :), (congrArg State.ctl r.still :), (congrArg State.opDone r.still :),
      (congrArg State.initialized r.still :), (congrArg State.nextItem r.still :)⟩

/-- The item after the front of a list. -/
theorem getElem?_after_front {its rest : List Item} {it : Item} : (its ++ it :: rest)[0 + its.length]? = some it := by simp

theorem refresh_stays_busy (f : Bool) {s : State} {n : Nat} (ha : s.active = false) (hi : s.initialized = true)
    (hs : s.Undisturbed) (hk : s.HostKeepsOff) (hb : s.busyIn = List.replicate n true) :
    ∃ t, exec (.refresh f) s = .next t ∧
      t.trace = s.trace ++ refreshCommandEvents s.cfg s.fb.byteAt f ++ [.wait s.cfg.tSettle] ++ pollEvents s.cfg n ∧
      t.active = true ∧ t.ctl = .busy ∧ t.opDone = false ∧ t.initialized = true ∧ t.nextItem = some .poll := by
  obtain ⟨u, w, h⟩ := refreshFront_undisturbed (b := beginRefresh f s) hs
  have hbytes := h.bytes_of_no_late hk
  obtain ⟨t, hrun, htrace, hact, hctl, hdone, hinit, hnext⟩ := runItems_stays_busy h.ran hs rfl hb .refreshDone
  refine ⟨t, (gated_accepted ha hi _).trans (Eq.trans ?_ hrun), ?_, hact, hctl, hdone, hinit.trans hi, hnext.trans ?_⟩
  · rw [← refresh_program]; rfl
  · rw [htrace, hbytes, ← List.append_assoc]; rfl
  · change (program s.cfg .refresh)[0 + (refreshFront s.cfg).length]? = _
    rw [refresh_program]
    exact getElem?_after_front

theorem initOp_stays_busy {op : HostOp} (hop : op = .init ∨ op = .wake) {s : State} {n : Nat} (ha : s.active = false)
    (hv : s.cfg.valid = true) (hs : s.Undisturbed) (hk : s.HostKeepsOff) (hb : s.busyIn = List.replicate n true) :
    ∃ t, initOp op s = .next t ∧
      t.trace = s.trace ++ resetPulseEvents s.cfg ++ configureEvents s.cfg ++ fillEvents s.cfg
        ++ refreshCommandEvents s.cfg (fun _ => 0xFF) true ++ [.wait s.cfg.tSettle] ++ pollEvents s.cfg n ∧
      t.active = true ∧ t.ctl = .busy ∧ t.opDone = false ∧ t.initialized = s.initialized ∧ t.nextItem = some .poll := by
  obtain ⟨u, w, h⟩ := initFront_undisturbed (b := beginInit op s) hs
  have hlight : ∀ a < s.cfg.numBytes, w.readByte a = 0xFF := h.sent.read_light hk
  obtain ⟨t, hrun, htrace, hact, hctl, hdone, hinit, hnext⟩ := runItems_stays_busy h.ran hs rfl hb .initDone
  refine ⟨t, (initOp_accepted ha hv op).trans (by rw [runRest_beginInit hop]; exact hrun), ?_, hact, hctl, hdone, hinit,
    hnext.trans ?_⟩
  · have htrace : t.trace = s.trace ++ (resetPulseEvents s.cfg ++ configureEvents s.cfg ++ fillEvents s.cfg
      ++ refreshCommandEvents s.cfg w.readByte true ++ [.wait s.cfg.tSettle]) ++ pollEvents s.cfg n := htrace
    rw [htrace, refreshCommandEvents_congr hlight]
    simp only [List.append_assoc]
  · change (program s.cfg op)[0 + (initFront s.cfg).length]? = _
    have hprog : program s.cfg op = initFront s.cfg ++ [.poll, .initDone] := by
      rw [← init_program]
      rcases hop with rfl | rfl <;> rfl
    rw [hprog]
    exact getElem?_after_front

/-- Settles O35: with no answer left the transition stops in the loop, at the state the front of the list left. -/
theorem busyWaitDoesNotEndWhileBusy : Obligations.BusyWaitDoesNotEndWhileBusy := by
  intro n i f s hi ha hv hs hk hb
  refine ⟨fun hinit => refresh_stays_busy f ha hinit hs hk hb, ?_⟩
  rcases hi with rfl | rfl
  · exact initOp_stays_busy (.inl rfl) ha hv hs hk hb
  · exact initOp_stays_busy (.inr rfl) ha hv hs hk hb

/-! ## Streams -/

/-- The stream of a frame: its command byte and its arguments, whatever the select was. -/
theorem streamFrom_frameEvents (m : Mode) (c : Byte) (args : List Byte) :
    streamFrom m (frameEvents c args) = (.cmd, c) :: args.map (fun b => (.data, b)) := by
  cases args <;> simp [frameEvents, cmdEvents, dataEvents, streamFrom]

theorem streamFrom_cmdEvents (m : Mode) (c : Byte) : streamFrom m (cmdEvents c) = [(.cmd, c)] := rfl

/-- The stream of the data loop is the same in both framings (R130). -/
theorem streamFrom_dataLoopEvents (m : Mode) (c : Cfg) (f : Nat → Byte) :
    streamFrom m (dataLoopEvents c f) = (outBytes c f).map (fun b => (.data, b)) := by
  have hflat (bs : List Byte) : ∀ m, streamFrom m (bs.flatMap fun b => dataEvents [b]) = bs.map (fun b => (.data, b)) := by
    induction bs with
    | nil => exact fun _ => rfl
    | cons b bs ih => intro m; rw [List.flatMap_cons, streamFrom_append, ih]; rfl
  unfold dataLoopEvents
  split
  · exact hflat _ m
  · split
    · rename_i h0
      simp [outBytes, h0, streamFrom]
    · simp [dataEvents, streamFrom]

/-- Events that write no bytes have no stream. -/
theorem streamFrom_of_no_wr {es : List Event} (h : ∀ e ∈ es, ∀ bs, e ≠ .wr bs) (m : Mode) : streamFrom m es = [] := by
  induction es generalizing m with
  | nil => rfl
  | cons e es ih =>
    rw [List.forall_mem_cons] at h
    cases e with
    | wr bs => exact absurd rfl (h.1 bs)
    | _ => exact ih h.2 _

theorem busyWaitEvents_no_wr (c : Cfg) (p : Nat) : ∀ e ∈ busyWaitEvents c p, ∀ bs, e ≠ .wr bs := by
  simp only [busyWaitEvents, pollEvents, List.mem_append, List.mem_cons, List.mem_flatten, List.mem_replicate, List.not_mem_nil,
    or_false]
  rintro e ((rfl | ⟨l, ⟨-, rfl⟩, he⟩) | rfl) bs
  · simp
  · simp only [List.mem_cons, List.not_mem_nil, or_false] at he
    rcases he with rfl | rfl <;> simp
  · simp

/-- The stream of `RefreshSeq` (R129): 0x24 with the mapped bytes, 0x22 with its argument, 0x20. -/
theorem streamFrom_refreshEvents (m : Mode) (c : Cfg) (f : Nat → Byte) (full : Bool) (p : Nat) :
    streamFrom m (refreshEvents c f full p) =
      streamFrom m (if c.counterReset then frameEvents 0x4E c.argRamXCounter ++ frameEvents 0x4F c.argRamYCounter else [])
        ++ (.cmd, 0x24) :: (outBytes c f).map (fun b => (.data, b))
        ++ [(.cmd, 0x22), (.data, if full then 0xF7 else 0xFF), (.cmd, 0x20)] := by
  simp only [refreshEvents, refreshCommandEvents, streamFrom_append, streamFrom_cmdEvents, streamFrom_dataLoopEvents,
    streamFrom_frameEvents, streamFrom_of_no_wr (busyWaitEvents_no_wr c p)]
  simp

/-- Settles O30: the stream of the events of O23. -/
theorem refreshStream : Obligations.RefreshStream := by
  intro f s p rest ha hi hv hc hs hk hb
  obtain ⟨t, hexec, htrace, -⟩ := refreshRunsTheRefreshSequence f s p rest ha hi hv hs hk hb
  have hstream : stream (refreshEvents s.cfg s.fb.byteAt f p) = _ := streamFrom_refreshEvents .cmd s.cfg s.fb.byteAt f p
  refine ⟨t, _, hexec, htrace, ?_, ?_⟩
  · rw [hstream, hc]
    simp [streamFrom, outBytes, outByte, complementByte]
  · rw [hstream, hc]
    simp [streamFrom, outBytes]

/-- The command bytes of a stream. -/
def sentCommands (ps : List (Mode × Byte)) : List Byte := ps.filterMap fun p => if p.1 = .cmd then some p.2 else none

theorem commandBytes_eq (es : List Event) : commandBytes es = sentCommands (stream es) := rfl

theorem sentCommands_append (ps qs : List (Mode × Byte)) : sentCommands (ps ++ qs) = sentCommands ps ++ sentCommands qs :=
  List.filterMap_append

theorem sentCommands_mapped (c : Byte) (args : List Byte) :
    sentCommands ((.cmd, c) :: args.map (fun b => (.data, b))) = [c] := by
  simp [sentCommands, List.filterMap_map]

theorem sentCommands_frameEvents (m : Mode) (c : Byte) (args : List Byte) :
    sentCommands (streamFrom m (frameEvents c args)) = [c] := by rw [streamFrom_frameEvents, sentCommands_mapped]

/-- The command bytes of `Configure()` (R126). -/
theorem sentCommands_configureEvents (m : Mode) (c : Cfg) :
    sentCommands (streamFrom m (configureEvents c)) = [0x01, 0x11, 0x44, 0x45, 0x3C, 0x21, 0x18, 0x4E, 0x4F] := by
  simp only [configureEvents, streamFrom_append, sentCommands_append, sentCommands_frameEvents]
  rfl

theorem sentCommands_counterReset (m : Mode) (c : Cfg) :
    sentCommands (streamFrom m
      (if c.counterReset then frameEvents 0x4E c.argRamXCounter ++ frameEvents 0x4F c.argRamYCounter else [])) =
      if c.counterReset then [0x4E, 0x4F] else [] := by
  split
  · simp only [streamFrom_append, sentCommands_append, sentCommands_frameEvents]
    rfl
  · rfl

/-- Before its seed refresh INIT sends the frames of `Configure()` and nothing else. -/
theorem sentCommands_beforeSeed (c : Cfg) :
    sentCommands (stream (resetPulseEvents c ++ configureEvents c ++ fillEvents c)) =
      [0x01, 0x11, 0x44, 0x45, 0x3C, 0x21, 0x18, 0x4E, 0x4F] := by
  have hfill : ∀ e ∈ fillEvents c, ∀ bs, e ≠ .wr bs := by simp [fillEvents]
  rw [stream, streamFrom_append, streamFrom_append, streamFrom_of_no_wr hfill, List.append_nil, sentCommands_append,
    sentCommands_configureEvents]
  rfl

/-- The bytes of the seed refresh are the complement of the all-light buffer (R127, R151). -/
theorem outBytes_light (c : Cfg) : outBytes c (fun _ => 0xFF) = List.replicate c.numBytes 0x00 := by
  have hbyte : ∀ k ∈ List.range c.numBytes, outByte c (fun _ => 0xFF) k = 0x00 := fun _ _ =>
    (by decide : complementByte 0xFF = 0x00)
  rw [outBytes, List.map_congr_left hbyte, List.map_const', List.length_range]

/-- Settles O31: the stream of the events of O21, cut before the seed refresh's 0x24. -/
theorem initStreamSeedsOneFullRefresh : Obligations.InitStreamSeedsOneFullRefresh := by
  intro f s p rest ha hv hs hk hb
  obtain ⟨t, hexec, htrace, -⟩ := initAndWakeRunTheInitSequence (.init f) f s p rest (.inl rfl) ha hv hs hk hb
  have hstream : stream (initEvents s.cfg p) = _ := streamFrom_append _ _ _
  rw [streamFrom_refreshEvents, outBytes_light] at hstream
  refine ⟨t, _, hexec, htrace, ?_, ?_⟩
  · have hbefore := sentCommands_beforeSeed s.cfg
    rw [stream] at hbefore
    rw [commandBytes_eq, hstream, sentCommands_append, sentCommands_append, sentCommands_append, hbefore, sentCommands_counterReset,
      sentCommands_mapped, List.append_assoc, List.append_assoc]
    rfl
  · exact ⟨_, by rw [hstream, List.map_replicate, ← List.append_assoc, ← List.append_assoc]; rfl⟩

/-! ## Event counts (R138) -/

theorem length_frameEvents (c : Byte) {args : List Byte} (h : args ≠ []) : (frameEvents c args).length = 8 := by
  rw [frameEvents, if_neg h]
  rfl

theorem length_busyWaitEvents (c : Cfg) (p : Nat) : (busyWaitEvents c p).length = 2 * (p + 1) := by
  simp [busyWaitEvents, pollEvents]
  omega

/-- A refresh with the default parameters, whatever bytes it sends. -/
theorem length_refreshEvents {c : Cfg} (hc : c.counterReset = false) (hf : c.ramFraming = .perByte) (g : Nat → Byte) (full : Bool)
    (p : Nat) : (refreshEvents c g full p).length = 16 + 4 * c.numBytes + 2 * (p + 1) := by
  have hloop : (dataLoopEvents c g).length = 4 * c.numBytes := by
    rw [dataLoopEvents, hf]
    simp [List.length_flatMap, dataEvents, outBytes, Function.comp_def, Nat.mul_comm]
  rw [refreshEvents, refreshCommandEvents, hc, List.length_append, List.length_append, List.length_append, List.length_append,
    List.length_append, hloop, length_frameEvents _ (by simp), length_busyWaitEvents]
  simp [cmdEvents]
  omega

/-- Settles O32: the counts do not depend on the bytes, and so not on what the host writes. -/
theorem eventCounts : Obligations.EventCounts := by
  intro f s p rest ha hv hs hb hc hf h1 h2 h3 h4 h5 h6 h7 h8 h9
  have hrefresh (g : Nat → Byte) (full : Bool) := length_refreshEvents hc hf g full p
  refine ⟨?_, fun hi => ?_⟩
  · obtain ⟨u, w, timer, h, hexec⟩ := initOp_undisturbed (.inl rfl) ha hv hs hb
    have hconf : (configureEvents s.cfg).length = 72 := by
      simp only [configureEvents, List.length_append, length_frameEvents _ h1, length_frameEvents _ h2, length_frameEvents _ h3,
        length_frameEvents _ h4, length_frameEvents _ h5, length_frameEvents _ h6, length_frameEvents _ h7,
        length_frameEvents _ h8, length_frameEvents _ h9]
    refine ⟨_, hexec, ?_⟩
    simp only [initEnd_trace h, List.length_append, hrefresh, hconf, fillEvents, List.length_map, List.length_range,
      resetPulseEvents, List.length_cons, List.length_nil]
    omega
  · obtain ⟨u, w, timer, h, hexec⟩ := refresh_undisturbed f ha hi hs hb
    exact ⟨_, hexec, by rw [refreshEnd_trace h, List.length_append, hrefresh]⟩

end Sys2Proof.Machine
end

section
/-! PROOFS of the family 43_scan_order_mapper.md. The mapper's laws give all of it: `sentAt` and `srcIndex` are inverse below `N`,
and the working registers after `k` advances stand at position `k`. What is added here is Rotated's size `wid*tbc = N`. -/

namespace Sys2Proof.Machine

/-! ## The complement -/

/-- Settles O40: over one byte, bit by bit. -/
theorem complementInvertsEachBitInPlace : Obligations.ComplementInvertsEachBitInPlace := by
  refine fun b => ⟨?_, ?_, fun n hn => ?_⟩
  · show ~~~b = b ^^^ BitVec.allOnes 8
    rw [BitVec.xor_allOnes]
  · show (~~~b).toNat = 255 - b.toNat
    rw [BitVec.toNat_not]
  · show (~~~b).getLsbD n = _
    rw [BitVec.getLsbD_not, decide_eq_true hn, Bool.true_and]

/-! ## The closed form -/

/-- Rotated sends `wid*tbc = N` bytes, and has at least one byte-row (R154). -/
theorem rotated_numBytes {c : Cfg} (h : c.valid = true) (ho : c.orient = .rotated) :
    c.wid * c.tbc = c.numBytes ∧ 0 < c.tbc := by
  obtain ⟨q, hq, -, -, hn, hr⟩ := valid_geometry h
  obtain ⟨hw, ht⟩ := hr ho
  rw [hw, ht, hn]
  exact ⟨Nat.mul_comm _ _, hq⟩

theorem srcIndex_native {c : Cfg} (ho : c.orient = .native) (k : Nat) : srcIndex c k = k := by
  simp [srcIndex, ho]

theorem srcIndex_rotated {c : Cfg} (ho : c.orient = .rotated) (k : Nat) :
    srcIndex c k = c.wid * (c.tbc - 1 - k % c.tbc) + k / c.tbc := by
  simp [srcIndex, ho]

theorem srcIndex_eq_iff {c : Cfg} (h : c.valid = true) {i k : Nat} (hi : i < c.numBytes) (hk : k < c.numBytes) :
    srcIndex c k = i ↔ k = sentAt c i := by
  constructor
  · rintro rfl
    exact (sentAt_srcIndex h hk).symm
  · rintro rfl
    exact (srcIndex_sentAt h hi).2

/-- Settles O41: a map of `0 .. N-1` into itself with a left inverse repeats nothing, and so leaves nothing out. -/
theorem mapperIsAPermutation : Obligations.MapperIsAPermutation := by
  refine fun c h => ⟨?_, fun ho => (rotated_numBytes h ho).1⟩
  have hnodup : ((List.range c.numBytes).map (srcIndex c)).Nodup :=
    List.nodup_range.map_on fun j hj k hk hjk => by
      rw [← sentAt_srcIndex h (List.mem_range.1 hj), hjk, sentAt_srcIndex h (List.mem_range.1 hk)]
  have hsub : (List.range c.numBytes).map (srcIndex c) ⊆ List.range c.numBytes := fun i hi => by
    obtain ⟨k, hk, rfl⟩ := List.mem_map.1 hi
    exact List.mem_range.2 (srcIndex_lt (List.mem_range.1 hk))
  exact (hnodup.subperm hsub).perm_of_length_le (by simp)

/-- Settles O42: the two clauses on the orientation are `sentAt` written out. -/
theorem mapperInverse : Obligations.MapperInverse := by
  refine ⟨fun c i k h hi hk => ?_, fun c ho hw ht => ?_⟩
  · have hinv := srcIndex_eq_iff h hi hk
    refine ⟨(srcIndex_sentAt h hi).1, hinv, fun ho => ?_, fun ho => ?_⟩
    · rw [srcIndex_native ho]
    · rw [hinv, sentAt, ho]
  · simp [srcIndex_rotated ho, hw, ht]

/-- Settles O44: with one column `N` is `tbc`, so that no `k` below `N` leaves column 0. -/
theorem mapperCornerCases : Obligations.MapperCornerCases := by
  refine fun c k h hk => ⟨fun ho => srcIndex_native ho k, fun ho ht => ?_, fun ho hw => ?_, fun ho hw ht => ?_⟩
  · simp [Cfg.iidx, srcIndex_rotated ho, ht, Nat.mod_one]
  · have hkt : k < c.tbc := by simpa [← (rotated_numBytes h ho).1, hw] using hk
    simp [srcIndex_rotated ho, hw, Nat.mod_eq_of_lt hkt, Nat.div_eq_of_lt hkt]
  · simp [← (rotated_numBytes h ho).1, hw, ht]

/-! ## The working registers -/

theorem mapAdvance_iterate_mapStart_atPosition (s : State) (k : Nat) : (State.mapAdvance^[k] s.mapStart).AtPosition k := by
  simpa using mapAdvance_iterate_atPosition (mapStart_atPosition s) k

@[simp] theorem mapAdvance_iterate_mapStart_cfg (s : State) (k : Nat) : (State.mapAdvance^[k] s.mapStart).cfg = s.cfg := by
  rw [mapAdvance_iterate_cfg, mapStart_cfg]

theorem mapIndex_iterate_mapStart (s : State) (k : Nat) :
    (State.mapAdvance^[k] s.mapStart).mapIndex = srcIndex s.cfg k := by
  rw [mapIndex_atPosition (mapAdvance_iterate_mapStart_atPosition s k), mapAdvance_iterate_mapStart_cfg]

/-- Position `N` is the head of column `wid`, one past the last, and its index is `N` (R159). -/
theorem rotated_end {c : Cfg} (h : c.valid = true) (ho : c.orient = .rotated) :
    c.numBytes / c.tbc = c.wid ∧ c.numBytes % c.tbc = 0 ∧ srcIndex c c.numBytes = c.numBytes := by
  obtain ⟨hN, hpos⟩ := rotated_numBytes h ho
  have hdiv : c.numBytes / c.tbc = c.wid := by rw [← hN, Nat.mul_div_cancel _ hpos]
  have hmod : c.numBytes % c.tbc = 0 := by rw [← hN, Nat.mul_mod_left]
  refine ⟨hdiv, hmod, ?_⟩
  calc srcIndex c c.numBytes = c.wid * (c.tbc - 1) + c.wid := by rw [srcIndex_rotated ho, hdiv, hmod, Nat.sub_zero]
    _ = c.wid * (c.tbc - 1 + 1) := by rw [Nat.mul_add, Nat.mul_one]
    _ = c.numBytes := by rw [Nat.sub_add_cancel hpos, hN]

/-- Settles O43: after `k` advances the registers stand at position `k`, also past the last byte. -/
theorem mapperRegistersFollowTheClosedForm : Obligations.MapperRegistersFollowTheClosedForm := by
  intro s k h
  obtain ⟨hk, hr⟩ := mapAdvance_iterate_mapStart_atPosition s s.cfg.numBytes
  refine ⟨fun _ => mapIndex_iterate_mapStart s k, hk, fun ho => ?_⟩
  obtain ⟨hdiv, hmod, hend⟩ := rotated_end h ho
  rw [mapAdvance_iterate_mapStart_cfg, hdiv, hmod] at hr
  obtain ⟨hh, hv⟩ := hr ho
  exact ⟨hh, hv, by rw [mapIndex_iterate_mapStart, hend]⟩

end Sys2Proof.Machine
end

section
/-! PROOFS of the family 60_exceptions.md. Every instruction is a script or a rejection, so that it has an outcome; a whole operation
whose panel settles is one script without a pause, and a transport failure cuts a script where its primitive stands. -/

namespace Sys2Proof.Machine

/-! ## Every instruction has an outcome (60_exceptions.md R170) -/

theorem Scripted.has_outcome {f : State → Res} {as : List Action} {P Q : State → Prop} (hf : Scripted f as P Q) {s : State}
    (hs : P s) : ∃ t, (f s).toOutcome = .next t := hf.eq s hs ▸ runScript_next hf.tame s

theorem runRest_has_outcome (s : State) : ∃ t, (runRest s).toOutcome = .next t := by
  obtain ⟨heq, htame, -⟩ := runRest_script s
  exact heq ▸ runScript_next htame s

theorem whenReady_has_outcome {s : State} {accepted : State → Host.Outcome State Fault Refusal}
    (h : ∃ t, accepted s = .next t) : ∃ t, whenReady s accepted = .next t := by
  unfold whenReady
  split
  · exact ⟨s, rfl⟩
  · exact h

theorem initOp_has_outcome (op : HostOp) (s : State) : ∃ t, initOp op s = .next t := by
  refine whenReady_has_outcome ?_
  split
  · exact runRest_has_outcome _
  · exact ⟨_, rfl⟩

theorem gated_has_outcome (begun : State → State) (s : State) : ∃ t, gated begun s = .next t := by
  refine whenReady_has_outcome ?_
  split
  · exact runRest_has_outcome _
  · exact ⟨_, rfl⟩

theorem reservedOp_has_outcome (s : State) : ∃ t, reservedOp s = .next t := whenReady_has_outcome ⟨_, rfl⟩

/-- Settles O37: a panel command is its script, and a host word runs the rest of a list or is answered at once. -/
theorem everyInstructionRuns : Obligations.EveryInstructionRuns := by
  intro i s
  cases hf : i.format with
  | wire8 => exact exec_panel hf s ▸ (issue_scripted (decodeWire_of_format hf) s.view).has_outcome rfl
  | host4 =>
    cases i with
    | init _ | wake _ => exact initOp_has_outcome _ s
    | refresh _ | sleep _ => exact gated_has_outcome _ s
    | reserved0 _ | reserved5 _ | reserved6 _ | reserved7 _ => exact reservedOp_has_outcome s
    | _ => cases hf

/-! ## The geometry check (R173) -/

/-- The geometries R8 calls invalid are those the check rejects (00_scope.md R8). -/
theorem not_valid_iff (c : Cfg) : c.valid ≠ true ↔ c.pw < 8 ∨ c.pw % 8 ≠ 0 ∨ c.ph < 1 := by
  simp only [Cfg.valid, ne_eq, Bool.and_eq_true, decide_eq_true_eq]
  omega

/-- Settles O29: the check fails before the sequence begins. -/
theorem invalidGeometryIsRejectedBeforeAnyEvent : Obligations.InvalidGeometryIsRejectedBeforeAnyEvent := by
  intro f s ha hg
  have hv := (not_valid_iff s.cfg).2 hg
  exact ⟨initOp_rejected ha hv .init, initOp_rejected ha hv .wake⟩

/-! ## What a transport failure leaves (R172, R178) -/

/-- The work begun in `s` has ended in `t` with a transport failure, after the events `es`: the TransportError's record is
taken, the pins follow `es`, and the failures scheduled after this one are `later`. -/
abbrev State.FailedAfter (s t : State) (es : List Event) (later : List Nat) : Prop :=
  t.trace = s.trace ++ es ∧ t.TransportErrorTaken ∧ s.PinsFollow t es ∧ t.cfg = s.cfg ∧ t.skip = s.skip ∧ t.ill = s.ill ∧
    t.host = s.host ∧ t.txFail = later

/-- Taking the TransportError in the state that a cut script has reached. -/
theorem failedAfter_transportError {s u : State} {es : List Event} {later : List Nat} (htrace : u.trace = s.trace ++ es)
    (hpins : s.PinsFollow u es) (hkept : Kept s u) (htx : u.txFail = later) :
    s.FailedAfter (transportError u) es later :=
  ⟨htrace, transportError_taken u, hpins, hkept.cfg, hkept.skip, hkept.ill, hkept.host, htx⟩

/-! ## Panel commands -/

theorem frameEvents_primitive (c : Byte) (args : List Byte) : ∀ e ∈ frameEvents c args, e.isPrimitive = true := by
  refine List.forall_mem_append.2 ⟨cmdEvents_primitive c, ?_⟩
  split
  · simp
  · exact dataEvents_primitive args

theorem dataLoopEvents_primitive (c : Cfg) (byteAt : Nat → Byte) : ∀ e ∈ dataLoopEvents c byteAt, e.isPrimitive = true := by
  unfold dataLoopEvents
  split
  · intro e he
    obtain ⟨b, -, hb⟩ := List.mem_flatMap.1 he
    exact dataEvents_primitive [b] e hb
  · split
    · simp
    · exact dataEvents_primitive _

/-- A panel command is made of transport primitives alone. -/
theorem panelEvents_primitive (i : Instr) (s : State) : ∀ e ∈ panelEvents i s, e.isPrimitive = true := by
  cases i with
  | writeRam => exact List.forall_mem_append.2 ⟨cmdEvents_primitive _, dataLoopEvents_primitive _ _⟩
  | activate => exact cmdEvents_primitive _
  | init _ | refresh _ | sleep _ | wake _ | reserved0 _ | reserved5 _ | reserved6 _ | reserved7 _ => simp [panelEvents]
  | _ => exact frameEvents_primitive _ _

/-- No transport primitive writes the framebuffer. -/
theorem memAfter_of_primitive {es : List Event} (h : ∀ e ∈ es, e.isPrimitive = true) (raced : Memory) (races : Nat)
    (m : Memory) : memAfter raced races m es = m := by
  induction es with
  | nil => rfl
  | cons e es ih =>
    rw [List.forall_mem_cons] at h
    cases e with
    | fbWr _ _ => cases h.1
    | _ => exact ih h.2

/-- No late write lands within a panel command. -/
theorem panelScript_calm {i : Instr} (hf : i.format = .wire8) (v s : State) : Calm (panelScript i v) s := by
  have h := stepScript_calm (.cmd (encode i)) v s
  simp only [stepScript, itemScript, decodeWire_of_format hf] at h
  exact h.tail rfl rfl

/-- Settles O20: the script of the command is cut at its primitive `j`, and no primitive writes the framebuffer. -/
theorem transportErrorCutsAPanelCommand : Obligations.TransportErrorCutsAPanelCommand := by
  intro i s j rest hw _ hr he htx hj
  have hf := wellFormedOn_iff.1 hw
  have hevents : scriptEvents (panelScript i s.view) = panelEvents i s := panelScript_events i s.view
  have hprim := panelEvents_primitive i s
  obtain ⟨u, hrun, htrace, htraced, hkept, hlater⟩ := (issue_scripted (decodeWire_of_format hf) s.view).txCut
    (panelScript_unpaused i s.view) (hevents ▸ hprim) rfl hr he htx (hevents ▸ hj)
  rw [hevents] at htrace htraced
  have hfb : u.fb = s.fb := by
    rw [(htraced.mem (panelScript_calm hf _ _)).fb, memAfter_of_primitive fun e h => hprim e (List.mem_of_mem_take h)]
  obtain ⟨h1, h2, h3, h4, h5⟩ := failedAfter_transportError htrace htraced.pins hkept hlater
  exact ⟨transportError u, by rw [exec_panel hf, hrun]; rfl, h1, h2, h3, h4, hfb, h5⟩

/-! ## Whole operations as scripts -/

/-- The operation in progress in `b` runs to its end as one script without a pause, with the events `es`. -/
structure RunsThrough (b : State) (es : List Event) : Prop where
  unpaused : Unpaused (itemsScript (b.program.drop b.seq) b.view)
  events : scriptEvents (itemsScript (b.program.drop b.seq) b.view) = es

/-- The polling loop and the last step, where the panel settles. -/
theorem pollThenLast_script {w : State} {p : Nat} {rest : List Bool} (hb : w.PanelSettles p rest) {last : Item}
    (hl : last = .initDone ∨ last = .refreshDone) :
    Unpaused (itemsScript [.poll, last] w) ∧
      scriptEvents (itemsScript [.poll, last] w) = pollEvents w.cfg p ++ [.busy false] := by
  obtain ⟨hpoll, hevents⟩ := pollScript_settles w.cfg.tPoll p rest
  rcases hl with rfl | rfl <;> simp [itemsScript, itemScript, hb, hpoll, hevents, pollEvents, Cfg.delay]

/-- An operation whose list ends with the polling loop and one more step, with the script of the steps before them known. -/
theorem runsThrough_of_front {b w : State} {front : List Item} {last : Item} {es : List Event} {p : Nat} {rest : List Bool}
    (hlist : b.program.drop b.seq = front ++ [.poll, last]) (hl : last = .initDone ∨ last = .refreshDone)
    (hu : Unpaused (itemsScript front b.view)) (he : scriptEvents (itemsScript front b.view) = es)
    (hstill : (itemsView front b.view).still = w.still) (hcfg : w.cfg = b.cfg) (hb : w.PanelSettles p rest) :
    RunsThrough b (es ++ (pollEvents b.cfg p ++ [.busy false])) := by
  have hc : (itemsView front b.view).cfg = b.cfg := (congrArg State.cfg hstill :).trans hcfg
  have hbusy : (itemsView front b.view).PanelSettles p rest := (congrArg State.busyIn hstill :).trans hb
  obtain ⟨htail, htailEvents⟩ := pollThenLast_script hbusy hl
  constructor
  · rw [hlist, itemsScript_append]
    exact unpaused_append.2 ⟨hu, htail⟩
  · rw [hlist, itemsScript_append, scriptEvents_append, he, htailEvents, hc]

/-- REFRESH with a host that keeps off the framebuffer sends it as it stands (R129). -/
theorem beginRefresh_runsThrough (f : Bool) {s : State} {p : Nat} {rest : List Bool} (hk : s.HostKeepsOff)
    (hb : s.PanelSettles p rest) : RunsThrough (beginRefresh f s) (refreshEvents s.cfg s.fb.byteAt f p) := by
  obtain ⟨hu, ⟨w, hw, he⟩, -, hstill⟩ := refreshFront_script (beginRefresh f s).view
  have hbytes : w.readByte = s.fb.byteAt := by
    obtain ⟨hfb, hraced, -⟩ := hw.quiet hk
    rw [readByte_of_raced_nil hraced, hfb]
    rfl
  have h := runsThrough_of_front (b := beginRefresh f s) (refresh_program s.cfg) (.inr rfl) hu he hstill rfl hb
  have hcfg : (beginRefresh f s).view.cfg = s.cfg := rfl
  have hfull : (beginRefresh f s).view.curFull = f := rfl
  rw [hbytes, hcfg, hfull] at h
  simpa [refreshEvents, busyWaitEvents] using h

/-- INIT and WAKE with a host that keeps off the framebuffer seed the all-light buffer (R123, R127). -/
theorem beginInit_runsThrough {op : HostOp} (hop : op = .init ∨ op = .wake) {s : State} {p : Nat} {rest : List Bool}
    (hk : s.HostKeepsOff) (hb : s.PanelSettles p rest) : RunsThrough (beginInit op s) (initEvents s.cfg p) := by
  obtain ⟨hu, ⟨w, hw, he⟩, -, hstill⟩ := initFront_script (beginInit op s).view
  have hlist : (beginInit op s).program = initFront s.cfg ++ [.poll, .initDone] := by
    rw [← init_program]
    rcases hop with rfl | rfl <;> rfl
  have hlight : ∀ a < s.cfg.numBytes, w.readByte a = 0xFF := hw.read_light hk
  have h := runsThrough_of_front (b := beginInit op s) hlist (.inl rfl) hu he hstill rfl hb
  have hcfg : (beginInit op s).view.cfg = s.cfg := rfl
  rw [hcfg, refreshCommandEvents_congr hlight] at h
  simpa [initEvents, refreshEvents, busyWaitEvents] using h

/-- SLEEP has no polling loop (R134). -/
theorem beginSleep_runsThrough (s : State) : RunsThrough (beginSleep s) (sleepEvents s.cfg) := by
  have hd : decodeWire 0x10#8 = .ok .deepSleep := rfl
  have hlist : (beginSleep s).program.drop (beginSleep s).seq = [.cmd 0x10, .wait .tSleep, .sleepDone] := rfl
  constructor
  · rw [hlist]
    simp [itemsScript, itemScript, hd]
  · rw [hlist]
    simp [itemsScript, itemScript, itemView, hd, panelScript_events, panelEvents, sleepEvents, Cfg.delay, State.view]

/-! ## Acceptance -/

/-- Acceptance in `s` has begun an operation in `b`: no event, and neither the pins nor the record nor the inputs are written. -/
structure Begun (s b : State) : Prop where
  trace : b.trace = s.trace
  pins : s.PinsFollow b []
  kept : Kept s b
  txFail : b.txFail = s.txFail
  resetIn : b.resetIn = s.resetIn

theorem begun_init (op : HostOp) (s : State) : Begun s (beginInit op s) :=
  ⟨rfl, ⟨rfl, rfl, rfl⟩, (beginInit_keeps op).kept s, rfl, rfl⟩
theorem begun_refresh (f : Bool) (s : State) : Begun s (beginRefresh f s) :=
  ⟨rfl, ⟨rfl, rfl, rfl⟩, (beginRefresh_keeps f).kept s, rfl, rfl⟩
theorem begun_sleep (s : State) : Begun s (beginSleep s) := ⟨rfl, ⟨rfl, rfl, rfl⟩, beginSleep_keeps.kept s, rfl, rfl⟩

/-- A word that starts its sequence runs the whole operation as one script without a pause, where the host keeps off the
framebuffer and the panel settles. -/
theorem startsSequence_runsThrough {i : Instr} {s : State} {p : Nat} {rest : List Bool} (hstart : startsSequence i s)
    (hk : s.HostKeepsOff) (hb : (∀ f, i ≠ .sleep f) → s.PanelSettles p rest) :
    ∃ b, Begun s b ∧ exec i s = (runRest b).toOutcome ∧ RunsThrough b (operationEvents i s p) := by
  obtain ⟨ha, hstart⟩ := hstart
  cases i with
  | init f => exact ⟨_, begun_init .init s, initOp_accepted ha hstart .init, beginInit_runsThrough (.inl rfl) hk (hb (by simp))⟩
  | wake f => exact ⟨_, begun_init .wake s, initOp_accepted ha hstart .wake, beginInit_runsThrough (.inr rfl) hk (hb (by simp))⟩
  | refresh f =>
    obtain ⟨hi, -⟩ := hstart
    exact ⟨_, begun_refresh f s, gated_accepted ha hi (beginRefresh f), beginRefresh_runsThrough f hk (hb (by simp))⟩
  | sleep f => exact ⟨_, begun_sleep s, gated_accepted ha hstart beginSleep, beginSleep_runsThrough s⟩
  | _ => exact hstart.elim

/-- Settles O38: the one script of the operation is cut at its primitive `j`. -/
theorem transportErrorEndsAnOperationPrecisely : Obligations.TransportErrorEndsAnOperationPrecisely := by
  intro i s p j rest later hstart hk hr hb he htx hj
  obtain ⟨b, hbegun, hexec, hunpaused, hevents⟩ := startsSequence_runsThrough hstart hk hb
  obtain ⟨hrest, htame, -⟩ := runRest_script b
  obtain ⟨u, hrun, htrace, htraced, hkept, hlater⟩ := runScript_txCut htame hunpaused (hbegun.resetIn.trans hr)
    (hbegun.kept.cfg.symm ▸ he) (hbegun.txFail.trans htx) (hevents.symm ▸ hj)
  rw [hevents] at htrace htraced
  refine ⟨transportError u, by rw [hexec, hrest, hrun]; rfl, failedAfter_transportError ?_
    (pinsFollow_trans hbegun.pins htraced.pins) (hbegun.kept.trans hkept) hlater⟩
  rw [htrace, hbegun.trace]

end Sys2Proof.Machine
end

section
/-! PROOFS of the family 70_reset_and_hazards.md. A hardware reset cuts the one script of an operation; a host write during an
operation lands before a step, and what it can change there is carried to the end of the operation; the least durations are read off
the waits on the trace. -/

namespace Sys2Proof.Machine

/-! ## A hardware reset during an operation (R195, R196) -/

/-- Settles O39: the one script of the operation is cut after its event `j`, and what is left is `hardReset` of the state reached. -/
theorem hardwareResetEndsAnOperationAtOnce : Obligations.HardwareResetEndsAnOperationAtOnce := by
  intro i s p j rest hstart hk hb htx hr hj
  obtain ⟨b, hbegun, hexec, hunpaused, hevents⟩ := startsSequence_runsThrough hstart hk hb
  obtain ⟨hrest, htame, -⟩ := runRest_script b
  have htx' : b.cfg.hasTxErr = false ∨ b.txFail = [] := by rw [hbegun.kept.cfg, hbegun.txFail]; exact htx
  obtain ⟨u, hrun, htrace, hkept⟩ := runScript_resetCut htame hunpaused htx' (hbegun.resetIn.trans hr) (hevents.symm ▸ hj)
  refine ⟨hardReset u, by rw [hexec, hrest, hrun]; rfl, ?_, hardReset_values u, hkept.cfg.trans hbegun.kept.cfg⟩
  rw [hardReset_trace, htrace, hevents, hbegun.trace]

/-! ## A late write lands (R207) -/

/-- Before a step that is not the fill, late writes only make old bytes new. -/
theorem land_late {it : Item} (h : it ≠ .fill) (s : State) : Late s (s.land it) := by
  have hf : (it == .fill) = false := by simpa using h
  rw [State.land, hf]
  exact landStep_late s

/-- The one late write of a position lands: it is used up, and the framebuffer gets its byte. -/
theorem landStep_one {s : State} {w : LateWrite} (hl : s.late = [w]) (hw : w.seq = s.seq) (ha : w.addr < s.cfg.numBytes)
    (inFill : Bool) : (landStep inFill s).late = [] ∧ (landStep inFill s).fb.written w.addr = some w.val := by
  simp [landStep, landAll, landOne, hl, hw, ha, Memory.written_write]

/-- Before the fill, the block reads at a contested address 0xFF or the byte that the host has just written there. -/
theorem landStep_fill_read {s : State} {a : Nat} {v : Byte} (hv : ∀ w ∈ s.late, w.addr = a → w.val = v)
    (hfb : (landStep true s).fb.written a = some v) :
    (landStep true s).readByte a = v ∨ (landStep true s).readByte a = 0xFF := by
  cases hr : (landStep true s).raced.written a with
  | none => exact .inl ((Memory.over_of_none hr).trans (Memory.byteAt_of_written hfb))
  | some b =>
    have hread : (landStep true s).readByte a = b := by rw [State.readByte, Memory.over, hr]; rfl
    rw [hread]
    obtain ⟨hfill | ⟨w, hw, ha, hb⟩, -⟩ := (landStep_fill s a).2 b hr
    · exact .inr hfill
    · exact .inl (hb.trans (hv w hw ha))

/-- Settles O26: outside the fill by `Late`, and at the fill because the block reads its own record or the framebuffer, and writes its
own byte or leaves the framebuffer's. -/
theorem aLateWriteLandsBeforeItsStep : Obligations.ALateWriteLandsBeforeItsStep := by
  intro it w s hl hw ha
  obtain ⟨hlate, hfb⟩ := landStep_one hl hw ha (it == .fill)
  refine ⟨hlate, hfb, fun hit => ?_, fun hit => ?_⟩
  · rcases (land_late hit s).read w.addr with hold | ⟨w', hw', -, hnew⟩
    · exact .inr hold
    · rw [hl, List.mem_singleton] at hw'
      exact .inl (hw' ▸ hnew)
  · subst hit
    refine ⟨landStep_fill_read (by simp [hl]) hfb, ?_⟩
    rcases settle_or _ _ _ 0xFF w.addr with hfill | ⟨-, hhost⟩
    · exact .inr hfill
    · exact .inl (hhost.trans (Memory.byteAt_of_written hfb))

/-! ## Host writes during REFRESH, INIT and WAKE (R207) -/

/-- From the busy-wait to the last step, late writes only make old bytes new. -/
theorem settled_late (u : State) (p : Nat) (rest : List Bool) (timer : Nat) {last : Item} (hl : last ≠ .fill) :
    Late u (((u.land .poll).settled p rest timer).land last) := by
  have hpoll : Late u ((u.land .poll).settled p rest timer) := (land_late (by simp) u).trans (.of_eq rfl rfl rfl rfl)
  exact hpoll.trans (land_late hl _)

theorem refreshEnd_late (u : State) (p : Nat) (rest : List Bool) (timer : Nat) : Late u (refreshEnd u p rest timer) :=
  (settled_late u p rest timer (last := .refreshDone) (by simp)).trans (.of_eq rfl rfl rfl rfl)

theorem initEnd_late (u : State) (p : Nat) (rest : List Bool) (timer : Nat) : Late u (initEnd u p rest timer) :=
  (settled_late u p rest timer (last := .initDone) (by simp)).trans (.of_eq rfl rfl rfl rfl)

/-- Settles O24: no step of `RefreshSeq` is a fill, so that every landing makes an old byte new. -/
theorem refreshSendsTheOldOrTheNewByte : Obligations.RefreshSendsTheOldOrTheNewByte := by
  intro f s p rest ha hi _ hs hb
  obtain ⟨u, w, timer, h, hexec⟩ := refresh_undisturbed f ha hi hs hb
  have hr := h.ran
  have hbytes : (beginRefresh f s).readByte = s.fb.byteAt := readByte_of_raced_nil rfl
  exact ⟨_, w.readByte, hexec, refreshEnd_trace h p rest timer, (congrArg State.ret hr.still :),
    (congrArg State.initialized hr.still :).trans hi, (congrArg State.poweredOn hr.still :), rfl, rfl, hbytes ▸ h.sent.read,
    (h.left.trans (refreshEnd_late u p rest timer)).fb⟩

/-- INIT or WAKE, undisturbed, with a panel that settles, whatever the host writes. -/
theorem initOp_unsettled {op : HostOp} (hop : op = .init ∨ op = .wake) {s : State} {p : Nat} {rest : List Bool}
    (ha : s.active = false) (hv : s.cfg.valid = true) (hs : s.Undisturbed) (hb : s.PanelSettles p rest) :
    ∃ t bytes, initOp op s = .next t ∧
      t.trace = s.trace ++ resetPulseEvents s.cfg ++ configureEvents s.cfg ++ fillEvents s.cfg
        ++ refreshEvents s.cfg bytes true p ∧
      t.ctl = .idle ∧ t.initialized = true ∧ t.poweredOn = true ∧ t.active = false ∧ t.opDone = true ∧
      ∀ a, (a < s.cfg.numBytes → bytes a = 0xFF ∨ ∃ w ∈ s.late, w.addr = a ∧ bytes a = w.val) ∧
        ((t.fb.written a = if a < s.cfg.numBytes then some 0xFF else s.fb.written a) ∨
          ∃ w ∈ s.late, w.addr = a ∧ t.fb.written a = some w.val) := by
  obtain ⟨u, w, timer, h, hexec⟩ := initOp_undisturbed hop ha hv hs hb
  have hend : Filled (beginInit op s) (initEnd u p rest timer) := h.left.trans (initEnd_late u p rest timer)
  exact ⟨_, w.readByte, hexec, by rw [initEnd_trace h]; simp only [List.append_assoc], rfl, rfl, rfl, rfl, rfl,
    fun a => ⟨h.sent.read a, hend.fb a⟩⟩

/-- Settles O25: INIT and WAKE have the one list. -/
theorem initIsUnsettledOnlyWhereTheHostWrites : Obligations.InitIsUnsettledOnlyWhereTheHostWrites := by
  intro i f s p rest hi ha hv hs hb
  rcases hi with rfl | rfl
  · exact initOp_unsettled (.inl rfl) ha hv hs hb
  · exact initOp_unsettled (.inr rfl) ha hv hs hb

/-! ## Least durations (R220) -/

theorem minDuration_append (es fs : List Event) : minDuration (es ++ fs) = minDuration es + minDuration fs := by
  simp [minDuration]

theorem minDuration_pollEvents (c : Cfg) (p : Nat) : minDuration (pollEvents c p) = p * c.tPoll := by
  induction p with
  | zero => simp [pollEvents, minDuration]
  | succ p ih =>
    have hone : minDuration (pollEvents c 1) = c.tPoll := by simp [pollEvents, minDuration, Event.minMs]
    rw [pollEvents_add, minDuration_append, ih, hone, Nat.succ_mul]

theorem minDuration_busyWaitEvents (c : Cfg) (p : Nat) : minDuration (busyWaitEvents c p) = c.tSettle + p * c.tPoll := by
  rw [busyWaitEvents, minDuration_append, ← List.singleton_append, minDuration_append, minDuration_pollEvents]
  simp [minDuration, Event.minMs]

theorem minDuration_resetPulseEvents (c : Cfg) : minDuration (resetPulseEvents c) = 3 * c.tRst := by
  simp [resetPulseEvents, minDuration, Event.minMs]
  omega

theorem delaysLegal_iff (c : Cfg) : c.delaysLegal = true ↔ 200 ≤ c.tRst ∧ 50 ≤ c.tSettle ∧ 100 ≤ c.tPoll := by
  simp [Cfg.delaysLegal, and_assoc]

/-- A refresh lasts as long as its busy-wait, whatever bytes it sends. -/
theorem le_minDuration_refreshEvents {c : Cfg} (h : c.delaysLegal = true) (g : Nat → Byte) (full : Bool) (p : Nat) :
    50 + 100 * p ≤ minDuration (refreshEvents c g full p) := by
  obtain ⟨-, hsettle, hpoll⟩ := (delaysLegal_iff c).1 h
  have hpolls : p * 100 ≤ p * c.tPoll := Nat.mul_le_mul_left p hpoll
  rw [refreshEvents, minDuration_append, minDuration_busyWaitEvents]
  omega

theorem refresh_lasts (f : Bool) {s t : State} {p : Nat} {rest : List Bool} (hd : s.cfg.delaysLegal = true)
    (hstart : startsSequence (.refresh f) s) (hs : s.Undisturbed) (hb : s.PanelSettles p rest)
    (hexec : exec (.refresh f) s = .next t) : minDuration s.trace + (50 + 100 * p) ≤ minDuration t.trace := by
  obtain ⟨ha, hi, -⟩ := hstart
  obtain ⟨u, w, timer, h, hend⟩ := refresh_undisturbed f ha hi hs hb
  cases hexec.symm.trans hend
  rw [refreshEnd_trace h, minDuration_append]
  exact Nat.add_le_add_left (le_minDuration_refreshEvents hd w.readByte f p) _

/-- The three waits of the reset pulse come before the seed refresh. -/
theorem initOp_lasts {op : HostOp} (hop : op = .init ∨ op = .wake) {s t : State} {p : Nat} {rest : List Bool}
    (hd : s.cfg.delaysLegal = true) (ha : s.active = false) (hv : s.cfg.valid = true) (hs : s.Undisturbed)
    (hb : s.PanelSettles p rest) (hexec : initOp op s = .next t) :
    minDuration s.trace + (650 + 100 * p) ≤ minDuration t.trace := by
  obtain ⟨u, w, timer, h, hend⟩ := initOp_undisturbed hop ha hv hs hb
  cases hexec.symm.trans hend
  obtain ⟨hrst, -, -⟩ := (delaysLegal_iff s.cfg).1 hd
  have hrefresh := le_minDuration_refreshEvents hd w.readByte true p
  simp only [initEnd_trace h, minDuration_append, minDuration_resetPulseEvents]
  omega

/-- SLEEP waits for `T_SLEEP`, whatever the host writes. -/
theorem sleep_lasts (f : Bool) {s t : State} (hstart : startsSequence (.sleep f) s) (hs : s.Undisturbed)
    (hexec : exec (.sleep f) s = .next t) : minDuration s.trace + s.cfg.tSleep ≤ minDuration t.trace := by
  obtain ⟨ha, hi⟩ := hstart
  obtain ⟨hunpaused, hevents⟩ := beginSleep_runsThrough s
  obtain ⟨hrest, htame, -⟩ := runRest_script (beginSleep s)
  obtain ⟨u, r⟩ := runScript_undisturbed htame hunpaused (s := beginSleep s) hs
  have hend : exec (.sleep f) s = .next u := (gated_accepted ha hi beginSleep).trans (by rw [hrest, r.run]; rfl)
  cases hexec.symm.trans hend
  have htrace : t.trace = s.trace ++ sleepEvents s.cfg := hevents ▸ r.trace
  have hwait : minDuration [.wait s.cfg.tSleep] = s.cfg.tSleep := by simp [minDuration, Event.minMs]
  rw [htrace, sleepEvents, minDuration_append, minDuration_append, hwait]
  omega

/-- Settles O33: by the waits on the trace of each operation. -/
theorem leastDurations : Obligations.LeastDurations := by
  intro i s t p rest hd hstart hs hb hexec
  cases i with
  | init f => exact initOp_lasts (.inl rfl) hd hstart.1 hstart.2 hs (hb (by simp)) hexec
  | wake f => exact initOp_lasts (.inr rfl) hd hstart.1 hstart.2 hs (hb (by simp)) hexec
  | refresh f => exact refresh_lasts f hd hstart hs (hb (by simp)) hexec
  | sleep f => exact sleep_lasts f hstart hs hexec
  | _ => exact hstart.2.elim

end Sys2Proof.Machine
end
